-- ==== Sys2Proof/Word.lean ====
section
/-! DEFINITION. The unit of every byte space of the engine (20_memory.md R60, R70). -/

namespace Sys2Proof

/-- One 8-bit byte: what the source, the ring, the buffers and the sink hold (00_scope.md R10). -/
abbrev Byte := BitVec 8

end Sys2Proof
end

