-- ==== Sys2Proof/Syntax.lean ====
section
/-! DEFINITION. The engine's instructions: one constructor per mnemonic of spec/opcode_table.json
(rows that share a mnemonic and a rule are one class, 30_encoding.md). Three levels exist: block
magics, LZVN opcodes, and the codes of the V2 frequency table. Operands are the encoded bit fields
of 30_encoding.md R101 and R99; biases are added by the meanings. -/

namespace Sys2Proof

/-- Which of the three decoders of 30_encoding.md reads an instruction. -/
inductive Level where
  /-- The stream demultiplexer, 4-byte magics (R81). -/
  | block
  /-- The LZVN payload, opcode bytes (R100). -/
  | lzvn
  /-- The V2 frequency table, bit codes (R99). -/
  | vlc
  deriving DecidableEq, Repr

inductive Instr where
  /-- `bvx1`: an LZFSE v1 block (R271). -/
  | bvx1
  /-- `bvx2`: an LZFSE v2 block (R272). -/
  | bvx2
  /-- `bvxn`: an LZVN block (R273). -/
  | bvxn
  /-- `bvx-`: a raw block (R274). -/
  | bvxRaw
  /-- `bvx$`: end of stream (R275). -/
  | bvxEnd
  /-- `smlD`: `l` is op[7:6], `m` is op[5:3], `d` is op[2:0] above b1 (R243). -/
  | smlD (l : BitVec 2) (m : BitVec 3) (d : BitVec 11)
  /-- `medD`: `l` is op[4:3], `m` is op[2:0] above b1[1:0], `d` is b2 above b1[7:2] (R244). -/
  | medD (l : BitVec 2) (m : BitVec 5) (d : BitVec 14)
  /-- `lrgD`: `l` is op[7:6], `m` is op[5:3], `d` is b2 above b1 (R245). -/
  | lrgD (l : BitVec 2) (m : BitVec 3) (d : BitVec 16)
  /-- `preD`: `l` is op[7:6], `m` is op[5:3] (R246). -/
  | preD (l : BitVec 2) (m : BitVec 3)
  /-- `smlL`: `l` is op[3:0] (R247). -/
  | smlL (l : BitVec 4)
  /-- `lrgL`: `l` is b1 (R248). -/
  | lrgL (l : BitVec 8)
  /-- `smlM`: `m` is op[3:0] (R249). -/
  | smlM (m : BitVec 4)
  /-- `lrgM`: `m` is b1 (R250). -/
  | lrgM (m : BitVec 8)
  /-- `nop`: the opcode byte, one of two (R251). -/
  | nop (op : BitVec 8)
  /-- `eos`: opcode 6 (R252). -/
  | eos
  /-- `udef`: the opcode byte, one of the 37 reserved ones (R253). -/
  | udef (op : BitVec 8)
  /-- `VZ0`: weight 0 (R190). -/
  | vz0
  /-- `VZ1`: weight 1 (R191). -/
  | vz1
  /-- `V2`: weight 2 (R192). -/
  | v2
  /-- `V3`: weight 3 (R193). -/
  | v3
  /-- `V4_7`: `x` is c[4:3] (R194). -/
  | v4to7 (x : BitVec 2)
  /-- `V8_23`: `x` is c[7:4] (R195). -/
  | v8to23 (x : BitVec 4)
  /-- `V24_1047`: `x` is c[13:4] (R196). -/
  | v24to1047 (x : BitVec 10)
  deriving DecidableEq, Repr

/-- The level whose decoder reads the instruction. -/
def Instr.level : Instr → Level
  | .bvx1 | .bvx2 | .bvxn | .bvxRaw | .bvxEnd => .block
  | .smlD _ _ _ | .medD _ _ _ | .lrgD _ _ _ | .preD _ _ | .smlL _ | .lrgL _ | .smlM _ | .lrgM _
  | .nop _ | .eos | .udef _ => .lzvn
  | .vz0 | .vz1 | .v2 | .v3 | .v4to7 _ | .v8to23 _ | .v24to1047 _ => .vlc

end Sys2Proof
end

