-- ==== Sys2Proof/WellFormed.lean ====
section
/-! DEFINITION. Which terms of Instr an encoding stands for: a term whose opcode byte would land in
another class of 30_encoding.md R102 is not well formed (R105: it does not assemble). -/

namespace Sys2Proof

/-- The upper five opcode bits `l`, `m` of a distance opcode leave the rows 0x7_, 0xA_, 0xB_, 0xD_,
0xE_ and 0xF_ of R102 to their own classes. -/
def distancePrefixOk (l : BitVec 2) (m : BitVec 3) : Bool :=
  !((l == 1 && 6 ≤ m.toNat) || (l == 2 && 4 ≤ m.toNat) || (l == 3 && 2 ≤ m.toNat))

/-- The 37 reserved opcodes of R104 (b). -/
def isReservedOpcode (op : BitVec 8) : Bool :=
  op == 0x1E || op == 0x26 || op == 0x2E || op == 0x36 || op == 0x3E ||
  (0x70 ≤ op.toNat && op.toNat ≤ 0x7F) || (0xD0 ≤ op.toNat && op.toNat ≤ 0xDF)

/-- The check, one arm per constructor (R101, R102, R104). -/
def Instr.wellFormed : Instr → Bool
  | .bvx1 => true
  | .bvx2 => true
  | .bvxn => true
  | .bvxRaw => true
  | .bvxEnd => true
  | .smlD l m d => distancePrefixOk l m && d.toNat < 1536
  | .medD _ _ _ => true
  | .lrgD l m _ => distancePrefixOk l m
  | .preD l m => distancePrefixOk l m && l != 0
  | .smlL l => l != 0
  | .lrgL _ => true
  | .smlM m => m != 0
  | .lrgM _ => true
  | .nop op => op == 0x0E || op == 0x16
  | .eos => true
  | .udef op => isReservedOpcode op
  | .vz0 => true
  | .vz1 => true
  | .v2 => true
  | .v3 => true
  | .v4to7 _ => true
  | .v8to23 _ => true
  | .v24to1047 _ => true

end Sys2Proof
end

