-- ==== Sys2Proof/Decode.lean ====
section
/-! DEFINITION. Byte-order and bit-field helpers (00_scope.md R11 to R13), the three decoders of
30_encoding.md, total and rejecting by name, and after them the encoder. -/

namespace Sys2Proof

/-! ### Helpers -/

/-- `LE(B)`: the little-endian value of a byte sequence (R13). -/
def leNat : List Byte → Nat
  | [] => 0
  | b :: bs => b.toNat + 256 * leNat bs

/-- The `n` little-endian bytes of a number: the inverse of `leNat` (R13, R66). -/
def leBytes : Nat → Nat → List Byte
  | 0, _ => []
  | n + 1, v => BitVec.ofNat 8 v :: leBytes n (v / 256)

/-- `MemRead(X, addr, n)` over a byte buffer (R13). -/
def memRead (x : List Byte) (addr n : Nat) : Nat :=
  leNat ((x.drop addr).take n)

/-- `sext_N(v)`: an N-bit pattern read as two's complement (R12). -/
def sext (bits v : Nat) : Int :=
  if v < 2 ^ (bits - 1) then (v : Int) else (v : Int) - 2 ^ bits

/-- `v[lo+width-1 : lo]`: the extractor `n(word, bitOffset, bitWidth)` of R11. -/
def bitField (v lo width : Nat) : Nat :=
  v / 2 ^ lo % 2 ^ width

/-! ### Decoding -/

/-- Why a decoder gives no instruction. -/
inductive DecodeError where
  /-- Fewer than four bytes where a magic is expected (R270: T01). -/
  | truncatedMagic
  /-- Four bytes that are none of the five magics (R276: F01). -/
  | badMagic
  /-- The LZVN payload ends where an opcode is needed (R254 a: F20). -/
  | missingOpcode
  /-- The LZVN payload ends inside the operand bytes (R254 b: F20). -/
  | missingOperand
  deriving DecidableEq, Repr

/-- The magic-number table, by value (R81). -/
def magicInstr (m : Nat) : Except DecodeError Instr :=
  if m = 0x31787662 then .ok .bvx1
  else if m = 0x32787662 then .ok .bvx2
  else if m = 0x6E787662 then .ok .bvxn
  else if m = 0x2D787662 then .ok .bvxRaw
  else if m = 0x24787662 then .ok .bvxEnd
  else .error .badMagic

/-- The block level: the first four bytes, read little-endian, are the magic (R81, R270). -/
def decodeBlock : List Byte → Except DecodeError Instr
  | b0 :: b1 :: b2 :: b3 :: _ => magicInstr (leNat [b0, b1, b2, b3])
  | _ => .error .truncatedMagic

/-- The eleven LZVN classes (R101). -/
inductive LzvnClass where
  | smlD | medD | lrgD | preD | smlL | lrgL | smlM | lrgM | nop | eos | udef
  deriving DecidableEq, Repr

/-- The classification of all 256 opcodes, R102's decision procedure in its order. -/
def lzvnClass (op : Byte) : LzvnClass :=
  let v := op.toNat
  if v = 0x06 then .eos
  else if v = 0x0E ∨ v = 0x16 then .nop
  else if 0xA0 ≤ v ∧ v ≤ 0xBF then .medD
  else if v = 0xE0 then .lrgL
  else if 0xE1 ≤ v ∧ v ≤ 0xEF then .smlL
  else if v = 0xF0 then .lrgM
  else if 0xF1 ≤ v ∧ v ≤ 0xFF then .smlM
  else if (0x70 ≤ v ∧ v ≤ 0x7F) ∨ (0xD0 ≤ v ∧ v ≤ 0xDF) then .udef
  else if v % 8 = 7 then .lrgD
  else if v % 8 = 6 ∧ v < 0x40 then .udef
  else if v % 8 = 6 then .preD
  else .smlD

/-- `LEN[c]`: opcode plus operand bytes (R242); `udef` consumes nothing (R253). -/
def lzvnLen : LzvnClass → Nat
  | .smlD => 2
  | .medD => 3
  | .lrgD => 3
  | .preD => 1
  | .smlL => 1
  | .lrgL => 2
  | .smlM => 1
  | .lrgM => 2
  | .nop => 1
  | .eos => 1
  | .udef => 0

/-- The fields of an opcode byte `op` of class `c` and its operand bytes (R101). -/
def lzvnFields (c : LzvnClass) (op : Byte) (rest : List Byte) : Except DecodeError Instr :=
  match c with
  | .smlD =>
    match rest with
    | b1 :: _ => .ok (.smlD (op.extractLsb' 6 2) (op.extractLsb' 3 3) (op.extractLsb' 0 3 ++ b1))
    | _ => .error .missingOperand
  | .medD =>
    match rest with
    | b1 :: b2 :: _ =>
      .ok (.medD (op.extractLsb' 3 2) (op.extractLsb' 0 3 ++ b1.extractLsb' 0 2)
        (b2 ++ b1.extractLsb' 2 6))
    | _ => .error .missingOperand
  | .lrgD =>
    match rest with
    | b1 :: b2 :: _ => .ok (.lrgD (op.extractLsb' 6 2) (op.extractLsb' 3 3) (b2 ++ b1))
    | _ => .error .missingOperand
  | .preD => .ok (.preD (op.extractLsb' 6 2) (op.extractLsb' 3 3))
  | .smlL => .ok (.smlL (op.extractLsb' 0 4))
  | .lrgL =>
    match rest with
    | b1 :: _ => .ok (.lrgL b1)
    | _ => .error .missingOperand
  | .smlM => .ok (.smlM (op.extractLsb' 0 4))
  | .lrgM =>
    match rest with
    | b1 :: _ => .ok (.lrgM b1)
    | _ => .error .missingOperand
  | .nop => .ok (.nop op)
  | .eos => .ok .eos
  | .udef => .ok (.udef op)

/-- The LZVN level: the opcode at the head of the bytes. The class is looked up first and the test
`op = 6` is made before the class is acted on (R241, R252; 92 D37). -/
def decodeLzvn : List Byte → Except DecodeError Instr
  | [] => .error .missingOpcode
  | op :: rest =>
    let c := lzvnClass op
    if op = 0x06 then .ok .eos else lzvnFields c op rest

/-- The VLC level: the code at the low end of the accumulator `c` (R99, R183). Total: every 5-bit
key selects one form (R104 d). -/
def decodeVlc (c : BitVec 14) : Instr :=
  if c.extractLsb' 0 2 = 0b00#2 then .vz0
  else if c.extractLsb' 0 2 = 0b10#2 then .vz1
  else if c.extractLsb' 0 3 = 0b001#3 then .v2
  else if c.extractLsb' 0 3 = 0b101#3 then .v3
  else if c.extractLsb' 0 3 = 0b011#3 then .v4to7 (c.extractLsb' 3 2)
  else if c.extractLsb' 0 4 = 0b0111#4 then .v8to23 (c.extractLsb' 4 4)
  else .v24to1047 (c.extractLsb' 4 10)

/-- Decode at a level from bytes. At the VLC level the first byte holds the code's first bits and
missing bytes are zero bits, as in the accumulator of R182. -/
def decode : Level → List Byte → Except DecodeError Instr
  | .block, bs => decodeBlock bs
  | .lzvn, bs => decodeLzvn bs
  | .vlc, bs => .ok (decodeVlc (BitVec.ofNat 14 (leNat (bs.take 2))))

/-! ### Encoding -/

/-- The width in bits of a VLC form (R99); 0 for the other levels. -/
def vlcWidth : Instr → Nat
  | .vz0 => 2
  | .vz1 => 2
  | .v2 => 3
  | .v3 => 3
  | .v4to7 _ => 5
  | .v8to23 _ => 8
  | .v24to1047 _ => 14
  | _ => 0

/-- The code of a VLC form, `c[0]` its least significant bit (R99); 0 for the other levels. -/
def vlcCode : Instr → Nat
  | .vz0 => 0b00
  | .vz1 => 0b10
  | .v2 => 0b001
  | .v3 => 0b101
  | .v4to7 x => (x ++ 0b011#3).toNat
  | .v8to23 x => (x ++ 0b0111#4).toNat
  | .v24to1047 x => (x ++ 0b1111#4).toNat
  | _ => 0

/-- The bytes of an instruction (R81, R101, R102); a VLC code is padded with zero bits to whole
bytes. -/
def encode : Instr → List Byte
  | .bvx1 => [0x62, 0x76, 0x78, 0x31]
  | .bvx2 => [0x62, 0x76, 0x78, 0x32]
  | .bvxn => [0x62, 0x76, 0x78, 0x6E]
  | .bvxRaw => [0x62, 0x76, 0x78, 0x2D]
  | .bvxEnd => [0x62, 0x76, 0x78, 0x24]
  | .smlD l m d => [l ++ m ++ d.extractLsb' 8 3, d.extractLsb' 0 8]
  | .medD l m d =>
    [0b101#3 ++ l ++ m.extractLsb' 2 3, d.extractLsb' 0 6 ++ m.extractLsb' 0 2, d.extractLsb' 6 8]
  | .lrgD l m d => [l ++ m ++ 0b111#3, d.extractLsb' 0 8, d.extractLsb' 8 8]
  | .preD l m => [l ++ m ++ 0b110#3]
  | .smlL l => [0b1110#4 ++ l]
  | .lrgL l => [0xE0, l]
  | .smlM m => [0b1111#4 ++ m]
  | .lrgM m => [0xF0, m]
  | .nop op => [op]
  | .eos => [0x06]
  | .udef op => [op]
  | .vz0 => [0b00]
  | .vz1 => [0b10]
  | .v2 => [0b001]
  | .v3 => [0b101]
  | .v4to7 x => leBytes 1 (vlcCode (.v4to7 x))
  | .v8to23 x => leBytes 1 (vlcCode (.v8to23 x))
  | .v24to1047 x => leBytes 2 (vlcCode (.v24to1047 x))

/-- How many bytes `encode` gives (R81, R103, R99 rounded up to whole bytes). -/
def encodedLength : Instr → Nat
  | .bvx1 | .bvx2 | .bvxn | .bvxRaw | .bvxEnd => 4
  | .smlD _ _ _ | .lrgL _ | .lrgM _ => 2
  | .medD _ _ _ | .lrgD _ _ _ => 3
  | .preD _ _ | .smlL _ | .smlM _ | .nop _ | .eos | .udef _ => 1
  | .vz0 | .vz1 | .v2 | .v3 | .v4to7 _ | .v8to23 _ => 1
  | .v24to1047 _ => 2

/-! ### Words of the opcode table -/

/-- Which decoder reads a word of spec/opcode_table.json (log 5). 32-bit words are magics; only VLC
codes wider than a byte are given more than 8 and fewer than 32 bits; of the 8-bit words the five
words of the VLC rows are VLC codes and all others LZVN opcodes. DESIGN CHOICE: the table gives the
word 0x00 to both `VZ0` and one row of `smlD`. -/
def tableLevel (nbits w : Nat) : Level :=
  if 32 ≤ nbits then .block
  else if 8 < nbits then .vlc
  else if w = 0 ∨ w = 1 ∨ w = 2 ∨ w = 3 ∨ w = 5 then .vlc
  else .lzvn

/-- The word's bytes as the stream stores them, with zero operand bytes after them: the longest header
(R83); the operand bytes and the at most 16 literals an LZVN instruction with zero operands announces
(R101, R103); the rest of a frequency code. -/
def tableBytes (nbits w : Nat) : List Byte :=
  leBytes ((nbits + 7) / 8) w ++
    List.replicate (match tableLevel nbits w with | .block => 766 | .lzvn => 18 | .vlc => 7) 0

/-- The instruction the decoder reads from an opcode-table word. -/
def decodeTableWord (nbits w : Nat) : Option Instr :=
  (decode (tableLevel nbits w) (tableBytes nbits w)).toOption

end Sys2Proof
end

