-- ==== Sys2Proof/Config.lean ====
section
/-! DEFINITION. What the spec fixes for every engine (00_scope.md R9), the defaults of the two
construction parameters (R6, R7), and the one free value, the bulk-read draw (R8). -/

namespace Sys2Proof.Config

/-- The default of `S` (R6). -/
def defaultRingSize : Nat := 2 ^ 18

/-- The default of `V2_TABLE_CAPACITY` (R7). -/
def defaultTableCapacity : Nat := 720

/-- The least legal `V2_TABLE_CAPACITY` (R7, R284). -/
def minTableCapacity : Nat := 630

/-- `LITERALS_PER_BLOCK` (R9). -/
def literalsPerBlock : Nat := 40000

/-- The size of the literal buffer (R9, R32). -/
def literalBufferSize : Nat := 40064

/-- `nStates_L` (R9). -/
def nStatesL : Nat := 64
/-- `nStates_M` (R9). -/
def nStatesM : Nat := 64
/-- `nStates_D` (R9). -/
def nStatesD : Nat := 256
/-- `nStates_LIT` (R9). -/
def nStatesLit : Nat := 1024

/-- How many frequency weights a header holds: 20 + 20 + 64 + 256 (R182). -/
def nWeights : Nat := 360

/-- FREE VALUE (log 11): the `BULK_CHUNK` draw of bulk-read call number `n` is
`1 + bulkDraw n % len`, so any count from 1 to `len` (R8, R279). No body: nothing can evaluate it. -/
opaque bulkDraw : Nat → Nat

end Sys2Proof.Config
end

