-- ==== Sys2Proof/Machine/State.lean ====
section
/-! DEFINITION. The engine's state record `E` of 10_state.md R20 to R46, the outside byte sequences of
20_memory.md R60, and its value after construction (70_reset_and_hazards.md R330). Plain data.
Registers of a stated width are Nat where the spec counts or indexes (R12; log 10). -/

namespace Sys2Proof.Machine

/-- A random-access byte space (the ring, the literal buffer): addresses strictly rising; an unlisted
cell is `⊥`, it holds no value (R15, R26, R32; log 18). -/
abbrev Memory := List Host.Cell

/-- The three fault classes (R300). -/
inductive FaultClass where
  | format
  | truncation
  | usage
  deriving DecidableEq, Repr

/-- The reason codes of R301. -/
inductive Reason where
  /-- BAD_MAGIC: magic not one of the five. -/
  | f01
  /-- NEGATIVE_FIELD: a negative header count, state or weight; V2 `headerSize < 32`. -/
  | f02
  /-- V2_TABLE_TOO_LARGE: `tableLen > V2_TABLE_CAPACITY`. -/
  | f03
  /-- VLC_WIDTH: a VLC code wider than the bits left. -/
  | f04
  /-- VLC_TRAILING: nonzero bits, or 8 or more bits, left after the 360th weight. -/
  | f05
  /-- VLC_UNCONSUMED: blob bytes left unread. -/
  | f06
  /-- TANS_WEIGHT_SUM: running weight sum above `nStates`. -/
  | f07
  /-- TANS_TOO_MANY_SYMBOLS: more than 256 weights. -/
  | f08
  /-- LZVN_UDEF: LZVN reserved opcode. -/
  | f09
  /-- BITS_RANGE: a bit offset outside [-7, 0]. -/
  | f10
  /-- STATE_RANGE: a tANS state outside the table. -/
  | f11
  /-- EMPTY_SLOT: a tANS state selects an unwritten entry. -/
  | f12
  /-- BITSTREAM_UNDERRUN: a bitstream payload too short for `init` or `fill`. -/
  | f13
  /-- BITSTREAM_PAD: nonzero padding bits above the initial bit count. -/
  | f14
  /-- LITERAL_COUNT: `nLiterals > 40000` or not a multiple of 4. -/
  | f15
  /-- LITERAL_OVERRUN: a triple needs literals that were not decoded. -/
  | f16
  /-- BAD_DISTANCE: a match with no distance, or before the output, or beyond `S`. -/
  | f17
  /-- RAW_COUNT: a block emits more or fewer bytes than `nRawBytes`. -/
  | f18
  /-- PAYLOAD_SUM: V1 `nPayloadBytes` is not the sum of the two payload counts. -/
  | f19
  /-- LZVN_OVERRUN: an opcode, operand or literal past the payload end. -/
  | f20
  /-- SOURCE_END: the source ends inside a fixed-length read. -/
  | t01
  /-- BIT_READ: `read(w)` with `w > cnt`. -/
  | t02
  /-- BUFFER_SIZE: `S` not a power of two or below 2; capacity below 630. -/
  | u01
  /-- READ_ARGS: `off < 0`, `len < 0`, or `off + len` past the end of `buf`. -/
  | u02
  deriving DecidableEq, Repr

/-- The fault record (R22). -/
structure FaultRecord where
  cls : FaultClass
  reason : Reason
  deriving DecidableEq, Repr

/-- How a step of the model stops without a next state. An instruction that raises a fault of R301
does not stop here: it takes a next state with the record written (R302). -/
inductive Fault where
  /-- Raised by `step` on an engine whose fault record is set: "raise the recorded fault" (R277, R303);
  no step is taken. Exact. -/
  | recorded (f : FaultRecord)
  /-- Raised by a match byte whose ring cell holds `⊥` (R15). Safe; no run reaches it (R51). -/
  | unwrittenRing
  /-- Raised by an LZFSE literal whose buffer cell holds `⊥` (R15). Safe; no run reaches it (R51). -/
  | unwrittenLiteral
  /-- Raised by an LZVN or raw literal past its payload's end (R15). Safe; no run reaches it (R51). -/
  | payloadEnd
  deriving DecidableEq, Repr

/-- An instruction the model gives no meaning. -/
inductive Refusal where
  /-- Raised by an arm of `exec` not written yet, by mnemonic; none is left. Safe. -/
  | notModelled (mnemonic : String)
  deriving DecidableEq, Repr

/-- `active`: the kind of the block whose decoder is live (R24). -/
inductive BlockKind where
  /-- NONE: the next engine step reads a magic. -/
  | noBlock
  | v1
  | v2
  | lzvn
  | raw
  deriving DecidableEq, Repr

/-- Where inside one engine step of R277 the model's finer step stands (log 1). The model's own. -/
inductive Phase where
  /-- At an engine step's boundary. -/
  | idle
  /-- Inside `bvx2`: the frequency codes of R182 are being decoded. -/
  | vlc
  /-- Inside an LZVN fetch: a `nop` was consumed and R241's loop continues. -/
  | lzvnFetch
  deriving DecidableEq, Repr

/-- A tANS table entry (R35). -/
structure Entry where
  symbol : Byte
  nBits : Nat
  nBase : Nat
  deriving DecidableEq, Repr

/-- An entry of `TL`, `TM` or `TD`, with its value fields (R36). -/
structure ValueEntry extends Entry where
  vBits : Nat
  vBase : Nat
  deriving DecidableEq, Repr

/-- A bit reader without its buffer, which is `LP` or `LMDP` (R39, R40). `acc` is the 64-bit cache,
`cnt` its valid low bits, `pos` the index of the lowest byte loaded. -/
structure BitReader where
  acc : BitVec 64
  cnt : Nat
  pos : Nat
  deriving DecidableEq, Repr

/-- The four literal lane states (R38). -/
structure Lanes where
  s0 : Nat
  s1 : Nat
  s2 : Nat
  s3 : Nat
  deriving DecidableEq, Repr

/-- The header record `H` (R44, R189). -/
structure Header where
  nRawBytes : Nat
  nPayloadBytes : Nat
  nLiterals : Nat
  nMatches : Nat
  nLiteralPayloadBytes : Nat
  nLmdPayloadBytes : Nat
  literalBits : Int
  lmdBits : Int
  literalState : Lanes
  lState : Nat
  mState : Nat
  dState : Nat
  weights : List Nat
  deriving DecidableEq, Repr

/-- The working registers of `vlcDecode` (R182): accumulator, its bit count, the next blob byte, and
the weights decoded so far. The blob itself is `hs` from byte 28 on (log 14). -/
structure Vlc where
  acc : Nat
  nb : Nat
  p : Nat
  weights : List Nat
  deriving DecidableEq, Repr

/-- `blk` (R28). -/
structure Blk where
  nRaw : Nat
  out : Nat
  deriving DecidableEq, Repr

/-- The LZFSE strategy's registers (R33 to R41); `lp` and `lmdp` are the readers' buffers. -/
structure Lzfse where
  nLiterals : Nat
  litPos : Nat
  remaining : Nat
  tl : List (Option ValueEntry)
  tm : List (Option ValueEntry)
  td : List (Option ValueEntry)
  tlit : List (Option Entry)
  sL : Nat
  sM : Nat
  sD : Nat
  lanes : Lanes
  brLmd : BitReader
  brLit : BitReader
  lp : List Byte
  lmdp : List Byte
  deriving DecidableEq, Repr

/-- The LZVN strategy's registers (R42). -/
structure Lzvn where
  vp : List Byte
  vpos : Nat
  deriving DecidableEq, Repr

/-- The raw strategy's registers (R43). -/
structure Raw where
  rp : List Byte
  rpos : Nat
  deriving DecidableEq, Repr

structure State where
  /-- `S` (R6, R46). -/
  ringSize : Nat
  /-- `V2_TABLE_CAPACITY` (R7, R46). -/
  tableCapacity : Nat
  /-- `SRC`, the whole source (R60, R50). -/
  src : List Byte
  /-- `OUT`, oldest byte first (R60, R63). -/
  out : List Byte
  /-- R21. -/
  eos : Bool
  /-- R22. -/
  fault : Option FaultRecord
  /-- R23. -/
  spos : Nat
  /-- R24. -/
  active : BlockKind
  /-- The model's own (log 1). -/
  phase : Phase
  /-- R25. -/
  outTotal : Nat
  /-- `MB` (R26). -/
  mb : Memory
  /-- R27. -/
  mcur : Nat
  /-- R28. -/
  blk : Blk
  /-- The literal run left (R29). -/
  L : Nat
  /-- The match length left (R30). -/
  M : Nat
  /-- The held distance; 0 is "no distance held" (R31). -/
  D : Nat
  /-- `LIT` (R32). -/
  lit : Memory
  lzfse : Lzfse
  lzvn : Lzvn
  raw : Raw
  /-- `H` (R44). -/
  hdr : Header
  /-- `HS` (R60). -/
  hs : List Byte
  /-- R182's registers (log 14). -/
  vlc : Vlc
  /-- The model's own: `BULK_CHUNK` draws taken (log 11). -/
  draws : Nat
  deriving DecidableEq, Repr

/-- `H` at reset: the spec gives `⊥` (R330); zero is a DESIGN CHOICE (log 2). -/
def Header.zero : Header where
  nRawBytes := 0
  nPayloadBytes := 0
  nLiterals := 0
  nMatches := 0
  nLiteralPayloadBytes := 0
  nLmdPayloadBytes := 0
  literalBits := 0
  lmdBits := 0
  literalState := ⟨0, 0, 0, 0⟩
  lState := 0
  mState := 0
  dState := 0
  weights := List.replicate Config.nWeights 0

/-- The LZFSE registers at reset: tables `⊥`, payloads empty (R330); the others `⊥` there and zero here,
a DESIGN CHOICE (log 2). -/
def Lzfse.zero : Lzfse where
  nLiterals := 0
  litPos := 0
  remaining := 0
  tl := List.replicate Config.nStatesL none
  tm := List.replicate Config.nStatesM none
  td := List.replicate Config.nStatesD none
  tlit := List.replicate Config.nStatesLit none
  sL := 0
  sM := 0
  sD := 0
  lanes := ⟨0, 0, 0, 0⟩
  brLmd := ⟨0, 0, 0⟩
  brLit := ⟨0, 0, 0⟩
  lp := []
  lmdp := []

/-- The engine right after construction with the given parameters and source (R330). -/
def State.initial (s cap : Nat) (source : List Byte) : State where
  ringSize := s
  tableCapacity := cap
  src := source
  out := []
  eos := false
  fault := none
  spos := 0
  active := .noBlock
  phase := .idle
  outTotal := 0
  mb := []
  mcur := 0
  blk := ⟨0, 0⟩
  L := 0
  M := 0
  D := 0
  lit := []
  lzfse := Lzfse.zero
  lzvn := ⟨[], 0⟩
  raw := ⟨[], 0⟩
  hdr := Header.zero
  hs := []
  vlc := ⟨0, 0, 0, []⟩
  draws := 0

/-- The reset state with the spec's default parameters and an empty source (R6, R7, R330; log 3). -/
def State.reset : State :=
  State.initial Config.defaultRingSize Config.defaultTableCapacity []

end Sys2Proof.Machine
end

