-- ==== Sys2Proof/Machine/Ops.lean ====
section
/-! DEFINITION. The named operations over memories, the source, the sink and the ring (20_memory.md,
41_match_buffer.md), and taking a fault (60_exceptions.md R302). -/

namespace Sys2Proof.Machine

/-! ### Byte memories -/

/-- One cell; `none` is `⊥` (R15). -/
def Memory.read (m : Memory) (a : Nat) : Option Byte :=
  match m with
  | [] => none
  | (k, v) :: rest => if a = k then some v else Memory.read rest a

/-- Write one byte (R13 `MemWrite`), keeping the addresses strictly rising. -/
def Memory.write (m : Memory) (a : Nat) (b : Byte) : Memory :=
  match m with
  | [] => [(a, b)]
  | (k, v) :: rest =>
    if a < k then (a, b) :: (k, v) :: rest
    else if a = k then (a, b) :: rest
    else (k, v) :: Memory.write rest a b

/-- Every listed address is at least `lo`, and they rise strictly. -/
def Memory.wfFrom (lo : Nat) : Memory → Bool
  | [] => true
  | (k, _) :: rest => decide (lo ≤ k) && Memory.wfFrom (k + 1) rest

/-- The canonical form: addresses strictly rising. An unlisted cell reads as no value, which no entry
equals. -/
def Memory.wf (m : Memory) : Bool :=
  Memory.wfFrom 0 m

/-- Cells `a`, `a + 1`, ... hold the given bytes; every other cell is `⊥` (R140 into a cleared `LIT`). -/
def Memory.ofBytes (a : Nat) : List Byte → Memory
  | [] => []
  | b :: bs => (a, b) :: Memory.ofBytes (a + 1) bs

/-! ### Faults -/

/-- The class of each reason code (R301). -/
def Reason.cls : Reason → FaultClass
  | .t01 | .t02 => .truncation
  | .u01 | .u02 => .usage
  | .f01 | .f02 | .f03 | .f04 | .f05 | .f06 | .f07 | .f08 | .f09 | .f10
  | .f11 | .f12 | .f13 | .f14 | .f15 | .f16 | .f17 | .f18 | .f19 | .f20 => .format

/-- `raise C(reason)`, the one way a fault is taken (R302): the record is written and the engine step
ends; no other register changes. What the operation had changed by then differs by operation, a DESIGN CHOICE
(log 7). There is no return from a fault (R308), so no operation undoes it. -/
def raise (s : State) (r : Reason) : State :=
  { s with fault := some ⟨r.cls, r⟩, phase := .idle }

/-- Run a check or a computation that may raise, and go on with its value. -/
def raising {α : Type} (s : State) (x : Except Reason α)
    (k : α → Host.Outcome State Fault Refusal) : Host.Outcome State Fault Refusal :=
  match x with
  | .error r => .next (raise s r)
  | .ok a => k a

/-! ### The source and the sink -/

/-- `SrcRead(n)` (R61): the next `n` bytes and the state with `spos` advanced, or `none` where the
source ends first. -/
def srcRead (n : Nat) (s : State) : Option (List Byte × State) :=
  if s.spos + n ≤ s.src.length then
    some ((s.src.drop s.spos).take n, { s with spos := s.spos + n })
  else none

/-- `SrcRead(n)` inside an instruction: T01 with `spos` unchanged, or go on with the bytes (R61). -/
def reading (n : Nat) (s : State)
    (k : List Byte → State → Host.Outcome State Fault Refusal) :
    Host.Outcome State Fault Refusal :=
  match srcRead n s with
  | none => .next (raise s .t01)
  | some (bs, s') => k bs s'

/-- `HS <- SrcRead(n)` (R175, R179, R187, R188). -/
def readingHeader (n : Nat) (s : State)
    (k : List Byte → State → Host.Outcome State Fault Refusal) :
    Host.Outcome State Fault Refusal :=
  reading n s fun bs s' => k bs { s' with hs := bs }

/-- `Emit(b)` (R63). -/
def emit (b : Byte) (s : State) : State :=
  { s with out := s.out ++ [b] }

/-! ### The match buffer -/

/-- `(cursor ± offset) & (S-1)`: for the power of two `S` the mask is the remainder (R27; log 9). -/
def ringAddr (size : Nat) (x : Int) : Nat :=
  (x % (size : Int)).toNat

/-- `write(b)` (R160). -/
def ringWrite (b : Byte) (s : State) : State :=
  emit b
    { s with
      mb := s.mb.write s.mcur b
      mcur := ringAddr s.ringSize (s.mcur + 1)
      outTotal := s.outTotal + 1
      blk := { s.blk with out := s.blk.out + 1 } }

/-- `write(bytes, off, len)`, the bulk write (R161), over the bytes `bytes[off .. off+len-1]`. -/
def ringWriteAll : List Byte → State → State
  | [], s => s
  | b :: bs, s => ringWriteAll bs (ringWrite b s)

/-- The byte a match at distance `d` reads; `none` where its cell is `⊥` (R162). -/
def matchByte (d : Nat) (s : State) : Option Byte :=
  s.mb.read (ringAddr s.ringSize (s.mcur - d))

/-- `match(d)` (R162): the byte and the state after writing it; `none` where the cell is `⊥`. -/
def ringMatch (d : Nat) (s : State) : Option (Byte × State) :=
  (matchByte d s).map fun b => (b, ringWrite b s)

/-- `match(d, out, off, len)`, the bulk match (R163): the `len` bytes in order. -/
def ringMatchAll (d : Nat) : Nat → State → Option (List Byte × State)
  | 0, s => some ([], s)
  | n + 1, s =>
    match ringMatch d s with
    | none => none
    | some (b, s') =>
      match ringMatchAll d n s' with
      | none => none
      | some (bs, s'') => some (b :: bs, s'')

end Sys2Proof.Machine
end

