-- ==== Sys2Proof/Machine/Flags.lean ====
section
/-! DEFINITION. The engine's flags: `eos` and the fault record are the only ones (10_state.md R48); no
instruction has condition codes. The fault record is written by Ops.raise alone. -/

namespace Sys2Proof.Machine

/-- `eos <- 1` (R275). -/
def setEos (s : State) : State :=
  { s with eos := true }

/-- What `available()` reads: `exhausted` (R280). -/
def exhausted (s : State) : Bool :=
  s.eos

/-- Is the engine faulted (R303)? -/
def faulted (s : State) : Bool :=
  s.fault.isSome

end Sys2Proof.Machine
end

