-- ==== Sys2Proof/Machine/Headers.lean ====
section
/-! DEFINITION. The block header parsers over the header scratch bytes (42_block_headers.md R175 to
R189) and the layouts they read (30_encoding.md R83, R85 to R92). A parser gives the header record or
the reason of its first failing check. -/

namespace Sys2Proof.Machine

/-- `sext_32(MemRead(HS, off, 4))` (R66). -/
def int32At (hs : List Byte) (off : Nat) : Int :=
  sext 32 (memRead hs off 4)

/-- `sext_16(MemRead(HS, off, 2))` (R66). -/
def int16At (hs : List Byte) (off : Nat) : Int :=
  sext 16 (memRead hs off 2)

/-- Consecutive int16 fields (R84). -/
def int16s : List Byte → List Int
  | b0 :: b1 :: rest => sext 16 (leNat [b0, b1]) :: int16s rest
  | _ => []

/-! ### V1 -/

/-- The V1 fields as read, before any check (R83, R84, R175). -/
structure RawV1 where
  nRawBytes : Int
  nPayloadBytes : Int
  nLiterals : Int
  nMatches : Int
  nLiteralPayloadBytes : Int
  nLmdPayloadBytes : Int
  literalBits : Int
  literalState0 : Int
  literalState1 : Int
  literalState2 : Int
  literalState3 : Int
  lmdBits : Int
  lState : Int
  mState : Int
  dState : Int
  weights : List Int
  deriving DecidableEq, Repr

/-- `parseV1`'s field extraction from the 766 header bytes (R175). -/
def readV1 (hs : List Byte) : RawV1 where
  nRawBytes := int32At hs 0
  nPayloadBytes := int32At hs 4
  nLiterals := int32At hs 8
  nMatches := int32At hs 12
  nLiteralPayloadBytes := int32At hs 16
  nLmdPayloadBytes := int32At hs 20
  literalBits := int32At hs 24
  literalState0 := int16At hs 28
  literalState1 := int16At hs 30
  literalState2 := int16At hs 32
  literalState3 := int16At hs 34
  lmdBits := int32At hs 36
  lState := int16At hs 40
  mState := int16At hs 42
  dState := int16At hs 44
  weights := int16s ((hs.drop 46).take 720)

/-- R176: some count, state or weight is negative. -/
def RawV1.negative (r : RawV1) : Bool :=
  r.nRawBytes < 0 || r.nPayloadBytes < 0 || r.nLiterals < 0 || r.nMatches < 0 ||
  r.nLiteralPayloadBytes < 0 || r.nLmdPayloadBytes < 0 ||
  r.literalState0 < 0 || r.literalState1 < 0 || r.literalState2 < 0 || r.literalState3 < 0 ||
  r.lState < 0 || r.mState < 0 || r.dState < 0 || r.weights.any (· < 0)

/-- A bit offset outside [-7, 0] (R177). -/
def bitsOutOfRange (n : Int) : Bool :=
  n < -7 || 0 < n

/-- The record of fields that passed R176. -/
def RawV1.header (r : RawV1) : Header where
  nRawBytes := r.nRawBytes.toNat
  nPayloadBytes := r.nPayloadBytes.toNat
  nLiterals := r.nLiterals.toNat
  nMatches := r.nMatches.toNat
  nLiteralPayloadBytes := r.nLiteralPayloadBytes.toNat
  nLmdPayloadBytes := r.nLmdPayloadBytes.toNat
  literalBits := r.literalBits
  lmdBits := r.lmdBits
  literalState := ⟨r.literalState0.toNat, r.literalState1.toNat, r.literalState2.toNat,
    r.literalState3.toNat⟩
  lState := r.lState.toNat
  mState := r.mState.toNat
  dState := r.dState.toNat
  weights := r.weights.map Int.toNat

/-- `checkV1()`: R176, then R177, then R178. -/
def checkV1 (r : RawV1) : Except Reason Header :=
  if r.negative then .error .f02
  else if bitsOutOfRange r.literalBits || bitsOutOfRange r.lmdBits then .error .f10
  else if r.nPayloadBytes ≠ r.nLiteralPayloadBytes + r.nLmdPayloadBytes then .error .f19
  else .ok r.header

/-- `parseV1()` on the 766 bytes after the magic (R175). -/
def parseV1 (hs : List Byte) : Except Reason Header :=
  checkV1 (readV1 hs)

/-! ### V2 -/

/-- The header of the 28 prefix bytes after the magic (R86 to R88, R179); no weights yet. -/
def readV2 (hs : List Byte) : Header :=
  let w0 := memRead hs 4 8
  let w1 := memRead hs 12 8
  let w2 := memRead hs 20 8
  { nRawBytes := (int32At hs 0).toNat
    nPayloadBytes := bitField w0 20 20 + bitField w1 40 20
    nLiterals := bitField w0 0 20
    nMatches := bitField w0 40 20
    nLiteralPayloadBytes := bitField w0 20 20
    nLmdPayloadBytes := bitField w1 40 20
    literalBits := (bitField w0 60 3 : Int) - 7
    lmdBits := (bitField w1 60 3 : Int) - 7
    literalState := ⟨bitField w1 0 10, bitField w1 10 10, bitField w1 20 10, bitField w1 30 10⟩
    lState := bitField w2 32 10
    mState := bitField w2 42 10
    dState := bitField w2 52 10
    weights := List.replicate Config.nWeights 0 }

/-- `tableLen = headerSize - 32` (R88, R90, R180). -/
def v2TableLen (hs : List Byte) : Int :=
  (bitField (memRead hs 20 8) 0 32 : Int) - 32

/-- `parseV2()` parts 1 and 2 (R179, R180): the header and the blob's length. -/
def parseV2Prefix (capacity : Nat) (hs : List Byte) : Except Reason (Header × Nat) :=
  if int32At hs 0 < 0 then .error .f02
  else if v2TableLen hs < 0 then .error .f02
  else if (capacity : Int) < v2TableLen hs then .error .f03
  else .ok (readV2 hs, (v2TableLen hs).toNat)

/-! ### LZVN and raw -/

/-- `parseLZVN()` on the 8 bytes after the magic (R91, R187): `nRawBytes`, `nPayloadBytes`. -/
def parseLzvn (hs : List Byte) : Except Reason (Nat × Nat) :=
  if int32At hs 0 < 0 ∨ int32At hs 4 < 0 then .error .f02
  else .ok ((int32At hs 0).toNat, (int32At hs 4).toNat)

/-- `parseRaw()` on the 4 bytes after the magic (R92, R188): `nRawBytes`. -/
def parseRaw (hs : List Byte) : Except Reason Nat :=
  if int32At hs 0 < 0 then .error .f02
  else .ok (int32At hs 0).toNat

end Sys2Proof.Machine
end

