-- ==== Sys2Proof/Machine/Operands.lean ====
section
/-! DEFINITION. The operand forms: the fields of an LZVN instruction as the triple `(L', M', newD)`
(30_encoding.md R101), and the width and value of a VLC form (R99, R183). -/

namespace Sys2Proof.Machine

/-- An LMD triple as a strategy returns it; `newD = 0` keeps the held distance (R213, R215). -/
structure Triple where
  l : Nat
  m : Nat
  newD : Nat
  deriving DecidableEq, Repr

/-- `smlD` (R243). -/
def fieldsSmlD (l : BitVec 2) (m : BitVec 3) (d : BitVec 11) : Triple :=
  ⟨l.toNat, m.toNat + 3, d.toNat⟩

/-- `medD` (R244). -/
def fieldsMedD (l : BitVec 2) (m : BitVec 5) (d : BitVec 14) : Triple :=
  ⟨l.toNat, m.toNat + 3, d.toNat⟩

/-- `lrgD` (R245). -/
def fieldsLrgD (l : BitVec 2) (m : BitVec 3) (d : BitVec 16) : Triple :=
  ⟨l.toNat, m.toNat + 3, d.toNat⟩

/-- `preD` (R246): no distance of its own. -/
def fieldsPreD (l : BitVec 2) (m : BitVec 3) : Triple :=
  ⟨l.toNat, m.toNat + 3, 0⟩

/-- `smlL` (R247). -/
def fieldsSmlL (l : BitVec 4) : Triple :=
  ⟨l.toNat, 0, 0⟩

/-- `lrgL` (R248). -/
def fieldsLrgL (l : BitVec 8) : Triple :=
  ⟨l.toNat + 16, 0, 0⟩

/-- `smlM` (R249). -/
def fieldsSmlM (m : BitVec 4) : Triple :=
  ⟨0, m.toNat, 0⟩

/-- `lrgM` (R250). -/
def fieldsLrgM (m : BitVec 8) : Triple :=
  ⟨0, m.toNat + 16, 0⟩

/-- `V4_7` (R194). -/
def weightV4to7 (x : BitVec 2) : Nat := 4 + x.toNat

/-- `V8_23` (R195). -/
def weightV8to23 (x : BitVec 4) : Nat := 8 + x.toNat

/-- `V24_1047` (R196). -/
def weightV24to1047 (x : BitVec 10) : Nat := 24 + x.toNat

end Sys2Proof.Machine
end

