-- ==== Sys2Proof/Machine/Lmd.lean ====
section
/-! DEFINITION. The LMD loop shared by the strategies: accepting a fetched triple, emitting a literal or
a match byte, and the end of a block (43_lmd_lzfse_raw.md R210 to R216, R219, R221, R224; 44_lzvn.md
R255). -/

namespace Sys2Proof.Machine

/-- The D update: a new distance of 0 keeps the held one (R215). -/
def updateD (newD : Nat) (s : State) : State :=
  if newD = 0 then s else { s with D := newD }

/-- Is the active strategy LZFSE's (R24, R213)? -/
def BlockKind.isLzfse : BlockKind → Bool
  | .v1 => true
  | .v2 => true
  | .noBlock => false
  | .lzvn => false
  | .raw => false

/-- `checkLiterals(L')`, LZFSE only (R221), then `checkTriple(L', M')` (R216): the reason of the first
failing check, made after the D update. -/
def tripleFault (l m : Nat) (s : State) : Option Reason :=
  if s.active.isLzfse ∧ s.lzfse.nLiterals < s.lzfse.litPos + l then some .f16
  else if s.blk.nRaw < s.blk.out + l + m then some .f18
  else if 0 < m ∧ (s.D = 0 ∨ s.outTotal + l < s.D ∨ s.ringSize < s.D) then some .f17
  else none

/-- FETCH_NEXT with a triple (R213): the D update, the checks, then `L` and `M`. -/
def acceptTriple (t : Triple) (s : State) : State :=
  match tripleFault t.l t.m (updateD t.newD s) with
  | some r => raise (updateD t.newD s) r
  | none => { updateD t.newD s with L := t.l, M := t.m }

/-- DONE (R214). -/
def blockDone (s : State) : State :=
  if s.blk.out ≠ s.blk.nRaw then raise s .f18
  else { s with active := .noBlock, phase := .idle }

/-- `nextLiteral()` of the active strategy: the byte and the state with its cursor advanced (R219,
R224, R255). A literal that is not there has no value (R15; log 8). -/
def nextLiteral (s : State) : Except Fault (Byte × State) :=
  match s.active with
  | .v1 | .v2 =>
    match s.lit.read s.lzfse.litPos with
    | some b => .ok (b, { s with lzfse := { s.lzfse with litPos := s.lzfse.litPos + 1 } })
    | none => .error .unwrittenLiteral
  | .lzvn =>
    match s.lzvn.vp[s.lzvn.vpos]? with
    | some b => .ok (b, { s with lzvn := { s.lzvn with vpos := s.lzvn.vpos + 1 } })
    | none => .error .payloadEnd
  | .raw =>
    match s.raw.rp[s.raw.rpos]? with
    | some b => .ok (b, { s with raw := { s.raw with rpos := s.raw.rpos + 1 } })
    | none => .error .payloadEnd
  | .noBlock => .error .payloadEnd

/-- EMIT_LITERAL (R211). -/
def emitLiteral (s : State) : Except Fault State :=
  match nextLiteral s with
  | .error f => .error f
  | .ok (b, s') => .ok { ringWrite b s' with L := s.L - 1 }

/-- EMIT_MATCH (R212). -/
def emitMatch (s : State) : Except Fault State :=
  match ringMatch s.D s with
  | none => .error .unwrittenRing
  | some (_, s') => .ok { s' with M := s.M - 1 }

end Sys2Proof.Machine
end

