-- ==== Sys2Proof/Machine/BitReader.lean ====
section
/-! DEFINITION. The bit reader: `init`, `fill` and `read` over a payload filled backward (40_entropy.md
R120 to R130). -/

namespace Sys2Proof.Machine

/-- `init(buf, n)` with `n = 0` (R121). -/
def BitReader.init0 (buf : List Byte) : Except Reason BitReader :=
  if buf.length < 7 then .error .f13
  else .ok
    { acc := BitVec.ofNat 64 (memRead buf (buf.length - 7) 7)
      cnt := 56
      pos := buf.length - 7 }

/-- `init(buf, -k)` with `1 <= k <= 7` (R122): the padding bits above `cnt` must be 0 (R125). -/
def BitReader.initNeg (buf : List Byte) (k : Nat) : Except Reason BitReader :=
  if buf.length < 8 then .error .f13
  else
    let acc := BitVec.ofNat 64 (memRead buf (buf.length - 8) 8)
    if acc >>> (64 - k) ≠ 0#64 then .error .f14
    else .ok { acc := acc, cnt := 64 - k, pos := buf.length - 8 }

/-- `init(buf, n)` (R121 to R123). -/
def BitReader.init (buf : List Byte) (n : Int) : Except Reason BitReader :=
  if n < -7 ∨ 0 < n then .error .f10
  else if n = 0 then BitReader.init0 buf
  else BitReader.initNeg buf (-n).toNat

/-- Load `k` bytes from below `pos`, each entering at the bottom (R126's `repeat`). -/
def BitReader.load (buf : List Byte) : Nat → BitReader → BitReader
  | 0, br => br
  | k + 1, br =>
    BitReader.load buf k
      { acc := (br.acc <<< 8) ||| (buf.getD (br.pos - 1) 0).setWidth 64
        cnt := br.cnt + 8
        pos := br.pos - 1 }

/-- `fill()` (R126, R127). A reader whose `pos` lies past its buffer, which no run reaches (R120), has
no bytes to load either and faults F13 (log 8). -/
def BitReader.fill (buf : List Byte) (br : BitReader) : Except Reason BitReader :=
  if br.cnt < 56 then
    let nb := (63 - br.cnt) / 8
    if br.pos < nb ∨ buf.length < br.pos then .error .f13 else .ok (BitReader.load buf nb br)
  else .ok br

/-- `read(w)` (R128): the top `w` valid bits, removed. -/
def BitReader.read (br : BitReader) (w : Nat) : Except Reason (Nat × BitReader) :=
  if br.cnt < w then .error .t02
  else
    let cnt := br.cnt - w
    .ok ((br.acc >>> cnt).toNat, { br with acc := br.acc &&& BitVec.ofNat 64 (2 ^ cnt - 1), cnt := cnt })

end Sys2Proof.Machine
end

