-- ==== Sys2Proof/Machine/Tables.lean ====
section
/-! DEFINITION. The constant value tables (40_entropy.md R135, R136; the spec supplies their contents
from general knowledge, 93 G8 and G9; log 13). -/

namespace Sys2Proof.Machine

/-- The three value streams (R17). -/
inductive Stream where
  | L
  | M
  | D
  deriving DecidableEq, Repr

/-- `L_EXTRA` (R135). -/
def lExtra (s : Nat) : Nat :=
  if s < 16 then 0 else [2, 3, 5, 8].getD (s - 16) 0

/-- `L_BASE` (R135). -/
def lBase (s : Nat) : Nat :=
  if s < 16 then s else [16, 20, 28, 60].getD (s - 16) 0

/-- `M_EXTRA` (R135). -/
def mExtra (s : Nat) : Nat :=
  if s < 16 then 0 else [3, 5, 8, 11].getD (s - 16) 0

/-- `M_BASE` (R135). -/
def mBase (s : Nat) : Nat :=
  if s < 16 then s else [16, 24, 56, 312].getD (s - 16) 0

/-- `D_EXTRA` (R136). -/
def dExtra (s : Nat) : Nat :=
  if s < 4 then 0 else s / 4

/-- `D_BASE`: cumulative from 0 (R136). -/
def dBase : Nat → Nat
  | 0 => 0
  | s + 1 => dBase s + 2 ^ dExtra s

/-- `X_EXTRA[s]`. -/
def Stream.extra : Stream → Nat → Nat
  | .L => lExtra
  | .M => mExtra
  | .D => dExtra

/-- `X_BASE[s]`. -/
def Stream.base : Stream → Nat → Nat
  | .L => lBase
  | .M => mBase
  | .D => dBase

/-- How many symbols a stream has: its weight count (R9, R182). -/
def Stream.symbols : Stream → Nat
  | .L => 20
  | .M => 20
  | .D => 64

end Sys2Proof.Machine
end

