-- ==== Sys2Proof/Machine/Tans.lean ====
section
/-! DEFINITION. The tANS table engine, the value decoder and the four-lane literal decoder
(40_entropy.md R131 to R142). -/

namespace Sys2Proof.Machine

/-- `lzc32(v)` (R12). -/
def lzc32 (v : Nat) : Nat :=
  if v = 0 then 32 else 31 - Nat.log2 v

/-- The split-radix shift `k` of a symbol of weight `w` (R131; 90_conflicts.md C1). -/
def radix (n w : Nat) : Nat :=
  lzc32 w - lzc32 n

/-- How many of the symbol's slots take `k` bits: `x` (R131). -/
def splitPoint (n w : Nat) : Nat :=
  2 * n / 2 ^ radix n w - w

/-- Slot number `i` of symbol `sym` with weight `w` (R131). -/
def slot (n sym w i : Nat) : Entry :=
  if i < splitPoint n w then
    { symbol := BitVec.ofNat 8 sym
      nBits := radix n w
      nBase := (w + i) * 2 ^ radix n w - n }
  else
    { symbol := BitVec.ofNat 8 sym
      nBits := radix n w - 1
      nBase := (i - splitPoint n w) * 2 ^ (radix n w - 1) }

/-- The slots of the symbols from `sym` on, `total` being the weights before them (R131's loop). -/
def buildSlots (n sym total : Nat) : List Nat → Except Reason (List Entry)
  | [] => .ok []
  | w :: ws =>
    if w = 0 then buildSlots n (sym + 1) total ws
    else if n < total + w then .error .f07
    else
      match buildSlots n (sym + 1) (total + w) ws with
      | .error r => .error r
      | .ok es => .ok ((List.range w).map (slot n sym w) ++ es)

/-- `build(T, weights, N)` (R131): the table, `⊥` (none) above the weights' sum. -/
def buildTable (n : Nat) (weights : List Nat) : Except Reason (List (Option Entry)) :=
  if 256 < weights.length then .error .f08
  else
    match buildSlots n 0 0 weights with
    | .error r => .error r
    | .ok es => .ok (es.map some ++ List.replicate (n - es.length) none)

/-- The value fields a written entry gets in a value table (R137). -/
def addValue (x : Stream) (e : Entry) : ValueEntry :=
  { toEntry := e, vBits := x.extra e.symbol.toNat, vBase := x.base e.symbol.toNat }

/-- `build` of `TL`, `TM` or `TD` (R131, R137). -/
def buildValueTable (x : Stream) (n : Nat) (weights : List Nat) :
    Except Reason (List (Option ValueEntry)) :=
  match buildTable n weights with
  | .error r => .error r
  | .ok t => .ok (t.map (Option.map (addValue x)))

/-- The four tables of a block. -/
structure TableSet where
  tl : List (Option ValueEntry)
  tm : List (Option ValueEntry)
  td : List (Option ValueEntry)
  tlit : List (Option Entry)
  deriving DecidableEq, Repr

/-- The four builds of a block init, in the order L, M, D, literal (R186, R217). -/
def buildTables (weights : List Nat) : Except Reason TableSet :=
  match buildValueTable .L Config.nStatesL (weights.take 20) with
  | .error r => .error r
  | .ok tl =>
    match buildValueTable .M Config.nStatesM ((weights.drop 20).take 20) with
    | .error r => .error r
    | .ok tm =>
      match buildValueTable .D Config.nStatesD ((weights.drop 40).take 64) with
      | .error r => .error r
      | .ok td =>
        match buildTable Config.nStatesLit ((weights.drop 104).take 256) with
        | .error r => .error r
        | .ok tlit => .ok ⟨tl, tm, td, tlit⟩

/-- `lookup(T, state)` (R132). -/
def lookup {α : Type} (n : Nat) (t : List (Option α)) (st : Nat) : Except Reason α :=
  if n ≤ st then .error .f11
  else
    match t[st]? with
    | some (some e) => .ok e
    | _ => .error .f12

/-- The state after entry `e`: `e.nBase + BR.read(e.nBits)` (R133). -/
def nextState (e : Entry) (br : BitReader) : Except Reason (Nat × BitReader) :=
  match br.read e.nBits with
  | .error r => .error r
  | .ok (v, br') => .ok (e.nBase + v, br')

/-- `transition(TLIT, s, BR)` (R133): the entry, the new state and the reader. -/
def transition (n : Nat) (t : List (Option Entry)) (st : Nat) (br : BitReader) :
    Except Reason (Entry × Nat × BitReader) :=
  match lookup n t st with
  | .error r => .error r
  | .ok e =>
    match nextState e br with
    | .error r => .error r
    | .ok (st', br') => .ok (e, st', br')

/-- `valueDecode(X, BR)` (R138): state bits, then extra bits. The value, the new state, the reader. -/
def valueDecode (n : Nat) (t : List (Option ValueEntry)) (st : Nat) (br : BitReader) :
    Except Reason (Nat × Nat × BitReader) :=
  match lookup n t st with
  | .error r => .error r
  | .ok e =>
    match nextState e.toEntry br with
    | .error r => .error r
    | .ok (st', br') =>
      match br'.read e.vBits with
      | .error r => .error r
      | .ok (v, br'') => .ok (e.vBase + v, st', br'')

/-- One literal quad (R140): a fill, then lanes 0 to 3 in order. -/
def literalQuad (tlit : List (Option Entry)) (lp : List Byte) (z : Lanes) (br : BitReader) :
    Except Reason (List Byte × Lanes × BitReader) :=
  match br.fill lp with
  | .error r => .error r
  | .ok b =>
    match transition Config.nStatesLit tlit z.s0 b with
    | .error r => .error r
    | .ok (e0, t0, b0) =>
      match transition Config.nStatesLit tlit z.s1 b0 with
      | .error r => .error r
      | .ok (e1, t1, b1) =>
        match transition Config.nStatesLit tlit z.s2 b1 with
        | .error r => .error r
        | .ok (e2, t2, b2) =>
          match transition Config.nStatesLit tlit z.s3 b2 with
          | .error r => .error r
          | .ok (e3, t3, b3) =>
            .ok ([e0.symbol, e1.symbol, e2.symbol, e3.symbol], ⟨t0, t1, t2, t3⟩, b3)

/-- `q` literal quads: the bytes in the order of `LIT` (R140). -/
def literalQuads (tlit : List (Option Entry)) (lp : List Byte) :
    Nat → Lanes → BitReader → Except Reason (List Byte × Lanes × BitReader)
  | 0, z, br => .ok ([], z, br)
  | q + 1, z, br =>
    match literalQuad tlit lp z br with
    | .error r => .error r
    | .ok (bs, z', br') =>
      match literalQuads tlit lp q z' br' with
      | .error r => .error r
      | .ok (rest, z'', br'') => .ok (bs ++ rest, z'', br'')

/-- `literalDecode()` (R140): `i = 0, 4, 8, ...` while `i < nLiterals`. -/
def literalDecode (tlit : List (Option Entry)) (lp : List Byte) (bits : Int) (nLiterals : Nat)
    (z : Lanes) : Except Reason (List Byte × Lanes × BitReader) :=
  match BitReader.init lp bits with
  | .error r => .error r
  | .ok br => literalQuads tlit lp ((nLiterals + 3) / 4) z br

end Sys2Proof.Machine
end

