-- ==== Sys2Proof/Machine/Lzfse.lean ====
section
/-! DEFINITION. The LZFSE strategy: block init and the fetch of a triple (43_lmd_lzfse_raw.md R217 to
R223). -/

namespace Sys2Proof.Machine

/-- `checkLiteralCount(n)` (R218). -/
def checkLiteralCount (n : Nat) : Except Reason Unit :=
  if Config.literalsPerBlock < n ∨ n % 4 ≠ 0 then .error .f15 else .ok ()

/-- The strategy's registers at the end of `initLZFSE` (R217). -/
def lzfseAtInit (h : Header) (t : TableSet) (lp lmdp : List Byte) (lanes : Lanes)
    (brLit brLmd : BitReader) : Lzfse where
  nLiterals := h.nLiterals
  litPos := 0
  remaining := h.nMatches
  tl := t.tl
  tm := t.tm
  td := t.td
  tlit := t.tlit
  sL := h.lState
  sM := h.mState
  sD := h.dState
  lanes := lanes
  brLmd := brLmd
  brLit := brLit
  lp := lp
  lmdp := lmdp

/-- `initLZFSE(H)`, then `active <- kind` (R217, R271, R272). -/
def initLzfse (kind : BlockKind) (s : State) : Host.Outcome State Fault Refusal :=
  raising s (checkLiteralCount s.hdr.nLiterals) fun _ =>
  raising s (buildTables s.hdr.weights) fun t =>
  reading s.hdr.nLiteralPayloadBytes s fun lp s1 =>
  reading s.hdr.nLmdPayloadBytes s1 fun lmdp s2 =>
  raising s2 (literalDecode t.tlit lp s.hdr.literalBits s.hdr.nLiterals s.hdr.literalState)
    fun (bytes, lanes, brLit) =>
  raising s2 (BitReader.init lmdp s.hdr.lmdBits) fun brLmd =>
  .next
    { s2 with
      lit := Memory.ofBytes 0 bytes
      lzfse := lzfseAtInit s.hdr t lp lmdp lanes brLit brLmd
      L := 0
      M := 0
      D := 0
      blk := ⟨s.hdr.nRawBytes, 0⟩
      active := kind
      phase := .idle }

/-- The decoding part of `nextTriple_LZFSE`: one fill, then L, M, D (R220). The new registers come only with the
whole triple: a fault gives its reason alone, a DESIGN CHOICE (log 7). -/
def decodeTriple (z : Lzfse) : Except Reason (Triple × Lzfse) :=
  match z.brLmd.fill z.lmdp with
  | .error r => .error r
  | .ok b0 =>
    match valueDecode Config.nStatesL z.tl z.sL b0 with
    | .error r => .error r
    | .ok (lv, sL, b1) =>
      match valueDecode Config.nStatesM z.tm z.sM b1 with
      | .error r => .error r
      | .ok (mv, sM, b2) =>
        match valueDecode Config.nStatesD z.td z.sD b2 with
        | .error r => .error r
        | .ok (dv, sD, b3) =>
          .ok (⟨lv, mv, dv⟩,
            { z with sL := sL, sM := sM, sD := sD, brLmd := b3, remaining := z.remaining - 1 })

/-- FETCH_NEXT of an LZFSE block (R213, R220): DONE when no triple remains. A fault inside the decode leaves `sL`,
`sM`, `sD`, `BR_LMD` and `remaining` as they were before the step, even after a fill or a transition that
succeeded; the spec leaves them open (R302, 93 I25), so this is a DESIGN CHOICE (log 7). -/
def fetchLzfse (s : State) : State :=
  if s.lzfse.remaining = 0 then blockDone s
  else
    match decodeTriple s.lzfse with
    | .error r => raise s r
    | .ok (t, z) => acceptTriple t { s with lzfse := z }

end Sys2Proof.Machine
end

