-- ==== Sys2Proof/Machine/Vlc.lean ====
section
/-! DEFINITION. The V2 frequency code: the refill, the seven code forms as instructions, and the end
checks (42_block_headers.md R182 to R186, R190 to R196). One form is one iteration of R182's loop. -/

namespace Sys2Proof.Machine

/-- The refill of R182 over the blob: whole bytes while at most 32 bits would be held. `n` bounds the
loop; four rounds always suffice, since each adds 8 bits. -/
def Vlc.refill (blob : List Byte) : Nat → Vlc → Vlc
  | 0, v => v
  | n + 1, v =>
    if v.nb + 8 ≤ 32 then
      match blob[v.p]? with
      | some b =>
        Vlc.refill blob n
          { v with acc := v.acc ||| (b.toNat <<< v.nb), nb := v.nb + 8, p := v.p + 1 }
      | none => v
    else v

/-- The blob inside the header scratch: what follows the 28 prefix bytes (log 14). -/
def vlcBlob (s : State) : List Byte :=
  s.hs.drop 28

/-- The state with the accumulator refilled for the next code (R182). -/
def vlcRefilled (s : State) : State :=
  { s with vlc := Vlc.refill (vlcBlob s) 4 s.vlc }

/-- `acc[13:0]`, where the next code stands (R183). -/
def vlcWindow (v : Vlc) : BitVec 14 :=
  BitVec.ofNat 14 v.acc

/-- `acc <- acc >> width; nb <- nb - width; weight[i] <- value`, or F04 (R182, R184). -/
def Vlc.take (width value : Nat) (v : Vlc) : Except Reason Vlc :=
  if v.nb < width then .error .f04
  else .ok { v with acc := v.acc >>> width, nb := v.nb - width, weights := v.weights ++ [value] }

/-- One code form executed (R190 to R196). -/
def takeCode (width value : Nat) (s : State) : Host.Outcome State Fault Refusal :=
  raising s (s.vlc.take width value) fun v => .next { s with vlc := v }

/-- `VZ0` (R190). -/
def execVz0 (s : State) : Host.Outcome State Fault Refusal :=
  takeCode 2 0 s

/-- `VZ1` (R191). -/
def execVz1 (s : State) : Host.Outcome State Fault Refusal :=
  takeCode 2 1 s

/-- `V2` (R192). -/
def execV2 (s : State) : Host.Outcome State Fault Refusal :=
  takeCode 3 2 s

/-- `V3` (R193). -/
def execV3 (s : State) : Host.Outcome State Fault Refusal :=
  takeCode 3 3 s

/-- `V4_7` (R194). -/
def execV4to7 (x : BitVec 2) (s : State) : Host.Outcome State Fault Refusal :=
  takeCode 5 (weightV4to7 x) s

/-- `V8_23` (R195). -/
def execV8to23 (x : BitVec 4) (s : State) : Host.Outcome State Fault Refusal :=
  takeCode 8 (weightV8to23 x) s

/-- `V24_1047` (R196). -/
def execV24to1047 (x : BitVec 10) (s : State) : Host.Outcome State Fault Refusal :=
  takeCode 14 (weightV24to1047 x) s

/-- The end checks after the 360th weight (R185). -/
def Vlc.finish (blobLength : Nat) (v : Vlc) : Except Reason (List Nat) :=
  if v.acc ≠ 0 ∨ 8 ≤ v.nb then .error .f05
  else if v.p ≠ blobLength then .error .f06
  else .ok v.weights

/-- The end of `parseV2`: the end checks, `H.weight` written, then `initLZFSE(H)` and `active <- V2`
(R181, R185, R272). -/
def finishV2 (s : State) : Host.Outcome State Fault Refusal :=
  raising s (s.vlc.finish (vlcBlob s).length) fun ws =>
  initLzfse .v2 { s with hdr := { s.hdr with weights := ws } }

/-! ### The whole blob at once -/

/-- The weight and width of a VLC form (R183); the other levels' instructions have none. -/
def vlcValue : Instr → Nat
  | .vz1 => 1
  | .v2 => 2
  | .v3 => 3
  | .v4to7 x => weightV4to7 x
  | .v8to23 x => weightV8to23 x
  | .v24to1047 x => weightV24to1047 x
  | _ => 0

/-- `n` iterations of R182's loop. -/
def vlcLoop (blob : List Byte) : Nat → Vlc → Except Reason Vlc
  | 0, v => .ok v
  | n + 1, v =>
    let r := Vlc.refill blob 4 v
    let i := decodeVlc (vlcWindow r)
    match r.take (vlcWidth i) (vlcValue i) with
    | .error e => .error e
    | .ok v' => vlcLoop blob n v'

/-- `vlcDecode(blob)` (R182) as one function: what 360 code steps and the end checks compute. -/
def vlcDecode (blob : List Byte) : Except Reason (List Nat) :=
  match vlcLoop blob Config.nWeights ⟨0, 0, 0, []⟩ with
  | .error e => .error e
  | .ok v => v.finish blob.length

end Sys2Proof.Machine
end

