-- ==== Sys2Proof/Machine/Block.lean ====
section
/-! DEFINITION. The block-level instructions, the five magics (45_stream_controller.md R271 to R275).
Each runs with `spos` past its four magic bytes. -/

namespace Sys2Proof.Machine

/-- `bvx1` (R271): `parseV1`, `initLZFSE`, `active <- V1`. -/
def execBvx1 (s : State) : Host.Outcome State Fault Refusal :=
  readingHeader 766 s fun hs s1 =>
  raising s1 (parseV1 hs) fun h =>
  initLzfse .v1 { s1 with hdr := h }

/-- `bvx2` (R272): `parseV2`, `initLZFSE`, `active <- V2`. An empty blob zero-fills the tables and the
block starts at once (R181); otherwise the frequency codes follow, one per step (log 1), and
`finishV2` ends the instruction. -/
def execBvx2 (s : State) : Host.Outcome State Fault Refusal :=
  readingHeader 28 s fun hs s1 =>
  raising s1 (parseV2Prefix s1.tableCapacity hs) fun (h, tableLen) =>
  reading tableLen s1 fun blob s2 =>
  if tableLen = 0 then
    initLzfse .v2 { s2 with hdr := h }
  else
    .next { s2 with hdr := h, hs := hs ++ blob, vlc := ⟨0, 0, 0, []⟩, phase := .vlc }

/-- `initLZVN(H)` with its payload read, then `active <- LZVN` (R240, R273). -/
def lzvnStarted (vp : List Byte) (s : State) : State :=
  { s with
    lzvn := ⟨vp, 0⟩
    L := 0
    M := 0
    D := 0
    blk := ⟨s.hdr.nRawBytes, 0⟩
    active := .lzvn
    phase := .idle }

/-- `bvxn` (R273): `parseLZVN`, `initLZVN`, `active <- LZVN`. -/
def execBvxn (s : State) : Host.Outcome State Fault Refusal :=
  readingHeader 8 s fun hs s1 =>
  raising s1 (parseLzvn hs) fun (nRaw, nPayload) =>
  reading nPayload { s1 with hdr := { s1.hdr with nRawBytes := nRaw, nPayloadBytes := nPayload } }
    fun vp s2 =>
  .next (lzvnStarted vp s2)

/-- `initRaw(H)` with its payload read, then `active <- RAW` (R224, R274). -/
def rawStarted (rp : List Byte) (s : State) : State :=
  { s with
    raw := ⟨rp, 0⟩
    L := s.hdr.nRawBytes
    M := 0
    D := 0
    blk := ⟨s.hdr.nRawBytes, 0⟩
    active := .raw
    phase := .idle }

/-- `bvx-` (R274): `parseRaw`, `initRaw`, `active <- RAW`. -/
def execBvxRaw (s : State) : Host.Outcome State Fault Refusal :=
  readingHeader 4 s fun hs s1 =>
  raising s1 (parseRaw hs) fun nRaw =>
  reading nRaw { s1 with hdr := { s1.hdr with nRawBytes := nRaw } } fun rp s2 =>
  .next (rawStarted rp s2)

/-- `bvx$` (R275): `eos <- 1`; nothing else is read. -/
def execBvxEnd (s : State) : Host.Outcome State Fault Refusal :=
  .next (setEos s)

end Sys2Proof.Machine
end

