-- ==== Sys2Proof/Machine/Lzvn.lean ====
section
/-! DEFINITION. The LZVN instructions (44_lzvn.md R241 to R256). Each runs with `vpos` at its opcode byte;
the fetch has checked that its operand bytes are in the payload. -/

namespace Sys2Proof.Machine

/-- The end of one fetch of R241 with a triple from an opcode of `n` bytes: F20 where the announced
literals run past the payload (R254 c), else the cursor passes the opcode and the triple is taken. -/
def lzvnTriple (n : Nat) (t : Triple) (s : State) : Host.Outcome State Fault Refusal :=
  if s.lzvn.vp.length < s.lzvn.vpos + n + t.l then .next (raise s .f20)
  else
    .next (acceptTriple t
      { s with lzvn := { s.lzvn with vpos := s.lzvn.vpos + n }, phase := .idle })

/-- `smlD` (R243). -/
def execSmlD (l : BitVec 2) (m : BitVec 3) (d : BitVec 11) (s : State) :
    Host.Outcome State Fault Refusal :=
  lzvnTriple 2 (fieldsSmlD l m d) s

/-- `medD` (R244). -/
def execMedD (l : BitVec 2) (m : BitVec 5) (d : BitVec 14) (s : State) :
    Host.Outcome State Fault Refusal :=
  lzvnTriple 3 (fieldsMedD l m d) s

/-- `lrgD` (R245). -/
def execLrgD (l : BitVec 2) (m : BitVec 3) (d : BitVec 16) (s : State) :
    Host.Outcome State Fault Refusal :=
  lzvnTriple 3 (fieldsLrgD l m d) s

/-- `preD` (R246). -/
def execPreD (l : BitVec 2) (m : BitVec 3) (s : State) : Host.Outcome State Fault Refusal :=
  lzvnTriple 1 (fieldsPreD l m) s

/-- `smlL` (R247). -/
def execSmlL (l : BitVec 4) (s : State) : Host.Outcome State Fault Refusal :=
  lzvnTriple 1 (fieldsSmlL l) s

/-- `lrgL` (R248). -/
def execLrgL (l : BitVec 8) (s : State) : Host.Outcome State Fault Refusal :=
  lzvnTriple 2 (fieldsLrgL l) s

/-- `smlM` (R249). -/
def execSmlM (m : BitVec 4) (s : State) : Host.Outcome State Fault Refusal :=
  lzvnTriple 1 (fieldsSmlM m) s

/-- `lrgM` (R250). -/
def execLrgM (m : BitVec 8) (s : State) : Host.Outcome State Fault Refusal :=
  lzvnTriple 2 (fieldsLrgM m) s

/-- `nop` (R251): the cursor passes it and the fetch goes on with the next opcode. -/
def execNop (_op : BitVec 8) (s : State) : Host.Outcome State Fault Refusal :=
  .next { s with lzvn := { s.lzvn with vpos := s.lzvn.vpos + 1 }, phase := .lzvnFetch }

/-- `eos` (R252): NONE, so the block ends (R214); `vpos` stays. -/
def execEos (s : State) : Host.Outcome State Fault Refusal :=
  .next (blockDone s)

/-- `udef` (R253): FormatFault F09, nothing consumed. -/
def execUdef (_op : BitVec 8) (s : State) : Host.Outcome State Fault Refusal :=
  .next (raise s .f09)

end Sys2Proof.Machine
end

