-- ==== Sys2Proof/Machine/Dispatch.lean ====
section
/-! DEFINITION. The dispatch of an instruction to its meaning, one arm per constructor. -/

namespace Sys2Proof.Machine

def exec (i : Instr) (s : State) : Host.Outcome State Fault Refusal :=
  match i with
  | .bvx1 => Sys2Proof.Machine.execBvx1 s
  | .bvx2 => Sys2Proof.Machine.execBvx2 s
  | .bvxn => Sys2Proof.Machine.execBvxn s
  | .bvxRaw => Sys2Proof.Machine.execBvxRaw s
  | .bvxEnd => Sys2Proof.Machine.execBvxEnd s
  | .smlD l m d => Sys2Proof.Machine.execSmlD l m d s
  | .medD l m d => Sys2Proof.Machine.execMedD l m d s
  | .lrgD l m d => Sys2Proof.Machine.execLrgD l m d s
  | .preD l m => Sys2Proof.Machine.execPreD l m s
  | .smlL l => Sys2Proof.Machine.execSmlL l s
  | .lrgL l => Sys2Proof.Machine.execLrgL l s
  | .smlM m => Sys2Proof.Machine.execSmlM m s
  | .lrgM m => Sys2Proof.Machine.execLrgM m s
  | .nop op => Sys2Proof.Machine.execNop op s
  | .eos => Sys2Proof.Machine.execEos s
  | .udef op => Sys2Proof.Machine.execUdef op s
  | .vz0 => Sys2Proof.Machine.execVz0 s
  | .vz1 => Sys2Proof.Machine.execVz1 s
  | .v2 => Sys2Proof.Machine.execV2 s
  | .v3 => Sys2Proof.Machine.execV3 s
  | .v4to7 x => Sys2Proof.Machine.execV4to7 x s
  | .v8to23 x => Sys2Proof.Machine.execV8to23 x s
  | .v24to1047 x => Sys2Proof.Machine.execV24to1047 x s

end Sys2Proof.Machine
end

