-- ==== Sys2Proof/Machine/Fetch.lean ====
section
/-! DEFINITION. What the next step of the model does: which instruction it fetches, at which of the three
levels, or which step of the LMD loop it takes (45_stream_controller.md R270, R277; 43_lmd_lzfse_raw.md
R210; 44_lzvn.md R241; 42_block_headers.md R182). -/

namespace Sys2Proof.Machine

/-- What the next step does. -/
inductive Action where
  /-- Execute the fetched instruction from this state. -/
  | run (i : Instr) (s : State)
  /-- A step that executes no instruction of the table: its outcome. -/
  | done (o : Host.Outcome State Fault Refusal)

/-- The fault a decode error is at its level (R254, R270, R276). -/
def decodeReason : DecodeError → Reason
  | .truncatedMagic => .t01
  | .badMagic => .f01
  | .missingOpcode => .f20
  | .missingOperand => .f20

/-- Run the instruction a decoder gives, or raise its error's fault. -/
def runDecoded (x : Except DecodeError Instr) (s : State) : Action :=
  match x with
  | .ok i => .run i s
  | .error e => .done (.next (raise s (decodeReason e)))

/-- The state after `SrcRead(4)` of a magic (R81, R270). -/
def afterMagic (bs : List Byte) (s : State) : State :=
  { s with hs := bs }

/-- `next()`: fetch a magic (R270). A source that ends first is T01 with `spos` unchanged; a bad magic is
F01 with `spos` past it (R276). -/
def fetchMagic (s : State) : Action :=
  match srcRead 4 s with
  | none => .done (.next (raise s .t01))
  | some (bs, s') => runDecoded (decodeBlock bs) (afterMagic bs s')

/-- Fetch an LZVN instruction at `vpos` (R241). -/
def fetchOpcode (s : State) : Action :=
  runDecoded (decodeLzvn (s.lzvn.vp.drop s.lzvn.vpos)) s

/-- Fetch a frequency code after the refill, or end `bvx2` after the 360th weight (R182, R185). -/
def fetchCode (s : State) : Action :=
  if s.vlc.weights.length < Config.nWeights then
    .run (decodeVlc (vlcWindow (vlcRefilled s).vlc)) (vlcRefilled s)
  else .done (finishV2 s)

/-- An emission step's outcome. -/
def emitted (x : Except Fault State) : Action :=
  match x with
  | .ok s => .done (.next s)
  | .error f => .done (.fault f)

/-- FETCH_NEXT of the active strategy (R213, R220, R224, R241). -/
def fetchNext (s : State) : Action :=
  match s.active with
  | .v1 | .v2 => .done (.next (fetchLzfse s))
  | .lzvn => fetchOpcode s
  | .raw => .done (.next (blockDone s))
  | .noBlock => fetchMagic s

/-- `step()`'s choice (R277), `lmdStep()`'s choice (R210), and the two places where the model's step is
finer than R277's (log 1). A faulted engine raises its recorded fault (R303); at end of stream nothing
changes (R275, R277; log 16). -/
def fetch (s : State) : Action :=
  match s.fault with
  | some f => .done (.fault (.recorded f))
  | none =>
    if s.eos then .done (.next s)
    else
      match s.phase with
      | .vlc => fetchCode s
      | .lzvnFetch => fetchOpcode s
      | .idle =>
        match s.active with
        | .noBlock => fetchMagic s
        | .v1 | .v2 | .lzvn | .raw =>
          if 0 < s.L then emitted (emitLiteral s)
          else if 0 < s.M then emitted (emitMatch s)
          else fetchNext s

/-- `bs` with `ws` stored at offset `pos` (zero bytes where `bs` is too short to reach it). -/
def overlay (bs : List Byte) (pos : Nat) (ws : List Byte) : List Byte :=
  bs.take pos ++ List.replicate (pos - bs.length) 0 ++ ws ++ bs.drop (pos + ws.length)

/-- Store an opcode-table word where the next step fetches at the word's level (log 4): in the source
at `spos`, in a live LZVN payload at `vpos`, or as the blob of a V2 header being decoded. -/
def placeWord (s : State) (nbits w : Nat) : State :=
  match tableLevel nbits w with
  | .block =>
    { s with
      src := overlay s.src s.spos (tableBytes nbits w)
      fault := none
      eos := false
      phase := .idle
      active := .noBlock }
  | .lzvn =>
    { s with
      lzvn := { s.lzvn with vp := overlay s.lzvn.vp s.lzvn.vpos (tableBytes nbits w) }
      fault := none
      eos := false
      phase := .idle
      active := .lzvn
      L := 0
      M := 0 }
  | .vlc =>
    { s with
      hs := List.replicate 28 0 ++ tableBytes nbits w
      vlc := ⟨0, 0, 0, []⟩
      fault := none
      eos := false
      phase := .vlc
      active := .noBlock }

end Sys2Proof.Machine
end

