-- ==== Sys2Proof/Machine/Assembler.lean ====
section
/-! DEFINITION. The spec's assembler syntax and pseudo-instructions (30_encoding.md R105, R106), and the
header layouts written out (R83, R85 to R92). -/

namespace Sys2Proof.Machine

/-- An int field of `n` bytes, two's complement, little-endian (R66); a value outside the field's range is reduced
modulo its size, a DESIGN CHOICE (log 21). -/
def intBytes (n : Nat) (v : Int) : List Byte :=
  leBytes n (v % 2 ^ (8 * n)).toNat

/-- The 766 bytes of a V1 header after its magic, from its signed fields (R83, R84). -/
def v1HeaderBytes (r : RawV1) : List Byte :=
  intBytes 4 r.nRawBytes ++ intBytes 4 r.nPayloadBytes ++ intBytes 4 r.nLiterals ++
  intBytes 4 r.nMatches ++ intBytes 4 r.nLiteralPayloadBytes ++ intBytes 4 r.nLmdPayloadBytes ++
  intBytes 4 r.literalBits ++
  intBytes 2 r.literalState0 ++ intBytes 2 r.literalState1 ++
  intBytes 2 r.literalState2 ++ intBytes 2 r.literalState3 ++
  intBytes 4 r.lmdBits ++
  intBytes 2 r.lState ++ intBytes 2 r.mState ++ intBytes 2 r.dState ++
  r.weights.flatMap (intBytes 2)

/-- `word0` (R86). Here and in `word1` and `word2` a value that does not fit its bits carries into the bits above,
and an offset below -7 is written as -7, a DESIGN CHOICE (log 21). -/
def v2Word0 (h : Header) : Nat :=
  h.nLiterals + h.nLiteralPayloadBytes * 2 ^ 20 + h.nMatches * 2 ^ 40 +
    (h.literalBits + 7).toNat * 2 ^ 60

/-- `word1` (R87). -/
def v2Word1 (h : Header) : Nat :=
  h.literalState.s0 + h.literalState.s1 * 2 ^ 10 + h.literalState.s2 * 2 ^ 20 +
    h.literalState.s3 * 2 ^ 30 + h.nLmdPayloadBytes * 2 ^ 40 + (h.lmdBits + 7).toNat * 2 ^ 60

/-- `word2` (R88). -/
def v2Word2 (h : Header) (headerSize : Nat) : Nat :=
  headerSize + h.lState * 2 ^ 32 + h.mState * 2 ^ 42 + h.dState * 2 ^ 52

/-- The 28 bytes of a V2 prefix after its magic (R85). -/
def v2PrefixBytes (h : Header) (headerSize : Nat) : List Byte :=
  intBytes 4 h.nRawBytes ++ leBytes 8 (v2Word0 h) ++ leBytes 8 (v2Word1 h) ++
    leBytes 8 (v2Word2 h headerSize)

/-- The code form of a frequency weight (R99). -/
def weightForm (w : Nat) : Option Instr :=
  if w = 0 then some .vz0
  else if w = 1 then some .vz1
  else if w = 2 then some .v2
  else if w = 3 then some .v3
  else if w < 8 then some (.v4to7 (BitVec.ofNat 2 (w - 4)))
  else if w < 24 then some (.v8to23 (BitVec.ofNat 4 (w - 8)))
  else if w < 1048 then some (.v24to1047 (BitVec.ofNat 10 (w - 24)))
  else none

/-- Codes packed first to last above the bits already there (R98): the number they make, and how many
bits it has. -/
def packCodes : List Instr → Nat × Nat
  | [] => (0, 0)
  | i :: is =>
    let (v, n) := packCodes is
    (vlcCode i + v * 2 ^ vlcWidth i, vlcWidth i + n)

/-- The blob of a code sequence: zero bits up to the end of the last byte (R98). -/
def vlcBlobBytes (is : List Instr) : List Byte :=
  leBytes (((packCodes is).2 + 7) / 8) (packCodes is).1

/-- One line of the syntax (R105, R106); `.v1` takes its signed fields, `.v2` its fields as a header record. -/
inductive AsmLine where
  | raw (nRaw : Int)
  | lzvn (nRaw nPay : Int)
  | v1 (r : RawV1)
  | v2 (h : Header) (headerSize : Nat)
  | eosBlock
  | bytes (bs : List Byte)
  | smlD (l m d : Nat)
  | medD (l m d : Nat)
  | lrgD (l m d : Nat)
  | preD (l m : Nat)
  | smlL (l : Nat)
  | lrgL (l : Nat)
  | smlM (m : Nat)
  | lrgM (m : Nat)
  | nop
  | eos
  | lit (bs : List Byte)
  | endBlock
  | copy (l m d : Nat)
  deriving DecidableEq, Repr

/-- An instruction assembles when its operands are in its form's ranges and its opcode stays in its
class (R105). -/
def assembleInstr (inRange : Bool) (i : Instr) : Option (List Byte) :=
  if inRange && i.wellFormed then some (encode i) else none

/-- Ranges of the distance forms (R101). -/
def smlDRange (l m d : Nat) : Bool := l ≤ 3 && 3 ≤ m && m ≤ 10 && d ≤ 1535
def medDRange (l m d : Nat) : Bool := l ≤ 3 && 3 ≤ m && m ≤ 34 && d ≤ 16383
def lrgDRange (l m d : Nat) : Bool := l ≤ 3 && 3 ≤ m && m ≤ 10 && d ≤ 65535

def assembleSmlD (l m d : Nat) : Option (List Byte) :=
  assembleInstr (smlDRange l m d) (.smlD (BitVec.ofNat 2 l) (BitVec.ofNat 3 (m - 3)) (BitVec.ofNat 11 d))

def assembleMedD (l m d : Nat) : Option (List Byte) :=
  assembleInstr (medDRange l m d) (.medD (BitVec.ofNat 2 l) (BitVec.ofNat 5 (m - 3)) (BitVec.ofNat 14 d))

def assembleLrgD (l m d : Nat) : Option (List Byte) :=
  assembleInstr (lrgDRange l m d) (.lrgD (BitVec.ofNat 2 l) (BitVec.ofNat 3 (m - 3)) (BitVec.ofNat 16 d))

def assembleSmlL (l : Nat) : Option (List Byte) :=
  assembleInstr (1 ≤ l && l ≤ 15) (.smlL (BitVec.ofNat 4 l))

def assembleLrgL (l : Nat) : Option (List Byte) :=
  assembleInstr (16 ≤ l && l ≤ 271) (.lrgL (BitVec.ofNat 8 (l - 16)))

/-- The bytes of a line; none where it does not assemble (R105, R106; log 20). R105 says nothing of a header field
whose value does not fit its width: such a line assembles here, the value wrapped or carried over, a DESIGN CHOICE
(log 21). -/
def assembleLine : AsmLine → Option (List Byte)
  | .raw nRaw => some (encode .bvxRaw ++ intBytes 4 nRaw)
  | .lzvn nRaw nPay => some (encode .bvxn ++ intBytes 4 nRaw ++ intBytes 4 nPay)
  | .v1 r => some (encode .bvx1 ++ v1HeaderBytes r)
  | .v2 h headerSize => some (encode .bvx2 ++ v2PrefixBytes h headerSize)
  | .eosBlock => some (encode .bvxEnd)
  | .bytes bs => some bs
  | .smlD l m d => assembleSmlD l m d
  | .medD l m d => assembleMedD l m d
  | .lrgD l m d => assembleLrgD l m d
  | .preD l m =>
    assembleInstr (1 ≤ l && l ≤ 3 && 3 ≤ m && m ≤ 10) (.preD (BitVec.ofNat 2 l) (BitVec.ofNat 3 (m - 3)))
  | .smlL l => assembleSmlL l
  | .lrgL l => assembleLrgL l
  | .smlM m => assembleInstr (1 ≤ m && m ≤ 15) (.smlM (BitVec.ofNat 4 m))
  | .lrgM m => assembleInstr (16 ≤ m && m ≤ 271) (.lrgM (BitVec.ofNat 8 (m - 16)))
  | .nop => some (encode (.nop 0x0E))
  | .eos => some (encode .eos)
  | .lit bs =>
    (if bs.length ≤ 15 then assembleSmlL bs.length else assembleLrgL bs.length).map (· ++ bs)
  | .endBlock => some (encode .eos ++ List.replicate 7 0)
  | .copy l m d =>
    if smlDRange l m d then assembleSmlD l m d
    else if medDRange l m d then assembleMedD l m d
    else assembleLrgD l m d

/-- A program: the lines' bytes in order, if every line assembles. -/
def assemble : List AsmLine → Option (List Byte)
  | [] => some []
  | x :: xs =>
    match assembleLine x, assemble xs with
    | some a, some b => some (a ++ b)
    | _, _ => none

end Sys2Proof.Machine
end

