-- ==== Sys2Proof/Machine/BitStream.lean ====
section
/-! DEFINITION. The backward bitstream of 30_encoding.md R95, the content the bit reader reads, and a
reader's run of operations (40_entropy.md R129). -/

namespace Sys2Proof.Machine

/-- The `w`-bit pattern of `v`, most significant bit first. -/
def natBits (w v : Nat) : List Bool :=
  (List.range w).map fun i => v.testBit (w - 1 - i)

/-- `B` of R95: the last byte first, each byte most significant bit first. -/
def backwardBits (buf : List Byte) : List Bool :=
  buf.reverse.flatMap fun b => natBits 8 b.toNat

/-- The stream's content: `B` less its first `-n` bits (R95). -/
def streamContent (buf : List Byte) (n : Int) : List Bool :=
  (backwardBits buf).drop (-n).toNat

/-- The bits a reader has still to give: its valid cache bits, then the bytes below `pos`. -/
def BitReader.pending (buf : List Byte) (br : BitReader) : List Bool :=
  natBits br.cnt br.acc.toNat ++ backwardBits (buf.take br.pos)

/-- R120's invariant: `cnt <= 63`, `acc < 2^cnt`, `pos <= |buf|`. -/
def BitReader.Ok (buf : List Byte) (br : BitReader) : Prop :=
  br.cnt ≤ 63 ∧ br.acc.toNat < 2 ^ br.cnt ∧ br.pos ≤ buf.length

/-- One operation of a reader in use. -/
inductive ReaderOp where
  | fill
  | read (w : Nat)
  deriving DecidableEq, Repr

/-- A run of operations: the fields read, as (width, value), and the reader after them. -/
def BitReader.run (buf : List Byte) :
    List ReaderOp → BitReader → Except Reason (List (Nat × Nat) × BitReader)
  | [], br => .ok ([], br)
  | .fill :: ops, br =>
    match br.fill buf with
    | .error r => .error r
    | .ok br' => BitReader.run buf ops br'
  | .read w :: ops, br =>
    match br.read w with
    | .error r => .error r
    | .ok (v, br') =>
      match BitReader.run buf ops br' with
      | .error r => .error r
      | .ok (fs, br'') => .ok ((w, v) :: fs, br'')

end Sys2Proof.Machine
end

