-- ==== Sys2Proof/Machine/HostCalls.lean ====
section
/-! DEFINITION. The engine step of 45_stream_controller.md R277 over the model's finer step, the host calls
built on it, and construction (R278 to R285). -/

namespace Sys2Proof.Machine

/-! ### The engine step -/

/-- The result of one engine step (R277); a raise is the fourth way it ends. -/
inductive StepResult where
  | byte (b : Byte)
  | eos
  | internal
  | raised (f : FaultRecord)
  deriving DecidableEq, Repr

/-- The result of a step from `s` that answered `s'`: a byte is delivered exactly when `OUT` grew (R63). -/
def resultOf (s s' : State) : StepResult :=
  match s'.fault with
  | some f => .raised f
  | none =>
    if s.out.length < s'.out.length then .byte (s'.out.getLastD 0)
    else if s.eos then .eos
    else .internal

/-- Go on with the model's steps to the engine step's boundary, at most `n` of them (log 17). -/
def finishStep : Nat → State → Host.Outcome State Fault Refusal
  | 0, s => .next s
  | n + 1, s =>
    match s.phase with
    | .idle => .next s
    | .vlc | .lzvnFetch =>
      match step s with
      | .next s' => finishStep n s'
      | o => o

/-- A bound on the model's steps inside one engine step: the frequency codes left and `finishV2`, or
the payload bytes left. -/
def stepBound (s : State) : Nat :=
  (Config.nWeights - s.vlc.weights.length) + (s.lzvn.vp.length - s.lzvn.vpos) + 2

/-- `step()` (R277): one step of the model, and the rest of a V2 header's codes or of a run of `nop`
opcodes, which R182 and R241 put inside one engine step (log 1). -/
def engineStep (s : State) : Host.Outcome State Fault Refusal :=
  match step s with
  | .next s' => finishStep (stepBound s') s'
  | o => o

/-! ### Termination (R281) -/

/-- The work left of the live block, in engine steps that deliver no byte. -/
def blockWork (s : State) : Nat :=
  (s.lzvn.vp.length - s.lzvn.vpos) +
  match s.phase with
  | .vlc => s.hdr.nMatches + (Config.nWeights - s.vlc.weights.length) + 5
  | .idle | .lzvnFetch => s.lzfse.remaining + (if s.active = .noBlock then 0 else 1) + 1

/-- R281's measure: source bytes left, then the live block's work. -/
def workBound (s : State) : Nat :=
  2 ^ 32 * (s.src.length - s.spos) + blockWork s

/-! ### Host calls -/

/-- What a host call answers. -/
inductive Answer where
  /-- A byte, 0 to 255 (R278). -/
  | byte (b : Byte)
  /-- A count (R279). -/
  | count (k : Nat)
  /-- EndOfStream, `-1` as an integer (R278). -/
  | endOfStream
  /-- The call raises a fault (R302, R303). -/
  | raised (f : FaultRecord)
  /-- No answer: a step stopped on a value that does not exist, or the bound of R281 was passed. No
  run reaches it (log 17). -/
  | noAnswer
  deriving DecidableEq, Repr

/-- R278's loop, at most `n` engine steps. -/
def readLoop : Nat → State → Answer × State
  | 0, s => (.noAnswer, s)
  | n + 1, s =>
    match engineStep s with
    | .fault (.recorded f) => (.raised f, s)
    | .fault .unwrittenRing => (.noAnswer, s)
    | .fault .unwrittenLiteral => (.noAnswer, s)
    | .fault .payloadEnd => (.noAnswer, s)
    | .refused _ => (.noAnswer, s)
    | .next s' =>
      match resultOf s s' with
      | .byte b => (.byte b, s')
      | .eos => (.endOfStream, s')
      | .raised f => (.raised f, s')
      | .internal => readLoop n s'

/-- `read()` (R278). -/
def read (s : State) : Answer × State :=
  readLoop (workBound s + 1) s

/-- The loop of R279 with `left` bytes still wanted, `k` already stored, the next one at `pos`. -/
def bulkLoop : Nat → Nat → Nat → List Byte → State → Answer × List Byte × State
  | 0, _, k, buf, s => (.count k, buf, s)
  | left + 1, pos, k, buf, s =>
    match read s with
    | (.byte b, s') => bulkLoop left (pos + 1) (k + 1) (buf.set pos b) s'
    | (.endOfStream, s') => (if k = 0 then .endOfStream else .count k, buf, s')
    | (a, s') => (a, buf, s')

/-- Arguments out of range (R285). -/
def badReadArgs (buf : List Byte) (off len : Int) : Bool :=
  off < 0 || len < 0 || (buf.length : Int) < off + len

/-- `read(buf, off, len)` with the draw `c` (R279). -/
def bulkReadWith (c : Nat) (buf : List Byte) (off len : Int) (s : State) :
    Answer × List Byte × State :=
  match s.fault with
  | some f => (.raised f, buf, s)
  | none =>
    if badReadArgs buf off len then (.raised ⟨.usage, .u02⟩, buf, raise s .u02)
    else if len = 0 then (.count 0, buf, s)
    else bulkLoop c off.toNat 0 buf s

/-- The draw of the next bulk read: any count from 1 to `len` (R8; log 11). -/
def bulkChunk (len : Nat) (s : State) : Nat :=
  1 + Config.bulkDraw s.draws % len

/-- Does a bulk read reach its draw (R279)? -/
def takesDraw (buf : List Byte) (off len : Int) (s : State) : Bool :=
  !(faulted s || badReadArgs buf off len || len == 0)

/-- `read(buf, off, len)` (R279), its draw taken from the free value (log 11). -/
def bulkRead (buf : List Byte) (off len : Int) (s : State) : Answer × List Byte × State :=
  bulkReadWith (bulkChunk len.toNat s) buf off len
    { s with draws := s.draws + (if takesDraw buf off len s then 1 else 0) }

/-- What `available()` answers (R280). -/
inductive Available where
  | dataPending
  | exhausted
  deriving DecidableEq, Repr

/-- `available()` (R280): no step, no state change. -/
def available (s : State) : Except FaultRecord Available :=
  match s.fault with
  | some f => .error f
  | none => .ok (if exhausted s then .exhausted else .dataPending)

/-- Is `n` a power of two (R6, R284; 90_conflicts.md C5)? -/
def isPowerOfTwo (n : Nat) : Bool :=
  n == 2 ^ Nat.log2 n

/-- `Engine(S, V2_TABLE_CAPACITY, source)` (R284): U01, or the reset state of R330. -/
def construct (size capacity : Nat) (source : List Byte) : Except FaultRecord State :=
  if !isPowerOfTwo size || size < 2 || capacity < Config.minTableCapacity then
    .error ⟨Reason.u01.cls, .u01⟩
  else .ok (State.initial size capacity source)

/-! ### Observation (R283) -/

/-- Why a run has ended, if it has. -/
inductive EndReason where
  | running
  | endOfStream
  | faulted (f : FaultRecord)
  deriving DecidableEq, Repr

/-- The observation of a run: `OUT`, the source bytes consumed, the end reason. -/
structure Observation where
  out : List Byte
  spos : Nat
  reason : EndReason
  deriving DecidableEq, Repr

/-- R283. -/
def observe (s : State) : Observation where
  out := s.out
  spos := s.spos
  reason :=
    match s.fault with
    | some f => .faulted f
    | none => if s.eos then .endOfStream else .running

end Sys2Proof.Machine
end

