-- ==== Sys2Proof/Safety.lean ====
section
/-! DEFINITION. The invariants every step keeps, in the spec's own bounds, and what a safe outcome is. -/

namespace Sys2Proof.Machine

/-- The construction arguments are legal (R6, R7, R284). -/
def ParametersOk (s : State) : Prop :=
  isPowerOfTwo s.ringSize = true ∧ 2 ≤ s.ringSize ∧ Config.minTableCapacity ≤ s.tableCapacity

/-- The byte memories are in canonical form and inside their spaces (R26, R27, R32, R60). -/
def MemoryOk (s : State) : Prop :=
  s.mb.wf = true ∧ (∀ c ∈ s.mb, c.1 < s.ringSize) ∧ s.mcur < s.ringSize ∧
  s.lit.wf = true ∧ (∀ c ∈ s.lit, c.1 < Config.literalBufferSize)

/-- The ring retention law with the cursor's and the counter's meaning (R25, R27, R164). -/
def RingOk (s : State) : Prop :=
  s.outTotal = s.out.length ∧ s.mcur = s.outTotal % s.ringSize ∧
  ∀ d, 1 ≤ d → d ≤ s.outTotal → d ≤ s.ringSize → matchByte d s = s.out[s.outTotal - d]?

/-- What the fetch-time checks leave for the bytes still to emit (R28, R165, R216, R221, R224, R254),
and where the model stands inside an engine step (log 1). -/
structure BlockOk (s : State) : Prop where
  counted : s.blk.out ≤ s.blk.nRaw
  room : s.active ≠ .noBlock → s.blk.out + s.L + s.M ≤ s.blk.nRaw
  distance : s.active ≠ .noBlock → 0 < s.M →
    1 ≤ s.D ∧ s.D ≤ s.outTotal + s.L ∧ s.D ≤ s.ringSize
  literals : s.active.isLzfse = true →
    s.lzfse.litPos + s.L ≤ s.lzfse.nLiterals ∧ ∀ i < s.lzfse.nLiterals, (s.lit.read i).isSome = true
  payload : s.active = .lzvn → s.lzvn.vpos + s.L ≤ s.lzvn.vp.length
  rawPayload : s.active = .raw → s.raw.rpos + s.L = s.raw.rp.length ∧ s.M = 0
  fetching : s.phase = .lzvnFetch → s.active = .lzvn ∧ s.L = 0 ∧ s.M = 0
  parsing : s.phase = .vlc → s.active = .noBlock

/-- A written entry of an `n`-state table leads back into the table (R134). -/
def EntryOk (n : Nat) (e : Entry) : Prop :=
  e.nBits ≤ Nat.log2 n ∧ e.nBase + 2 ^ e.nBits ≤ n

/-- A written entry of a value table: R134, a symbol of its stream, and that symbol's value fields
(R35 to R37, R137). -/
def ValueEntryOk (x : Stream) (n : Nat) (e : ValueEntry) : Prop :=
  EntryOk n e.toEntry ∧ e.symbol.toNat < x.symbols ∧
  e.vBits = x.extra e.symbol.toNat ∧ e.vBase = x.base e.symbol.toNat

/-- The four tables (R35, R36). -/
structure TablesOk (z : Lzfse) : Prop where
  tlLength : z.tl.length = Config.nStatesL
  tmLength : z.tm.length = Config.nStatesM
  tdLength : z.td.length = Config.nStatesD
  tlitLength : z.tlit.length = Config.nStatesLit
  tlEntries : ∀ e, some e ∈ z.tl → ValueEntryOk .L Config.nStatesL e
  tmEntries : ∀ e, some e ∈ z.tm → ValueEntryOk .M Config.nStatesM e
  tdEntries : ∀ e, some e ∈ z.td → ValueEntryOk .D Config.nStatesD e
  tlitEntries : ∀ e, some e ∈ z.tlit → EntryOk Config.nStatesLit e

/-- The two bit readers over their payloads (R39, R40, R120). -/
def ReadersOk (z : Lzfse) : Prop :=
  z.brLmd.Ok z.lmdp ∧ z.brLit.Ok z.lp

/-- The header record's ranges (R44, R189). -/
structure HeaderOk (h : Header) : Prop where
  nRawBytes : h.nRawBytes < 2 ^ 31
  nPayloadBytes : h.nPayloadBytes < 2 ^ 31
  nLiterals : h.nLiterals < 2 ^ 31
  nMatches : h.nMatches < 2 ^ 31
  nLiteralPayloadBytes : h.nLiteralPayloadBytes < 2 ^ 31
  nLmdPayloadBytes : h.nLmdPayloadBytes < 2 ^ 31
  literalBits : -7 ≤ h.literalBits ∧ h.literalBits ≤ 0
  lmdBits : -7 ≤ h.lmdBits ∧ h.lmdBits ≤ 0
  literalState : h.literalState.s0 < 2 ^ 15 ∧ h.literalState.s1 < 2 ^ 15 ∧
    h.literalState.s2 < 2 ^ 15 ∧ h.literalState.s3 < 2 ^ 15
  lmdState : h.lState < 2 ^ 15 ∧ h.mState < 2 ^ 15 ∧ h.dState < 2 ^ 15
  weightCount : h.weights.length = Config.nWeights
  weights : ∀ w ∈ h.weights, w < 2 ^ 15

/-- `vlcDecode`'s registers between two codes (R182): at most 32 bits held; while blob bytes remain, at
least 11 bits are left after a code (R185). -/
structure VlcOk (s : State) : Prop where
  held : s.vlc.nb ≤ 32
  acc : s.vlc.acc < 2 ^ s.vlc.nb
  count : s.vlc.weights.length ≤ Config.nWeights
  values : ∀ w ∈ s.vlc.weights, w ≤ 1047
  cursor : s.phase = .vlc → s.vlc.p ≤ (vlcBlob s).length
  ahead : s.phase = .vlc → s.vlc.weights ≠ [] → s.vlc.p < (vlcBlob s).length → 11 ≤ s.vlc.nb

/-- Every register is inside the width the spec gives it (R12, R23, R28 to R43). -/
structure RangesOk (s : State) : Prop where
  spos : s.spos ≤ s.src.length
  nRaw : s.blk.nRaw < 2 ^ 31
  L : s.L < 2 ^ 31
  M : s.M ≤ 2359
  D : s.D ≤ 262139
  nLiterals : s.lzfse.nLiterals ≤ Config.literalsPerBlock ∧ s.lzfse.nLiterals % 4 = 0
  litPos : s.lzfse.litPos ≤ s.lzfse.nLiterals
  remaining : s.lzfse.remaining < 2 ^ 31
  lmdStates : s.lzfse.sL < 2 ^ 16 ∧ s.lzfse.sM < 2 ^ 16 ∧ s.lzfse.sD < 2 ^ 16
  lanes : s.lzfse.lanes.s0 < 2 ^ 16 ∧ s.lzfse.lanes.s1 < 2 ^ 16 ∧
    s.lzfse.lanes.s2 < 2 ^ 16 ∧ s.lzfse.lanes.s3 < 2 ^ 16
  payloads : s.lzfse.lp.length < 2 ^ 31 ∧ s.lzfse.lmdp.length < 2 ^ 31 ∧
    s.lzvn.vp.length < 2 ^ 31 ∧ s.raw.rp.length < 2 ^ 31
  vpos : s.lzvn.vpos ≤ s.lzvn.vp.length
  rpos : s.raw.rpos ≤ s.raw.rp.length
  hdr : HeaderOk s.hdr

/-- The model's invariant. -/
structure Inv (s : State) : Prop where
  parameters : ParametersOk s
  memory : MemoryOk s
  ring : RingOk s
  block : BlockOk s
  tables : TablesOk s.lzfse
  readers : ReadersOk s.lzfse
  vlc : VlcOk s
  ranges : RangesOk s

/-! ### Terms the statements use -/

/-- The next `n` source bytes (R61). -/
def sourceBytes (n : Nat) (s : State) : List Byte :=
  (s.src.drop s.spos).take n

/-- At an engine step's boundary, with neither a fault nor the end of stream recorded (R277). -/
def Ready (s : State) : Prop :=
  s.fault = none ∧ s.eos = false ∧ s.phase = .idle

/-- Fault entry from `s` with reason `r` and the source position `pos` (R302, R305): a next state with
the record, and `OUT` as it was. The other registers are unspecified (R302; log 7). -/
def FaultTaken (s : State) (pos : Nat) (r : Reason) (o : Host.Outcome State Fault Refusal) : Prop :=
  ∃ t, o = .next t ∧ t.fault = some ⟨r.cls, r⟩ ∧ t.out = s.out ∧ t.spos = pos

/-- The distance after a triple's D update (R215). -/
def heldAfter (newD : Nat) (s : State) : Nat :=
  if newD = 0 then s.D else newD

/-- R216's second check fails for a match of `m` bytes after `l` literals. -/
def BadDistance (l m newD : Nat) (s : State) : Prop :=
  0 < m ∧ (heldAfter newD s = 0 ∨ s.outTotal + l < heldAfter newD s ∨ s.ringSize < heldAfter newD s)

/-- `x` is the next operation of the computation that answers `out`: a fault of `x` is `out`'s (R302, R306), and
otherwise `k` says of `x`'s value how `out` goes on. -/
def RunsNext {α β : Type} (x : Except Reason α) (out : Except Reason β) (k : α → Prop) : Prop :=
  (∀ r, x = .error r → out = .error r) ∧ ∀ a, x = .ok a → k a

/-- What an LZVN opcode of `n` bytes with the triple `(l, m, newD)` does in a live LZVN block: the faults
in the order of R306's row "LZVN fetch", and otherwise the next state, every other register kept
(R213, R216, R241, R254 c). -/
def LzvnOpcodeDoes (i : Instr) (n l m newD : Nat) : Prop :=
  ∀ s : State, s.active = .lzvn →
    (s.lzvn.vp.length < s.lzvn.vpos + n + l → FaultTaken s s.spos .f20 (exec i s)) ∧
    (s.lzvn.vpos + n + l ≤ s.lzvn.vp.length → s.blk.nRaw < s.blk.out + l + m →
      FaultTaken s s.spos .f18 (exec i s)) ∧
    (s.lzvn.vpos + n + l ≤ s.lzvn.vp.length → s.blk.out + l + m ≤ s.blk.nRaw →
      BadDistance l m newD s → FaultTaken s s.spos .f17 (exec i s)) ∧
    (s.lzvn.vpos + n + l ≤ s.lzvn.vp.length → s.blk.out + l + m ≤ s.blk.nRaw →
      ¬ BadDistance l m newD s →
      exec i s = .next
        { s with
          lzvn := { s.lzvn with vpos := s.lzvn.vpos + n }
          L := l
          M := m
          D := heldAfter newD s
          phase := .idle })

/-- The literals an LZVN instruction announces: its `L` (R101, R103). -/
def announcedLiterals : Instr → Nat
  | .smlD l _ _ => l.toNat
  | .medD l _ _ => l.toNat
  | .lrgD l _ _ => l.toNat
  | .preD l _ => l.toNat
  | .smlL l => l.toNat
  | .lrgL l => l.toNat + 16
  | _ => 0

/-- What a frequency code of `width` bits and weight `value` does (R182, R184): F04, or the next state,
every other register kept. -/
def VlcCodeDoes (i : Instr) (width value : Nat) : Prop :=
  ∀ s : State,
    (s.vlc.nb < width → FaultTaken s s.spos .f04 (exec i s)) ∧
    (width ≤ s.vlc.nb →
      exec i s = .next
        { s with
          vlc :=
            { acc := s.vlc.acc / 2 ^ width
              nb := s.vlc.nb - width
              p := s.vlc.p
              weights := s.vlc.weights ++ [value] } })

/-- All 256 opcode bytes. -/
def allOpcodes : List Byte :=
  (List.range 256).map (BitVec.ofNat 8)

/-- How many opcodes a class has (R102). -/
def classCount (c : LzvnClass) : Nat :=
  allOpcodes.countP fun op => lzvnClass op == c

/-- A row of R102's map that starts and ends its halves as rows 0 to 6, 8, 9 and C do. -/
def classRow (x y : LzvnClass) : List LzvnClass :=
  List.replicate 6 .smlD ++ [x, .lrgD] ++ List.replicate 6 .smlD ++ [y, .lrgD]

/-- R102's map of all 256 opcodes, row by row. -/
def specClassMap : List LzvnClass :=
  classRow .eos .nop ++ classRow .nop .udef ++ classRow .udef .udef ++ classRow .udef .udef ++
  classRow .preD .preD ++ classRow .preD .preD ++ classRow .preD .preD ++ List.replicate 16 .udef ++
  classRow .preD .preD ++ classRow .preD .preD ++ List.replicate 16 .medD ++ List.replicate 16 .medD ++
  classRow .preD .preD ++ List.replicate 16 .udef ++ (.lrgL :: List.replicate 15 .smlL) ++
  (.lrgM :: List.replicate 15 .smlM)

/-- The next step fetches an LZVN opcode: at an engine step's boundary in an LZVN block with nothing left to
emit, or after a `nop` (R213, R241). -/
def FetchesOpcode (s : State) : Prop :=
  s.fault = none ∧ s.eos = false ∧
  (s.phase = .lzvnFetch ∨ s.phase = .idle ∧ s.active = .lzvn ∧ s.L = 0 ∧ s.M = 0)

/-- A step that ends safely: a next state, or the recorded fault of a faulted engine raised again (R303).
The other stops are reads of values that do not exist (R15). -/
def safeOutcome : Host.Outcome State Fault Refusal → Bool
  | .next _ => true
  | .fault (.recorded _) => true
  | .fault .unwrittenRing => false
  | .fault .unwrittenLiteral => false
  | .fault .payloadEnd => false
  | .refused _ => false

end Sys2Proof.Machine
end

