-- ==== Sys2Proof/Certificates/Slice0/Obligations.lean ====
section
/-! DEFINITION. The statements for the provers, from the numbered rules of spec/. Each docstring names the
rules; OBLIGATIONS.json lists them. -/

open Sys2Proof Sys2Proof.Machine

/-! ### Encoding -/

/-- Decoding an encoded well-formed instruction gives it back, whatever bytes follow (R81, R99, R101,
R102). -/
def Obligations.DecodeEncodeAgree : Prop :=
  ∀ (i : Instr) (rest : List Byte), i.wellFormed = true → decode i.level (encode i ++ rest) = .ok i

/-- What a byte-level decoder accepts is well formed, of its level, and encodes back to the bytes it was
read from (R81, R101 to R103). -/
def Obligations.EncodeDecodeAgree : Prop :=
  ∀ (lvl : Level) (bs : List Byte) (i : Instr), lvl ≠ .vlc → decode lvl bs = .ok i →
    i.level = lvl ∧ i.wellFormed = true ∧ encode i = bs.take (encodedLength i)

/-- A few words of the spec's encodings, one and more per family (R81, R99, R101): a sanity check. -/
def Obligations.SpecWordsDecode : Prop :=
  decode .block [0x62, 0x76, 0x78, 0x31] = .ok .bvx1 ∧
  decode .block [0x62, 0x76, 0x78, 0x2D] = .ok .bvxRaw ∧
  decode .block [0x62, 0x76, 0x78, 0x33] = .error .badMagic ∧
  decode .lzvn [0x48, 0x10, 0x41] = .ok (.smlD 1 1 16) ∧
  decode .lzvn [0xA1, 0x0D, 0x01] = .ok (.medD 0 5 67) ∧
  decode .lzvn [0x0F, 0x34, 0x12] = .ok (.lrgD 0 1 0x1234) ∧
  decode .lzvn [0x4E] = .ok (.preD 1 1) ∧
  decode .lzvn [0x06] = .ok .eos ∧
  decode .vlc [0x1B] = .ok (.v4to7 3) ∧
  decode .vlc [0xF7] = .ok (.v8to23 15) ∧
  decode .vlc [0xFF, 0x3F] = .ok (.v24to1047 1023)

/-- The LZVN opcode map is R102's, row by row; its class counts; opcode 6 alone is `eos`. -/
def Obligations.LzvnClassMap : Prop :=
  allOpcodes.map lzvnClass = specClassMap ∧
  classCount .smlD = 120 ∧ classCount .udef = 37 ∧ classCount .medD = 32 ∧ classCount .lrgD = 20 ∧
  classCount .smlL = 15 ∧ classCount .smlM = 15 ∧ classCount .preD = 12 ∧ classCount .nop = 2 ∧
  classCount .eos = 1 ∧ classCount .lrgL = 1 ∧ classCount .lrgM = 1 ∧
  ∀ op : Byte, lzvnClass op = .eos ↔ op = 0x06

/-! ### The step -/

/-- A step runs the instruction its level's decoder reads: a magic with `spos` moved past it and the four
bytes in the scratch; an opcode at `vpos`; a frequency code after the refill (R182, R241, R270, R277). -/
def Obligations.StepRunsDecodedInstruction : Prop :=
  ∀ (s : State) (i : Instr), s.fault = none → s.eos = false →
    (s.phase = .idle → s.active = .noBlock → s.spos + 4 ≤ s.src.length →
      decodeBlock (sourceBytes 4 s) = .ok i →
      step s = exec i { s with spos := s.spos + 4, hs := sourceBytes 4 s }) ∧
    (s.phase = .idle → s.active = .lzvn → s.L = 0 → s.M = 0 →
      decodeLzvn (s.lzvn.vp.drop s.lzvn.vpos) = .ok i → step s = exec i s) ∧
    (s.phase = .lzvnFetch → decodeLzvn (s.lzvn.vp.drop s.lzvn.vpos) = .ok i → step s = exec i s) ∧
    (s.phase = .vlc → s.vlc.weights.length < 360 →
      decodeVlc (vlcWindow (Vlc.refill (vlcBlob s) 4 s.vlc)) = i →
      step s = exec i { s with vlc := Vlc.refill (vlcBlob s) 4 s.vlc })

/-- Faults are sticky: a faulted engine takes no step, and every call raises the recorded fault with no
state changed (R303). -/
def Obligations.FaultedEngineTakesNoStep : Prop :=
  ∀ (s : State) (f : FaultRecord), s.fault = some f →
    step s = .fault (.recorded f) ∧ read s = (.raised f, s) ∧ available s = .error f ∧
    ∀ (buf : List Byte) (off len : Int), bulkRead buf off len s = (.raised f, buf, s)

/-- After end of stream every call answers so and nothing changes (log 16); a zero-length bulk read answers 0;
before it `available()` answers data-pending (R21, R275, R279, R280). -/
def Obligations.EndOfStreamIsFinal : Prop :=
  (∀ s : State, s.fault = none → s.eos = true → s.phase = .idle →
    step s = .next s ∧ read s = (.endOfStream, s) ∧ available s = .ok .exhausted ∧
    ∀ (c : Nat) (buf : List Byte) (off len : Int), 1 ≤ c → badReadArgs buf off len = false →
      bulkReadWith c buf off len s = (if len = 0 then .count 0 else .endOfStream, buf, s)) ∧
  ∀ s : State, s.fault = none → s.eos = false → available s = .ok .dataPending

/-- A source that ends inside a magic faults T01 with `spos` unchanged; any other four bytes fault F01
with `spos` past them (R61, R270, R276). -/
def Obligations.MagicFaults : Prop :=
  ∀ s : State, Ready s → s.active = .noBlock →
    (s.src.length < s.spos + 4 → FaultTaken s s.spos .t01 (step s)) ∧
    (s.spos + 4 ≤ s.src.length →
      (∀ i, leNat (sourceBytes 4 s) ≠ leNat (encode i) ∨ i.level ≠ .block) →
      FaultTaken s (s.spos + 4) .f01 (step s))

/-! ### Block instructions -/

/-- `bvx1` is `parseV1` on 766 bytes, then `initLZFSE` and `active <- V1`; its parser's faults keep `spos`
(T01) or leave it past the header; after a header that passes, the rest is the block init, its faults included
(R175, R271). -/
def Obligations.Bvx1ParsesAndStarts : Prop :=
  ∀ s : State,
    (s.src.length < s.spos + 766 → FaultTaken s s.spos .t01 (exec .bvx1 s)) ∧
    (∀ r, s.spos + 766 ≤ s.src.length → parseV1 (sourceBytes 766 s) = .error r →
      FaultTaken s (s.spos + 766) r (exec .bvx1 s)) ∧
    (∀ h, s.spos + 766 ≤ s.src.length → parseV1 (sourceBytes 766 s) = .ok h →
      exec .bvx1 s =
        initLzfse .v1 { s with spos := s.spos + 766, hs := sourceBytes 766 s, hdr := h }) ∧
    (∀ (h : Header) (tabs : TableSet) (bytes : List Byte) (lanes : Lanes) (brLit brLmd : BitReader),
      let lp := (s.src.drop (s.spos + 766)).take h.nLiteralPayloadBytes
      let lmdp := (s.src.drop (s.spos + 766 + h.nLiteralPayloadBytes)).take h.nLmdPayloadBytes
      s.spos + 766 + h.nLiteralPayloadBytes + h.nLmdPayloadBytes ≤ s.src.length →
      parseV1 (sourceBytes 766 s) = .ok h →
      h.nLiterals ≤ 40000 → h.nLiterals % 4 = 0 →
      buildTables h.weights = .ok tabs →
      literalDecode tabs.tlit lp h.literalBits h.nLiterals h.literalState = .ok (bytes, lanes, brLit) →
      BitReader.init lmdp h.lmdBits = .ok brLmd →
      exec .bvx1 s = .next
        { s with
          spos := s.spos + 766 + h.nLiteralPayloadBytes + h.nLmdPayloadBytes
          hs := sourceBytes 766 s
          hdr := h
          lit := Memory.ofBytes 0 bytes
          lzfse :=
            { nLiterals := h.nLiterals, litPos := 0, remaining := h.nMatches
              tl := tabs.tl, tm := tabs.tm, td := tabs.td, tlit := tabs.tlit
              sL := h.lState, sM := h.mState, sD := h.dState
              lanes := lanes, brLmd := brLmd, brLit := brLit, lp := lp, lmdp := lmdp }
          L := 0
          M := 0
          D := 0
          blk := ⟨h.nRawBytes, 0⟩
          active := .v1
          phase := .idle })

/-- `bvx2`: the 28-byte header part and the blob are read and checked; with a blob the frequency codes
follow, without one the block starts with zero weights (R179 to R181, R272). -/
def Obligations.Bvx2ParsesAndStarts : Prop :=
  ∀ s : State,
    (s.src.length < s.spos + 28 → FaultTaken s s.spos .t01 (exec .bvx2 s)) ∧
    (∀ r, s.spos + 28 ≤ s.src.length →
      parseV2Prefix s.tableCapacity (sourceBytes 28 s) = .error r →
      FaultTaken s (s.spos + 28) r (exec .bvx2 s)) ∧
    (∀ (h : Header) (n : Nat), s.spos + 28 ≤ s.src.length →
      parseV2Prefix s.tableCapacity (sourceBytes 28 s) = .ok (h, n) →
      (s.src.length < s.spos + 28 + n → FaultTaken s (s.spos + 28) .t01 (exec .bvx2 s)) ∧
      (s.spos + 28 + n ≤ s.src.length → 0 < n →
        exec .bvx2 s = .next
          { s with
            spos := s.spos + 28 + n
            hs := sourceBytes (28 + n) s
            hdr := h
            vlc := { acc := 0, nb := 0, p := 0, weights := [] }
            phase := .vlc }) ∧
      (n = 0 →
        h.weights = List.replicate 360 0 ∧
        exec .bvx2 s = initLzfse .v2 { s with spos := s.spos + 28, hs := sourceBytes 28 s, hdr := h }))

/-- `bvxn`: `parseLZVN`, `initLZVN` and `active <- LZVN`, with the faults T01, F02, T01 (R187, R240,
R273). That the fields of `H` an LZVN header does not have keep their values is the model's choice (log 15). -/
def Obligations.BvxnStartsBlock : Prop :=
  ∀ s : State,
    (s.src.length < s.spos + 8 → FaultTaken s s.spos .t01 (exec .bvxn s)) ∧
    (∀ nRaw nPay : Int, s.spos + 8 ≤ s.src.length →
      nRaw = sext 32 (memRead (sourceBytes 8 s) 0 4) → nPay = sext 32 (memRead (sourceBytes 8 s) 4 4) →
      (nRaw < 0 ∨ nPay < 0 → FaultTaken s (s.spos + 8) .f02 (exec .bvxn s)) ∧
      (0 ≤ nRaw → 0 ≤ nPay → (s.src.length : Int) < s.spos + 8 + nPay →
        FaultTaken s (s.spos + 8) .t01 (exec .bvxn s)) ∧
      (0 ≤ nRaw → 0 ≤ nPay → (s.spos : Int) + 8 + nPay ≤ s.src.length →
        exec .bvxn s = .next
          { s with
            spos := s.spos + 8 + nPay.toNat
            hs := sourceBytes 8 s
            hdr := { s.hdr with nRawBytes := nRaw.toNat, nPayloadBytes := nPay.toNat }
            lzvn := { vp := (s.src.drop (s.spos + 8)).take nPay.toNat, vpos := 0 }
            L := 0
            M := 0
            D := 0
            blk := ⟨nRaw.toNat, 0⟩
            active := .lzvn
            phase := .idle }))

/-- `bvx-`: `parseRaw`, `initRaw` and `active <- RAW`, with the faults T01, F02, T01 (R188, R274; the
init part of R224). That the fields of `H` a raw header does not have keep their values is the model's choice
(log 15). -/
def Obligations.BvxRawStartsBlock : Prop :=
  ∀ s : State,
    (s.src.length < s.spos + 4 → FaultTaken s s.spos .t01 (exec .bvxRaw s)) ∧
    (∀ nRaw : Int, s.spos + 4 ≤ s.src.length → nRaw = sext 32 (memRead (sourceBytes 4 s) 0 4) →
      (nRaw < 0 → FaultTaken s (s.spos + 4) .f02 (exec .bvxRaw s)) ∧
      (0 ≤ nRaw → (s.src.length : Int) < s.spos + 4 + nRaw →
        FaultTaken s (s.spos + 4) .t01 (exec .bvxRaw s)) ∧
      (0 ≤ nRaw → (s.spos : Int) + 4 + nRaw ≤ s.src.length →
        exec .bvxRaw s = .next
          { s with
            spos := s.spos + 4 + nRaw.toNat
            hs := sourceBytes 4 s
            hdr := { s.hdr with nRawBytes := nRaw.toNat }
            raw := { rp := (s.src.drop (s.spos + 4)).take nRaw.toNat, rpos := 0 }
            L := nRaw.toNat
            M := 0
            D := 0
            blk := ⟨nRaw.toNat, 0⟩
            active := .raw
            phase := .idle }))

/-- `bvx$`: `eos <- 1` and nothing else is read; at a boundary the step reads the four magic bytes, and
every later read answers EndOfStream without moving `spos` (R275). -/
def Obligations.BvxEndSetsEos : Prop :=
  ∀ s : State,
    exec .bvxEnd s = .next { s with eos := true } ∧
    (Ready s → s.active = .noBlock → sourceBytes 4 s = [0x62, 0x76, 0x78, 0x24] →
      ∃ t, step s = .next t ∧ t.eos = true ∧ t.spos = s.spos + 4 ∧ t.out = s.out ∧
        read t = (.endOfStream, t))

/-- `initLZFSE`: with a legal literal count, buildable tables and readable payloads the block is live with
every LZFSE register loaded; otherwise the first failing check faults, in R217's order, with `spos`
where the reads so far left it (R217, R218, R222). `literalDecode` initialises its reader, and each quad is one
fill and the lanes 0 to 3 in order, lane `j` of quad `q` giving `LIT[4q+j]` (R140). -/
def Obligations.LzfseInitInOrder : Prop :=
  (∀ (kind : BlockKind) (s : State),
    let n1 := s.hdr.nLiteralPayloadBytes
    let n2 := s.hdr.nLmdPayloadBytes
    let lp := (s.src.drop s.spos).take n1
    let lmdp := (s.src.drop (s.spos + n1)).take n2
    (40000 < s.hdr.nLiterals ∨ s.hdr.nLiterals % 4 ≠ 0 →
      FaultTaken s s.spos .f15 (initLzfse kind s)) ∧
    (s.hdr.nLiterals ≤ 40000 → s.hdr.nLiterals % 4 = 0 →
      (∀ r, buildTables s.hdr.weights = .error r → FaultTaken s s.spos r (initLzfse kind s)) ∧
      (∀ tabs, buildTables s.hdr.weights = .ok tabs →
        (s.src.length < s.spos + n1 → FaultTaken s s.spos .t01 (initLzfse kind s)) ∧
        (s.spos + n1 ≤ s.src.length → s.src.length < s.spos + n1 + n2 →
          FaultTaken s (s.spos + n1) .t01 (initLzfse kind s)) ∧
        (s.spos + n1 + n2 ≤ s.src.length →
          (∀ r, literalDecode tabs.tlit lp s.hdr.literalBits s.hdr.nLiterals s.hdr.literalState =
              .error r → FaultTaken s (s.spos + n1 + n2) r (initLzfse kind s)) ∧
          (∀ bytes lanes brLit,
            literalDecode tabs.tlit lp s.hdr.literalBits s.hdr.nLiterals s.hdr.literalState =
              .ok (bytes, lanes, brLit) →
            (∀ r, BitReader.init lmdp s.hdr.lmdBits = .error r →
              FaultTaken s (s.spos + n1 + n2) r (initLzfse kind s)) ∧
            (∀ brLmd, BitReader.init lmdp s.hdr.lmdBits = .ok brLmd →
              ∃ t, initLzfse kind s = .next t ∧ t.active = kind ∧ t.phase = .idle ∧
                t.spos = s.spos + n1 + n2 ∧ t.L = 0 ∧ t.M = 0 ∧ t.D = 0 ∧
                t.blk = ⟨s.hdr.nRawBytes, 0⟩ ∧ t.out = s.out ∧ t.mb = s.mb ∧ t.mcur = s.mcur ∧
                (∀ a, t.lit.read a = bytes[a]?) ∧ bytes.length = s.hdr.nLiterals ∧
                t.lzfse.remaining = s.hdr.nMatches ∧ t.lzfse.litPos = 0 ∧
                t.lzfse.nLiterals = s.hdr.nLiterals ∧ t.lzfse.lanes = lanes ∧
                t.lzfse.brLit = brLit ∧
                t.lzfse.tl = tabs.tl ∧ t.lzfse.tm = tabs.tm ∧ t.lzfse.td = tabs.td ∧
                t.lzfse.tlit = tabs.tlit ∧ t.lzfse.lp = lp ∧ t.lzfse.lmdp = lmdp ∧
                t.lzfse.brLmd = brLmd ∧ t.lzfse.sL = s.hdr.lState ∧ t.lzfse.sM = s.hdr.mState ∧
                t.lzfse.sD = s.hdr.dState)))))) ∧
  ∀ (tlit : List (Option Entry)) (lp : List Byte) (bits : Int) (z : Lanes),
    RunsNext (BitReader.init lp bits) (literalDecode tlit lp bits 0 z) (fun br =>
      literalDecode tlit lp bits 0 z = .ok ([], z, br)) ∧
    ∀ q : Nat,
      RunsNext (literalDecode tlit lp bits (4 * q) z) (literalDecode tlit lp bits (4 * (q + 1)) z)
        fun (bytes, z', br) => bytes.length = 4 * q ∧
      RunsNext (br.fill lp) (literalDecode tlit lp bits (4 * (q + 1)) z) fun b =>
      RunsNext (transition 1024 tlit z'.s0 b) (literalDecode tlit lp bits (4 * (q + 1)) z)
        fun (e0, t0, b0) =>
      RunsNext (transition 1024 tlit z'.s1 b0) (literalDecode tlit lp bits (4 * (q + 1)) z)
        fun (e1, t1, b1) =>
      RunsNext (transition 1024 tlit z'.s2 b1) (literalDecode tlit lp bits (4 * (q + 1)) z)
        fun (e2, t2, b2) =>
      RunsNext (transition 1024 tlit z'.s3 b2) (literalDecode tlit lp bits (4 * (q + 1)) z)
        fun (e3, t3, b3) =>
      literalDecode tlit lp bits (4 * (q + 1)) z =
        .ok (bytes ++ [e0.symbol, e1.symbol, e2.symbol, e3.symbol], ⟨t0, t1, t2, t3⟩, b3)

/-- From the state a `bvx2` with a blob leaves, one engine step runs the 360 frequency codes and the
end checks: it is `initLZFSE` on the weights `vlcDecode` gives, or `vlcDecode`'s fault (R181, R182,
R185, R272). After the 360th weight: F05 where a bit left is set or 8 or more are left, then F06 where a blob
byte is unread, else `initLZFSE` (R185). The engine step that enters the codes goes on through them. One step per code is the model's choice (log 1). -/
def Obligations.V2EngineStepDecodesBlob : Prop :=
  (∀ s : State, s.fault = none → s.eos = false → s.phase = .vlc → s.vlc.weights.length = 360 →
    (s.vlc.acc ≠ 0 ∨ 8 ≤ s.vlc.nb → FaultTaken s s.spos .f05 (step s)) ∧
    (s.vlc.acc = 0 → s.vlc.nb < 8 → s.vlc.p ≠ (vlcBlob s).length → FaultTaken s s.spos .f06 (step s)) ∧
    (s.vlc.acc = 0 → s.vlc.nb < 8 → s.vlc.p = (vlcBlob s).length →
      step s = initLzfse .v2 { s with hdr := { s.hdr with weights := s.vlc.weights } })) ∧
  (∀ s t : State, step s = .next t → t.phase = .vlc →
    t.vlc = { acc := 0, nb := 0, p := 0, weights := [] } →
    ∃ fuel, 361 ≤ fuel ∧ engineStep s = finishStep fuel t) ∧
  ∀ (s : State) (fuel : Nat), s.fault = none → s.eos = false → s.phase = .vlc →
    s.vlc = { acc := 0, nb := 0, p := 0, weights := [] } → 361 ≤ fuel →
    (∀ ws, vlcDecode (vlcBlob s) = .ok ws →
      ∃ v, v.weights = ws ∧
        finishStep fuel s = initLzfse .v2 { s with vlc := v, hdr := { s.hdr with weights := ws } }) ∧
    (∀ r, vlcDecode (vlcBlob s) = .error r → FaultTaken s s.spos r (finishStep fuel s))

/-! ### Frequency codes -/

/-- The seven code forms: the bits that select each, its width and its weight (R190 to R196). -/
def Obligations.FrequencyCodes : Prop :=
  (VlcCodeDoes .vz0 2 0 ∧ ∀ c : BitVec 14, c.toNat % 4 = 0b00 → decodeVlc c = .vz0) ∧
  (VlcCodeDoes .vz1 2 1 ∧ ∀ c : BitVec 14, c.toNat % 4 = 0b10 → decodeVlc c = .vz1) ∧
  (VlcCodeDoes .v2 3 2 ∧ ∀ c : BitVec 14, c.toNat % 8 = 0b001 → decodeVlc c = .v2) ∧
  (VlcCodeDoes .v3 3 3 ∧ ∀ c : BitVec 14, c.toNat % 8 = 0b101 → decodeVlc c = .v3) ∧
  ((∀ x : BitVec 2, VlcCodeDoes (.v4to7 x) 5 (4 + x.toNat)) ∧
    ∀ c : BitVec 14, c.toNat % 8 = 0b011 →
      ∃ x, decodeVlc c = .v4to7 x ∧ x.toNat = bitField c.toNat 3 2) ∧
  ((∀ x : BitVec 4, VlcCodeDoes (.v8to23 x) 8 (8 + x.toNat)) ∧
    ∀ c : BitVec 14, c.toNat % 16 = 0b0111 →
      ∃ x, decodeVlc c = .v8to23 x ∧ x.toNat = bitField c.toNat 4 4) ∧
  ((∀ x : BitVec 10, VlcCodeDoes (.v24to1047 x) 14 (24 + x.toNat)) ∧
    ∀ c : BitVec 14, c.toNat % 16 = 0b1111 →
      ∃ x, decodeVlc c = .v24to1047 x ∧ x.toNat = bitField c.toNat 4 10)

/-- Every sequence of 360 weights of at most 1047 has an encoding by the forms, and `vlcDecode` reads
it back from the packed blob (R98, R182, R185). -/
def Obligations.FrequencyTableRoundTrip : Prop :=
  ∀ ws : List Nat, ws.length = 360 → (∀ w ∈ ws, w ≤ 1047) →
    ∃ forms, ws.mapM weightForm = some forms ∧ vlcDecode (vlcBlobBytes forms) = .ok ws

/-- What one frequency code leaves unchanged: everything but `vlcDecode`'s registers (R182). -/
def Obligations.FrequencyCodesFrame : Prop :=
  ∀ (i : Instr) (s t : State), i.level = .vlc → s.fault = none → exec i s = .next t →
    t.out = s.out ∧ t.spos = s.spos ∧
    (t.fault = none → t = { s with vlc := t.vlc } ∧ t.vlc.p = s.vlc.p ∧
      (∀ a, t.mb.read a = s.mb.read a) ∧ ∀ a, t.lit.read a = s.lit.read a)

/-! ### LZVN opcodes -/

/-- `smlD` (R243). -/
def Obligations.SmlDEffect : Prop :=
  classCount .smlD = 120 ∧
  (∀ l m d, LzvnOpcodeDoes (.smlD l m d) 2 l.toNat (m.toNat + 3) d.toNat) ∧
  ∀ (op b1 : Byte) (rest : List Byte), lzvnClass op = .smlD →
    ∃ l m d, decodeLzvn (op :: b1 :: rest) = .ok (.smlD l m d) ∧
      l.toNat = bitField op.toNat 6 2 ∧ m.toNat = bitField op.toNat 3 3 ∧
      d.toNat = bitField op.toNat 0 3 * 2 ^ 8 + b1.toNat ∧ d.toNat ≤ 1535

/-- `medD` (R244). -/
def Obligations.MedDEffect : Prop :=
  (∀ l m d, LzvnOpcodeDoes (.medD l m d) 3 l.toNat (m.toNat + 3) d.toNat) ∧
  (∀ op : Byte, lzvnClass op = .medD ↔ 0xA0 ≤ op.toNat ∧ op.toNat ≤ 0xBF) ∧
  ∀ (op b1 b2 : Byte) (rest : List Byte), lzvnClass op = .medD →
    ∃ l m d, decodeLzvn (op :: b1 :: b2 :: rest) = .ok (.medD l m d) ∧
      l.toNat = bitField op.toNat 3 2 ∧
      m.toNat = bitField op.toNat 0 3 * 2 ^ 2 + bitField b1.toNat 0 2 ∧
      d.toNat = bitField b1.toNat 2 6 + b2.toNat * 2 ^ 6

/-- `lrgD` (R245). -/
def Obligations.LrgDEffect : Prop :=
  classCount .lrgD = 20 ∧ (∀ op : Byte, lzvnClass op = .lrgD → op.toNat % 8 = 7) ∧
  (∀ l m d, LzvnOpcodeDoes (.lrgD l m d) 3 l.toNat (m.toNat + 3) d.toNat) ∧
  ∀ (op b1 b2 : Byte) (rest : List Byte), lzvnClass op = .lrgD →
    ∃ l m d, decodeLzvn (op :: b1 :: b2 :: rest) = .ok (.lrgD l m d) ∧
      l.toNat = bitField op.toNat 6 2 ∧ m.toNat = bitField op.toNat 3 3 ∧
      d.toNat = b1.toNat + b2.toNat * 2 ^ 8

/-- `preD` (R246). -/
def Obligations.PreDEffect : Prop :=
  classCount .preD = 12 ∧
  (∀ op : Byte, lzvnClass op = .preD → op.toNat % 8 = 6 ∧ 0x40 ≤ op.toNat) ∧
  (∀ l m, LzvnOpcodeDoes (.preD l m) 1 l.toNat (m.toNat + 3) 0) ∧
  ∀ (op : Byte) (rest : List Byte), lzvnClass op = .preD →
    ∃ l m, decodeLzvn (op :: rest) = .ok (.preD l m) ∧
      l.toNat = bitField op.toNat 6 2 ∧ m.toNat = bitField op.toNat 3 3 ∧ 1 ≤ l.toNat

/-- `smlL` (R247). -/
def Obligations.SmlLEffect : Prop :=
  (∀ l, LzvnOpcodeDoes (.smlL l) 1 l.toNat 0 0) ∧
  (∀ op : Byte, lzvnClass op = .smlL ↔ 0xE1 ≤ op.toNat ∧ op.toNat ≤ 0xEF) ∧
  ∀ (op : Byte) (rest : List Byte), lzvnClass op = .smlL →
    ∃ l, decodeLzvn (op :: rest) = .ok (.smlL l) ∧ l.toNat = bitField op.toNat 0 4 ∧ 1 ≤ l.toNat

/-- `lrgL` (R248). -/
def Obligations.LrgLEffect : Prop :=
  (∀ l, LzvnOpcodeDoes (.lrgL l) 2 (l.toNat + 16) 0 0) ∧
  (∀ op : Byte, lzvnClass op = .lrgL ↔ op = 0xE0) ∧
  ∀ (b1 : Byte) (rest : List Byte), decodeLzvn (0xE0 :: b1 :: rest) = .ok (.lrgL b1)

/-- `smlM` (R249). -/
def Obligations.SmlMEffect : Prop :=
  (∀ m, LzvnOpcodeDoes (.smlM m) 1 0 m.toNat 0) ∧
  (∀ op : Byte, lzvnClass op = .smlM ↔ 0xF1 ≤ op.toNat ∧ op.toNat ≤ 0xFF) ∧
  ∀ (op : Byte) (rest : List Byte), lzvnClass op = .smlM →
    ∃ m, decodeLzvn (op :: rest) = .ok (.smlM m) ∧ m.toNat = bitField op.toNat 0 4 ∧ 1 ≤ m.toNat

/-- `lrgM` (R250). -/
def Obligations.LrgMEffect : Prop :=
  (∀ m, LzvnOpcodeDoes (.lrgM m) 2 0 (m.toNat + 16) 0) ∧
  (∀ op : Byte, lzvnClass op = .lrgM ↔ op = 0xF0) ∧
  ∀ (b1 : Byte) (rest : List Byte), decodeLzvn (0xF0 :: b1 :: rest) = .ok (.lrgM b1)

/-- `nop` advances `vpos` alone and the same engine step goes on with the next opcode; `eos` ends the
block without moving `vpos`, F18 where the byte count is short; `udef` faults F09 (R251 to R253). That a `nop` is
a step of its own, after which the phase is `lzvnFetch`, is the model's choice (log 1); one engine step consumes
the whole run of them and the instruction after it, or takes F20 where the payload ends before that (R241). -/
def Obligations.LzvnControlOpcodes : Prop :=
  (∀ (op : Byte) (s : State), exec (.nop op) s = .next
    { s with lzvn := { s.lzvn with vpos := s.lzvn.vpos + 1 }, phase := .lzvnFetch }) ∧
  (∀ (s : State) (i : Instr), s.fault = none → s.eos = false →
    decodeLzvn (s.lzvn.vp.drop (s.lzvn.vpos + 1)) = .ok i →
    let t := { s with lzvn := { s.lzvn with vpos := s.lzvn.vpos + 1 }, phase := .lzvnFetch }
    step t = exec i t) ∧
  (∀ op : Byte, lzvnClass op = .nop ↔ op = 0x0E ∨ op = 0x16) ∧
  (∀ s : State,
    (s.blk.out = s.blk.nRaw → exec .eos s = .next { s with active := .noBlock, phase := .idle }) ∧
    (s.blk.out ≠ s.blk.nRaw → FaultTaken s s.spos .f18 (exec .eos s))) ∧
  (∀ bs : List Byte, decodeLzvn bs = .ok .eos ↔ bs.head? = some 0x06) ∧
  (∀ (op : Byte) (s : State), ∃ t, exec (.udef op) s = .next t ∧
    t.fault = some ⟨.format, .f09⟩ ∧ t.lzvn = s.lzvn ∧ t.out = s.out ∧ t.spos = s.spos) ∧
  (∀ (op : Byte) (rest : List Byte),
    decodeLzvn (op :: rest) = .ok (.udef op) ↔ isReservedOpcode op = true) ∧
  ∀ (s : State) (nops rest : List Byte), FetchesOpcode s → (∀ b ∈ nops, b = 0x0E ∨ b = 0x16) →
    s.lzvn.vp.drop s.lzvn.vpos = nops ++ rest →
    let t := { s with lzvn := { s.lzvn with vpos := s.lzvn.vpos + nops.length } }
    (∀ i, decodeLzvn rest = .ok i → (∀ op, i ≠ .nop op) →
      engineStep s = exec i t ∧
      (s.phase = .lzvnFetch → ∀ fuel, nops.length + 1 ≤ fuel → finishStep fuel s = exec i t)) ∧
    ∀ e, decodeLzvn rest = .error e →
      FaultTaken s s.spos .f20 (engineStep s) ∧
      (s.phase = .lzvnFetch → ∀ fuel, nops.length + 1 ≤ fuel → FaultTaken s s.spos .f20 (finishStep fuel s))

/-- LZVN overrun, F20: no opcode left, operand bytes past the end, announced literals past the end (R254). -/
def Obligations.LzvnOverrunFaults : Prop :=
  ∀ s : State, FetchesOpcode s →
    (s.lzvn.vp.length ≤ s.lzvn.vpos → FaultTaken s s.spos .f20 (step s)) ∧
    (∀ op rest, s.lzvn.vp.drop s.lzvn.vpos = op :: rest → lzvnClass op ≠ .udef → lzvnClass op ≠ .eos →
      rest.length + 1 < lzvnLen (lzvnClass op) → FaultTaken s s.spos .f20 (step s)) ∧
    (∀ i, decodeLzvn (s.lzvn.vp.drop s.lzvn.vpos) = .ok i →
      s.lzvn.vp.length < s.lzvn.vpos + encodedLength i + announcedLiterals i →
      FaultTaken s s.spos .f20 (step s))

/-- What an LZVN instruction leaves unchanged: it stores no byte, reads no source byte and writes only
`vpos`, `L`, `M`, `D`, `active` and the model's phase (R213, R214, R241). -/
def Obligations.LzvnInstructionsFrame : Prop :=
  ∀ (i : Instr) (s t : State), i.level = .lzvn → s.fault = none → exec i s = .next t →
    t.out = s.out ∧ t.spos = s.spos ∧
    (t.fault = none →
      t = { s with
            lzvn := { s.lzvn with vpos := t.lzvn.vpos }
            L := t.L
            M := t.M
            D := t.D
            active := t.active
            phase := t.phase } ∧
      (∀ a, t.mb.read a = s.mb.read a) ∧ ∀ a, t.lit.read a = s.lit.read a)

/-- What a block instruction leaves unchanged: it emits no byte and stores none in the ring; only LZFSE
blocks write the LZFSE registers; the configuration and the source stay (R217, R224, R240, R333). -/
def Obligations.BlockInstructionsFrame : Prop :=
  ∀ (i : Instr) (s t : State), i.level = .block → s.fault = none → exec i s = .next t →
    t.out = s.out ∧ s.spos ≤ t.spos ∧
    (t.fault = none →
      t.src = s.src ∧ t.ringSize = s.ringSize ∧ t.tableCapacity = s.tableCapacity ∧
      (∀ a, t.mb.read a = s.mb.read a) ∧ t.mcur = s.mcur ∧ t.outTotal = s.outTotal ∧
      (i ≠ .bvxEnd → t.eos = s.eos) ∧
      (i ≠ .bvxn → t.lzvn = s.lzvn) ∧
      (i ≠ .bvxRaw → t.raw = s.raw) ∧
      (i ≠ .bvx1 → i ≠ .bvx2 → t.lzfse = s.lzfse ∧ ∀ a, t.lit.read a = s.lit.read a) ∧
      (i ≠ .bvx2 → t.vlc = s.vlc) ∧
      (i = .bvxEnd → t = { s with eos := true }))

/-! ### Ring and emission -/

/-- The ring write (R160): its five effects and nothing else; other cells read as before; and no step
writes the ring, its cursor, `out_total`, `OUT` or `blk.out` in another way, but that a block init clears
`blk.out` (R28, R217, R224, R240). For a step that faults this is the model's choice (log 7). -/
def Obligations.RingWriteEffect : Prop :=
  (∀ s t : State, step s = .next t →
    (t.mb = s.mb ∧ t.mcur = s.mcur ∧ t.outTotal = s.outTotal ∧ t.out = s.out ∧
      (t.blk = s.blk ∨ t.blk.out = 0)) ∨
    ∃ b, t.mb = (ringWrite b s).mb ∧ t.mcur = (ringWrite b s).mcur ∧
      t.outTotal = (ringWrite b s).outTotal ∧ t.out = (ringWrite b s).out ∧
      t.blk = (ringWrite b s).blk) ∧
  ∀ (b : Byte) (s : State), isPowerOfTwo s.ringSize = true →
    ringWrite b s =
      { s with
        mb := (ringWrite b s).mb
        mcur := (s.mcur + 1) &&& (s.ringSize - 1)
        outTotal := s.outTotal + 1
        blk := { s.blk with out := s.blk.out + 1 }
        out := s.out ++ [b] } ∧
    (ringWrite b s).mb.read s.mcur = some b ∧
    ∀ a, a ≠ s.mcur → (ringWrite b s).mb.read a = s.mb.read a

/-- The bulk write is the writes of its bytes in order; it emits every byte, and the ring then holds the last
`S` of all bytes emitted (R161). -/
def Obligations.BulkWriteKeepsLastBytes : Prop :=
  (∀ (bs : List Byte) (s : State), ringWriteAll bs s = bs.foldl (fun t b => ringWrite b t) s) ∧
  ∀ (bs : List Byte) (s : State), RingOk s →
    (ringWriteAll bs s).out = s.out ++ bs ∧
    ∀ d, 1 ≤ d → d ≤ s.ringSize → d ≤ s.out.length + bs.length →
      matchByte d (ringWriteAll bs s) = (s.out ++ bs)[s.out.length + bs.length - d]?

/-- `match(d)` within its preconditions emits the byte emitted `d` bytes ago (R162, R165). -/
def Obligations.MatchCopiesOutput : Prop :=
  ∀ (s : State) (d : Nat), RingOk s → 1 ≤ d → d ≤ s.ringSize → d ≤ s.outTotal →
    ∃ b, s.out[s.outTotal - d]? = some b ∧ ringMatch d s = some (b, ringWrite b s)

/-- Ring overlap law (R166; R163): a bulk match succeeds, emits its bytes, and repeats with period `d`. -/
def Obligations.BulkMatchOverlaps : Prop :=
  ∀ (s : State) (d len : Nat), RingOk s → 1 ≤ d → d ≤ s.ringSize → d ≤ s.outTotal →
    ∃ bs t, ringMatchAll d len s = some (bs, t) ∧ bs.length = len ∧ t.out = s.out ++ bs ∧
      (∀ k, d ≤ k → k < len → bs[k]? = bs[k - d]?) ∧
      ∀ k, k < d → k < len → bs[k]? = s.out[s.outTotal - d + k]?

/-- One LMD step that emits (R210 to R212, R219, R255): all literals first, then the match bytes. A literal
is the strategy's next one, its cursor advanced; a match byte is the one emitted `D` bytes ago. The byte goes
through the ring write, the run left drops by one, and nothing else changes. -/
def Obligations.LmdStepEmitsOneByte : Prop :=
  ∀ s : State, Ready s → Inv s →
    (s.active.isLzfse = true → 0 < s.L →
      ∃ b, s.lit.read s.lzfse.litPos = some b ∧
        step s = .next
          { ringWrite b s with
            L := s.L - 1
            lzfse := { s.lzfse with litPos := s.lzfse.litPos + 1 } }) ∧
    (s.active = .lzvn → 0 < s.L →
      ∃ b, s.lzvn.vp[s.lzvn.vpos]? = some b ∧
        step s = .next
          { ringWrite b s with
            L := s.L - 1
            lzvn := { s.lzvn with vpos := s.lzvn.vpos + 1 } }) ∧
    (s.active = .raw → 0 < s.L →
      ∃ b, s.raw.rp[s.raw.rpos]? = some b ∧
        step s = .next
          { ringWrite b s with
            L := s.L - 1
            raw := { s.raw with rpos := s.raw.rpos + 1 } }) ∧
    (s.active ≠ .noBlock → s.L = 0 → 0 < s.M →
      ∃ b, s.out[s.out.length - s.D]? = some b ∧
        step s = .next { ringWrite b s with M := s.M - 1 })

/-- FETCH_NEXT of an LZFSE block (R213, R215, R220, R221): NONE when none remains; the decoder's fault; the
checks F16, F18, F17 in this order after the D update; else the triple is taken. -/
def Obligations.LzfseFetchInOrder : Prop :=
  ∀ s : State, Ready s → s.active.isLzfse = true → s.L = 0 → s.M = 0 →
    (s.lzfse.remaining = 0 → step s = .next (blockDone s)) ∧
    (0 < s.lzfse.remaining →
      (∀ r, decodeTriple s.lzfse = .error r → FaultTaken s s.spos r (step s)) ∧
      (∀ tr z, decodeTriple s.lzfse = .ok (tr, z) →
        (s.lzfse.nLiterals < s.lzfse.litPos + tr.l → FaultTaken s s.spos .f16 (step s)) ∧
        (s.lzfse.litPos + tr.l ≤ s.lzfse.nLiterals → s.blk.nRaw < s.blk.out + tr.l + tr.m →
          FaultTaken s s.spos .f18 (step s)) ∧
        (s.lzfse.litPos + tr.l ≤ s.lzfse.nLiterals → s.blk.out + tr.l + tr.m ≤ s.blk.nRaw →
          BadDistance tr.l tr.m tr.newD s → FaultTaken s s.spos .f17 (step s)) ∧
        (s.lzfse.litPos + tr.l ≤ s.lzfse.nLiterals → s.blk.out + tr.l + tr.m ≤ s.blk.nRaw →
          ¬ BadDistance tr.l tr.m tr.newD s →
          step s = .next { s with lzfse := z, L := tr.l, M := tr.m, D := heldAfter tr.newD s }) ∧
        z.remaining = s.lzfse.remaining - 1 ∧ z.litPos = s.lzfse.litPos))

/-- DONE (R214): a block ends exactly when its byte count is met, F18 otherwise; a raw block with nothing left
to emit takes it (R224: `nextTriple` is always NONE). That a step that faults does not leave `active` NONE is the model's
choice (log 7). -/
def Obligations.BlockEndsAtItsByteCount : Prop :=
  (∀ s : State, s.blk.out ≠ s.blk.nRaw → (blockDone s).fault = some ⟨.format, .f18⟩) ∧
  (∀ s : State, s.blk.out = s.blk.nRaw → blockDone s = { s with active := .noBlock, phase := .idle }) ∧
  (∀ s : State, Ready s → s.active = .raw → s.L = 0 → s.M = 0 → step s = .next (blockDone s)) ∧
  ∀ s t : State, s.fault = none → s.active ≠ .noBlock → step s = .next t → t.active = .noBlock →
    s.phase ≠ .vlc → t.fault = none ∧ s.blk.out = s.blk.nRaw ∧ t.blk = s.blk

/-! ### Bit reader -/

/-- `init` (R121 to R125): the bytes it loads, its start count, and the reason of each failure. -/
def Obligations.BitReaderInit : Prop :=
  ∀ (buf : List Byte) (n : Int),
    (n < -7 ∨ 0 < n → BitReader.init buf n = .error .f10) ∧
    (n = 0 → buf.length < 7 → BitReader.init buf n = .error .f13) ∧
    (n = 0 → 7 ≤ buf.length →
      ∃ br, BitReader.init buf n = .ok br ∧ br.pos = buf.length - 7 ∧ br.cnt = 56 ∧
        br.acc.toNat = leNat (buf.drop (buf.length - 7))) ∧
    (-7 ≤ n → n < 0 → buf.length < 8 → BitReader.init buf n = .error .f13) ∧
    (-7 ≤ n → n < 0 → 8 ≤ buf.length →
      (2 ^ (64 + n).toNat ≤ leNat (buf.drop (buf.length - 8)) →
        BitReader.init buf n = .error .f14) ∧
      (leNat (buf.drop (buf.length - 8)) < 2 ^ (64 + n).toNat →
        ∃ br, BitReader.init buf n = .ok br ∧ br.pos = buf.length - 8 ∧ (br.cnt : Int) = 64 + n ∧
          br.acc.toNat = leNat (buf.drop (buf.length - 8))))

/-- `fill` and `read` (R126 to R128) on a reader that keeps R120, which both keep. -/
def Obligations.BitReaderFillRead : Prop :=
  ∀ (buf : List Byte) (br : BitReader), br.Ok buf →
    (56 ≤ br.cnt → br.fill buf = .ok br) ∧
    (br.cnt < 56 → br.pos < (63 - br.cnt) / 8 → br.fill buf = .error .f13) ∧
    (br.cnt < 56 → (63 - br.cnt) / 8 ≤ br.pos →
      ∃ br', br.fill buf = .ok br' ∧ br'.Ok buf ∧ br'.pos = br.pos - (63 - br.cnt) / 8 ∧
        br'.cnt = br.cnt + 8 * ((63 - br.cnt) / 8) ∧ 56 ≤ br'.cnt ∧
        br'.acc.toNat = br.acc.toNat * 2 ^ (8 * ((63 - br.cnt) / 8)) +
          memRead buf (br.pos - (63 - br.cnt) / 8) ((63 - br.cnt) / 8)) ∧
    (∀ w, br.cnt < w → br.read w = .error .t02) ∧
    ∀ w, w ≤ br.cnt →
      ∃ br', br.read w = .ok (br.acc.toNat / 2 ^ (br.cnt - w), br') ∧ br'.Ok buf ∧
        br'.cnt = br.cnt - w ∧ br'.pos = br.pos ∧
        br'.acc.toNat = br.acc.toNat % 2 ^ (br.cnt - w)

/-- Read-order law (R129; R95): after `init`, the fields that any run of fills and reads returns are the
successive fields of the backward bitstream, and what is left is the rest of it; the bits skipped by
`init` are 0. -/
def Obligations.ReadOrderLaw : Prop :=
  ∀ (buf : List Byte) (n : Int) (ops : List ReaderOp) (br br' : BitReader) (fs : List (Nat × Nat)),
    BitReader.init buf n = .ok br → BitReader.run buf ops br = .ok (fs, br') →
    streamContent buf n = fs.flatMap (fun f => natBits f.1 f.2) ++ br'.pending buf ∧
    (∀ f ∈ fs, f.2 < 2 ^ f.1) ∧
    ∀ b ∈ (backwardBits buf).take (-n).toNat, b = false

/-! ### tANS tables -/

/-- `build` (R131): F08 on more than 256 weights, F07 on a sum above `N`, and otherwise a table in which symbol
`s` of weight `w` has `w` consecutive slots after those of the symbols before it, filled by the split-radix
rule; the slots from the weights' sum on are empty. A value table's entry has its stream's value fields besides
(R137). The four builds of a block init take the L, M, D and literal weights, in this order (R186, R217). -/
def Obligations.BuildFillsSlots : Prop :=
  (∀ (n : Nat) (weights : List Nat),
    (256 < weights.length → buildTable n weights = .error .f08) ∧
    (weights.length ≤ 256 → n < weights.sum → buildTable n weights = .error .f07) ∧
    (weights.length ≤ 256 → weights.sum ≤ n →
      ∃ t, buildTable n weights = .ok t ∧ t.length = n ∧
        (∀ i, weights.sum ≤ i → i < n → t[i]? = some none) ∧
        ∀ s w i, weights[s]? = some w → i < w →
          let k := lzc32 w - lzc32 n
          let x := 2 * n / 2 ^ k - w
          t[(weights.take s).sum + i]? = some (some
            (if i < x then ⟨BitVec.ofNat 8 s, k, (w + i) * 2 ^ k - n⟩
            else ⟨BitVec.ofNat 8 s, k - 1, (i - x) * 2 ^ (k - 1)⟩)))) ∧
  (∀ (x : Stream) (n : Nat) (weights : List Nat),
    RunsNext (buildTable n weights) (buildValueTable x n weights) fun t =>
      ∃ vt, buildValueTable x n weights = .ok vt ∧ vt.length = t.length ∧
        ∀ i : Nat, (t[i]? = some none → vt[i]? = some none) ∧
          ∀ e, t[i]? = some (some e) →
            vt[i]? = some (some
              { toEntry := e, vBits := x.extra e.symbol.toNat, vBase := x.base e.symbol.toNat })) ∧
  ∀ weights : List Nat,
    RunsNext (buildValueTable .L 64 (weights.take 20)) (buildTables weights) fun tl =>
    RunsNext (buildValueTable .M 64 ((weights.drop 20).take 20)) (buildTables weights) fun tm =>
    RunsNext (buildValueTable .D 256 ((weights.drop 40).take 64)) (buildTables weights) fun td =>
    RunsNext (buildTable 1024 ((weights.drop 104).take 256)) (buildTables weights) fun tlit =>
    buildTables weights = .ok { tl := tl, tm := tm, td := td, tlit := tlit }

/-- Properties of a built table (R134): every written entry leads back into the table, and a symbol's
slots are consecutive and as many as its weight. -/
def Obligations.BuiltTablesLeadBack : Prop :=
  ∀ (k : Nat) (weights : List Nat) (t : List (Option Entry)), k ≤ 10 →
    buildTable (2 ^ k) weights = .ok t →
    (∀ e, some e ∈ t → e.nBits ≤ k ∧ e.nBase + 2 ^ e.nBits ≤ 2 ^ k) ∧
    ∀ s, s < weights.length → ∀ i, i < 2 ^ k →
      ((∃ e, t[i]? = some (some e) ∧ e.symbol.toNat = s) ↔
        (weights.take s).sum ≤ i ∧ i < (weights.take (s + 1)).sum)

/-- `lookup` and `transition` (R132, R133): F11 outside the table, F12 at an empty slot, else the entry; the new
state is the entry's base plus the state bits read, T02 where they are not there. -/
def Obligations.TransitionEffect : Prop :=
  ∀ (n : Nat) (t : List (Option Entry)) (st : Nat) (br : BitReader), t.length = n →
    (n ≤ st → lookup n t st = .error .f11) ∧
    (t[st]? = some none → lookup n t st = .error .f12) ∧
    (∀ e, t[st]? = some (some e) → lookup n t st = .ok e) ∧
    (∀ r, lookup n t st = .error r → transition n t st br = .error r) ∧
    ∀ e, lookup n t st = .ok e →
      (br.cnt < e.nBits → transition n t st br = .error .t02) ∧
      ∀ v br', br.read e.nBits = .ok (v, br') → transition n t st br = .ok (e, e.nBase + v, br')

/-- The L and M tables (R135) and the D tables (R136): their extra-bit counts and bases; every distance in
[0, 262139] has exactly one symbol and extra-bit value. -/
def Obligations.DistanceSymbolsPartition : Prop :=
  (List.range 20).map Stream.L.extra = List.replicate 16 0 ++ [2, 3, 5, 8] ∧
  (List.range 20).map Stream.L.base = List.range 16 ++ [16, 20, 28, 60] ∧
  (List.range 20).map Stream.M.extra = List.replicate 16 0 ++ [3, 5, 8, 11] ∧
  (List.range 20).map Stream.M.base = List.range 16 ++ [16, 24, 56, 312] ∧
  Stream.D.extra = dExtra ∧ Stream.D.base = dBase ∧
  (∀ s, s < 64 → dExtra s = if s < 4 then 0 else s / 4) ∧ dBase 0 = 0 ∧
  (∀ s, dBase (s + 1) = dBase s + 2 ^ dExtra s) ∧ dBase 63 = 229372 ∧
  ∀ d, d ≤ 262139 → ∃ p : Nat × Nat,
    (p.1 < 64 ∧ p.2 < 2 ^ dExtra p.1 ∧ dBase p.1 + p.2 = d) ∧
    ∀ q : Nat × Nat, q.1 < 64 → q.2 < 2 ^ dExtra q.1 → dBase q.1 + q.2 = d → q = p

/-- `valueDecode` reads the state bits, then the extra bits, and answers the base plus the extra bits (R138). A
triple is one fill, then the values of L, M and D in this order, and counts `remaining` down (R220). It is in
range and never faults T02 (R130, R142). -/
def Obligations.LzfseTripleInRange : Prop :=
  (∀ (n : Nat) (t : List (Option ValueEntry)) (st : Nat) (br : BitReader),
    RunsNext (lookup n t st) (valueDecode n t st br) fun e =>
    RunsNext (br.read e.nBits) (valueDecode n t st br) fun (v, br1) =>
    RunsNext (br1.read e.vBits) (valueDecode n t st br) fun (x, br2) =>
    valueDecode n t st br = .ok (e.vBase + x, e.nBase + v, br2)) ∧
  (∀ z : Lzfse,
    RunsNext (z.brLmd.fill z.lmdp) (decodeTriple z) fun b0 =>
    RunsNext (valueDecode 64 z.tl z.sL b0) (decodeTriple z) fun (lv, sL, b1) =>
    RunsNext (valueDecode 64 z.tm z.sM b1) (decodeTriple z) fun (mv, sM, b2) =>
    RunsNext (valueDecode 256 z.td z.sD b2) (decodeTriple z) fun (dv, sD, b3) =>
    decodeTriple z = .ok (⟨lv, mv, dv⟩,
      { z with sL := sL, sM := sM, sD := sD, brLmd := b3, remaining := z.remaining - 1 })) ∧
  ∀ z : Lzfse, TablesOk z → ReadersOk z →
    decodeTriple z ≠ .error .t02 ∧
    ∀ tr z', decodeTriple z = .ok (tr, z') →
      tr.l ≤ 315 ∧ tr.m ≤ 2359 ∧ tr.newD ≤ 262139 ∧
      z'.sL < 64 ∧ z'.sM < 64 ∧ z'.sD < 256 ∧ ReadersOk z'

/-! ### Headers -/

/-- The V1 header layout (R83, R84) and the checks of `parseV1`: fields written at the layout's offsets
are read back, signed, and checked in order: F02 for a negative count, state or weight (R176), F10 for a bit
offset outside [-7, 0] (R177), F19 for a wrong payload sum (R178). -/
def Obligations.V1HeaderRoundTrip : Prop :=
  ∀ r : RawV1,
    (∀ v ∈ [r.nRawBytes, r.nPayloadBytes, r.nLiterals, r.nMatches, r.nLiteralPayloadBytes,
      r.nLmdPayloadBytes, r.literalBits, r.lmdBits], -2 ^ 31 ≤ v ∧ v < 2 ^ 31) →
    (∀ v ∈ [r.literalState0, r.literalState1, r.literalState2, r.literalState3, r.lState, r.mState,
      r.dState] ++ r.weights, -2 ^ 15 ≤ v ∧ v < 2 ^ 15) →
    r.weights.length = 360 →
    let negative := r.nRawBytes < 0 ∨ r.nPayloadBytes < 0 ∨ r.nLiterals < 0 ∨ r.nMatches < 0 ∨
      r.nLiteralPayloadBytes < 0 ∨ r.nLmdPayloadBytes < 0 ∨ r.literalState0 < 0 ∨ r.literalState1 < 0 ∨
      r.literalState2 < 0 ∨ r.literalState3 < 0 ∨ r.lState < 0 ∨ r.mState < 0 ∨ r.dState < 0 ∨
      ∃ w ∈ r.weights, w < 0
    let inRange := -7 ≤ r.literalBits ∧ r.literalBits ≤ 0 ∧ -7 ≤ r.lmdBits ∧ r.lmdBits ≤ 0
    (v1HeaderBytes r).length = 766 ∧
    (negative → parseV1 (v1HeaderBytes r) = .error .f02) ∧
    (¬ negative → ¬ inRange → parseV1 (v1HeaderBytes r) = .error .f10) ∧
    (¬ negative → inRange → r.nPayloadBytes ≠ r.nLiteralPayloadBytes + r.nLmdPayloadBytes →
      parseV1 (v1HeaderBytes r) = .error .f19) ∧
    (¬ negative → inRange → r.nPayloadBytes = r.nLiteralPayloadBytes + r.nLmdPayloadBytes →
      parseV1 (v1HeaderBytes r) = .ok
        { nRawBytes := r.nRawBytes.toNat
          nPayloadBytes := r.nPayloadBytes.toNat
          nLiterals := r.nLiterals.toNat
          nMatches := r.nMatches.toNat
          nLiteralPayloadBytes := r.nLiteralPayloadBytes.toNat
          nLmdPayloadBytes := r.nLmdPayloadBytes.toNat
          literalBits := r.literalBits
          lmdBits := r.lmdBits
          literalState :=
            { s0 := r.literalState0.toNat
              s1 := r.literalState1.toNat
              s2 := r.literalState2.toNat
              s3 := r.literalState3.toNat }
          lState := r.lState.toNat
          mState := r.mState.toNat
          dState := r.dState.toNat
          weights := r.weights.map Int.toNat })

/-- The V2 fixed header layout (R85 to R88): fields written at the layout's bits are read back. The checks, in
order: F02 for a negative `nRawBytes`, F02 for a `headerSize` under 32, F03 for a table past the capacity
(R180). -/
def Obligations.V2HeaderRoundTrip : Prop :=
  (∀ (capacity : Nat) (hs : List Byte),
    let nRaw := sext 32 (memRead hs 0 4)
    let headerSize := bitField (memRead hs 20 8) 0 32
    (nRaw < 0 → parseV2Prefix capacity hs = .error .f02) ∧
    (0 ≤ nRaw → headerSize < 32 → parseV2Prefix capacity hs = .error .f02) ∧
    (0 ≤ nRaw → 32 ≤ headerSize → capacity + 32 < headerSize →
      parseV2Prefix capacity hs = .error .f03) ∧
    (0 ≤ nRaw → 32 ≤ headerSize → headerSize ≤ capacity + 32 →
      ∃ h, parseV2Prefix capacity hs = .ok (h, headerSize - 32))) ∧
  ∀ (h : Header) (headerSize capacity : Nat),
    h.nRawBytes < 2 ^ 31 → h.nLiterals < 2 ^ 20 → h.nLiteralPayloadBytes < 2 ^ 20 →
    h.nMatches < 2 ^ 20 → h.nLmdPayloadBytes < 2 ^ 20 →
    -7 ≤ h.literalBits → h.literalBits ≤ 0 → -7 ≤ h.lmdBits → h.lmdBits ≤ 0 →
    h.literalState.s0 < 2 ^ 10 → h.literalState.s1 < 2 ^ 10 → h.literalState.s2 < 2 ^ 10 →
    h.literalState.s3 < 2 ^ 10 → h.lState < 2 ^ 10 → h.mState < 2 ^ 10 → h.dState < 2 ^ 10 →
    h.nPayloadBytes = h.nLiteralPayloadBytes + h.nLmdPayloadBytes →
    h.weights = List.replicate 360 0 →
    32 ≤ headerSize → headerSize < 2 ^ 32 → headerSize ≤ capacity + 32 →
    (v2PrefixBytes h headerSize).length = 28 ∧
    parseV2Prefix capacity (v2PrefixBytes h headerSize) = .ok (h, headerSize - 32)

/-- The V2 bits no field covers are ignored (R89). -/
def Obligations.V2UnusedBitsIgnored : Prop :=
  ∀ (capacity : Nat) (a b : List Byte), memRead a 0 4 = memRead b 0 4 →
    memRead a 4 8 % 2 ^ 63 = memRead b 4 8 % 2 ^ 63 →
    memRead a 12 8 % 2 ^ 63 = memRead b 12 8 % 2 ^ 63 →
    memRead a 20 8 % 2 ^ 62 = memRead b 20 8 % 2 ^ 62 →
    parseV2Prefix capacity a = parseV2Prefix capacity b

/-! ### Invariants and whole-machine rules -/

/-- Construction (R284): U01, or the reset state with the parameters and the source fixed, which keeps the
invariant. That state has the model's values in the registers R330 gives none (log 2). -/
def Obligations.ConstructionOk : Prop :=
  ∀ (size capacity : Nat) (source : List Byte),
    ((¬ ∃ k, 1 ≤ k ∧ size = 2 ^ k) ∨ capacity < 630 →
      construct size capacity source = .error ⟨.usage, .u01⟩) ∧
    ((∃ k, 1 ≤ k ∧ size = 2 ^ k) → 630 ≤ capacity →
      construct size capacity source = .ok (State.initial size capacity source) ∧
      Inv (State.initial size capacity source))

/-- What construction leaves: every value R330's table gives, `S`, the capacity and the source as given.
`State.reset` is the engine with the model's default arguments (log 3), and keeps the invariant. -/
def Obligations.ResetState : Prop :=
  (∀ (size capacity : Nat) (source : List Byte),
    let s := State.initial size capacity source
    s.eos = false ∧ s.fault = none ∧ s.spos = 0 ∧ s.active = .noBlock ∧ s.outTotal = 0 ∧ s.out = [] ∧
    (∀ a, s.mb.read a = none) ∧ s.mcur = 0 ∧ s.L = 0 ∧ s.M = 0 ∧ s.D = 0 ∧
    (∀ a, s.lit.read a = none) ∧
    s.lzfse.tl = List.replicate 64 none ∧ s.lzfse.tm = List.replicate 64 none ∧
    s.lzfse.td = List.replicate 256 none ∧ s.lzfse.tlit = List.replicate 1024 none ∧
    s.lzfse.lp = [] ∧ s.lzfse.lmdp = [] ∧ s.lzvn.vp = [] ∧ s.raw.rp = [] ∧
    s.ringSize = size ∧ s.tableCapacity = capacity ∧ s.src = source) ∧
  State.reset = State.initial (2 ^ 18) 720 [] ∧ Inv State.reset

/-- Every step keeps the byte memories in canonical form and inside their spaces (R26, R32, R60), a step
that faults too (log 7). -/
def Obligations.MemoryFormKept : Prop :=
  ∀ s t : State, MemoryOk s → 1 ≤ s.ringSize → step s = .next t → MemoryOk t

/-- The ring retention law holds after construction, and every step keeps it, across blocks of every kind
(R164). For a step that faults this is the model's choice (log 7). -/
def Obligations.RingLawKept : Prop :=
  (∀ size capacity source, RingOk (State.initial size capacity source)) ∧
  ∀ s t : State, RingOk s → step s = .next t → RingOk t

/-- Every step keeps the whole invariant: canonical memories, the ring law, the block account, tables,
readers, and every register inside its stated width (R12, R20 to R44). For a step that faults this is the model's
choice (log 7). -/
def Obligations.InvariantKept : Prop :=
  ∀ s t : State, Inv s → step s = .next t → Inv t

/-- No step stops on a value that does not exist: from every state of the invariant a step that does not
raise a recorded fault has a next state (R15, R51). -/
def Obligations.NoStepReadsMissingValue : Prop :=
  ∀ s : State, Inv s → safeOutcome (step s) = true ∧ (s.fault = none → ∃ t, step s = .next t)

/-- Faults no valid path reaches (R307): T02, F06, F08, and the usage faults, are raised by no step. -/
def Obligations.UnreachableFaults : Prop :=
  ∀ s t : State, Inv s → step s = .next t →
    ∀ c r, t.fault = some ⟨c, r⟩ → r ≠ .t02 ∧ r ≠ .f06 ∧ r ≠ .f08 ∧ r ≠ .u01 ∧ r ≠ .u02

/-- A step emits at most one byte, never takes one back, and emits none when it faults (R63, R304, R305). -/
def Obligations.OutputGrowsByOneByte : Prop :=
  ∀ s t : State, step s = .next t →
    (t.out = s.out ∨ ∃ b, t.out = s.out ++ [b]) ∧ (t.fault ≠ none → t.out = s.out)

/-- The source is read in order and never changes; `spos` only advances and stays inside it; the
configuration is fixed; `eos` and the fault record are never cleared, and only `bvx$` sets `eos`
(R21 to R23, R46, R62, R78). Of the configuration and `eos` after a step that faults this is the model's choice
(log 7). -/
def Obligations.SourceOnlyAdvances : Prop :=
  ∀ s t : State, step s = .next t →
    t.src = s.src ∧ s.spos ≤ t.spos ∧ (s.spos ≤ s.src.length → t.spos ≤ t.src.length) ∧
    t.ringSize = s.ringSize ∧ t.tableCapacity = s.tableCapacity ∧
    (s.eos = true → t = s) ∧
    (s.eos = false → t.eos = true →
      sourceBytes 4 s = [0x62, 0x76, 0x78, 0x24] ∧ t.spos = s.spos + 4)

/-- Termination (R281): an engine step that delivers no byte, no end and no fault uses up part of a
finite measure, so every host call answers: a read, a bulk read with any draw, and one with its own draw. In range
and with a byte wanted, a bulk read answers a count from 1 to its draw, EndOfStream, or a fault. -/
def Obligations.EveryReadAnswers : Prop :=
  (∀ s t : State, Inv s → engineStep s = .next t → resultOf s t = .internal →
    workBound t < workBound s) ∧
  (∀ s : State, Inv s → (read s).1 ≠ .noAnswer) ∧
  ∀ (s : State) (c : Nat) (buf : List Byte) (off len : Int), Inv s →
    (bulkReadWith c buf off len s).1 ≠ .noAnswer ∧ (bulkRead buf off len s).1 ≠ .noAnswer ∧
    (badReadArgs buf off len = false → len ≠ 0 → 1 ≤ c →
      (∃ k, 1 ≤ k ∧ k ≤ c ∧ (bulkReadWith c buf off len s).1 = .count k) ∨
      (bulkReadWith c buf off len s).1 = .endOfStream ∨
      ∃ f, (bulkReadWith c buf off len s).1 = .raised f)

/-- `read()` (R278): the byte it answers is the next byte of `OUT`; EndOfStream only with `eos` set; a
fault only with its record; nothing else is emitted. -/
def Obligations.ReadDeliversNextByte : Prop :=
  ∀ (s t : State) (a : Answer), s.fault = none → read s = (a, t) →
    (∀ b, a = .byte b → t.out = s.out ++ [b] ∧ t.fault = none) ∧
    (a = .endOfStream → t.eos = true ∧ t.out = s.out ∧ t.fault = none) ∧
    (∀ f, a = .raised f → t.fault = some f ∧ t.out = s.out) ∧
    ∀ k, a ≠ .count k

/-- The bulk read (R279, R285, R304): U02 on bad arguments before any step; 0 and no step for a zero length;
otherwise the bytes stored in `buf` from `off` on are exactly the bytes appended to `OUT`, at most `c` of them;
a count says how many, and fewer than `c` only at end of stream; bytes stored before a fault stay. `bulkRead`
draws its `c` from 1 to `len` (R8; log 11). -/
def Obligations.BulkReadDelivers : Prop :=
  (∀ (buf : List Byte) (off len : Int) (s : State), s.fault = none →
    (badReadArgs buf off len = true ∨ len = 0 →
      ∃ c : Nat, bulkRead buf off len s = bulkReadWith c buf off len s) ∧
    (badReadArgs buf off len = false → len ≠ 0 →
      ∃ c : Nat, 1 ≤ c ∧ (c : Int) ≤ len ∧
        bulkRead buf off len s = bulkReadWith c buf off len { s with draws := s.draws + 1 })) ∧
  ∀ (c : Nat) (buf buf' : List Byte) (off len : Int) (s t : State) (a : Answer), s.fault = none →
    bulkReadWith c buf off len s = (a, buf', t) →
    (badReadArgs buf off len = true →
      a = .raised ⟨.usage, .u02⟩ ∧ buf' = buf ∧ t.fault = some ⟨.usage, .u02⟩ ∧ t.out = s.out ∧
      t.spos = s.spos) ∧
    (badReadArgs buf off len = false → len = 0 → a = .count 0 ∧ buf' = buf ∧ t = s) ∧
    (badReadArgs buf off len = false → 1 ≤ c → (c : Int) ≤ len →
      ∃ bs, t.out = s.out ++ bs ∧ bs.length ≤ c ∧ buf'.length = buf.length ∧
        (∀ i, buf'[i]? = if off.toNat ≤ i ∧ i < off.toNat + bs.length then bs[i - off.toNat]?
          else buf[i]?) ∧
        (∀ k, a = .count k → k = bs.length ∧ 1 ≤ k ∧ (k < c → t.eos = true)) ∧
        (a = .endOfStream → bs = [] ∧ t.eos = true) ∧
        ∀ f, a = .raised f → t.fault = some f)
end

