-- ==== Sys2Proof/Laws/Bytes.lean ====
section
/-! SUPPORT. Little-endian fields written and read back. -/

namespace Sys2Proof.Machine

/-- A little-endian value is below `256 ^ n`. -/
theorem leNat_lt (bs : List Byte) : leNat bs < 256 ^ bs.length := by
  induction bs with
  | nil => simp [leNat]
  | cons b bs ih => 
    simp only [leNat, List.length_cons, pow_succ]
    have := b.isLt
    omega

/-- So is a read of `n` bytes (R13). -/
theorem memRead_lt (x a n) : memRead x a n < 256 ^ n := by
  refine lt_of_lt_of_le (leNat_lt _) (Nat.pow_le_pow_right (by norm_num) ?_)
  simp

/-- `n` little-endian bytes. -/
theorem leBytes_length (n v) : (leBytes n v).length = n := by
  induction n generalizing v with
  | zero => rfl
  | succ n ih => simp [leBytes, ih]

/-- Little-endian bytes read back (R13). -/
theorem leNat_leBytes (n v) (h : v < 256 ^ n) : leNat (leBytes n v) = v := by
  induction n generalizing v with
  | zero => simp at h; simp [leBytes, leNat, h]
  | succ n ih =>
    simp only [leBytes, leNat]
    rw [ih _ (by rw [pow_succ] at h; omega)]
    simp; omega

/-- A field read at its offset (R13). -/
theorem memRead_at (a b : List Byte) (n v : Nat) (c : List Byte) (hb : b = leBytes n v) (hv : v < 256^n) (k) (hk : a.length = k) : memRead (a ++ b ++ c) k n = v := by
  subst hb hk
  unfold memRead
  rw [List.append_assoc, List.drop_left, List.take_left' (leBytes_length _ _), leNat_leBytes _ _ hv]

/-- Sign extension undoes two's complement (R12). -/
theorem sext_mod (k : Nat) (v : Int) (h1 : -2^k ≤ v) (h2 : v < 2^k) : sext (k+1) (v % 2 ^ (k+1)).toNat = v := by
  have hp : (0:Int) < 2 ^ k := by positivity
  have e : (2:Int)^(k+1) = 2 * 2^k := by ring
  unfold sext
  simp only [Nat.add_sub_cancel]
  by_cases hv : 0 ≤ v
  · rw [Int.emod_eq_of_lt hv (by omega), if_pos (by zify; omega)]; omega
  · have : v % 2 ^ (k+1) = v + 2^(k+1) := by
      rw [← Int.add_emod_right, Int.emod_eq_of_lt (by omega) (by omega)]
    rw [this, if_neg (by zify; rw [Int.toNat_of_nonneg (by omega)]; omega)]
    omega

/-- A two's complement pattern fits its bytes. -/
theorem intMod_lt (n : Nat) (v : Int) : (v % 2 ^ (8*n)).toNat < 256 ^ n := by
  have h1 : (0:Int) < 2 ^ (8*n) := by positivity
  have := Int.emod_lt_of_pos v h1
  have h2 := Int.emod_nonneg v (b := 2 ^ (8*n)) (by omega)
  have e : ((256 ^ n : Nat) : Int) = 2 ^ (8*n) := by push_cast; rw [pow_mul]; norm_num
  zify; rw [Int.toNat_of_nonneg h2]; push_cast at e; rw [e]; exact this

/-- An int32 field read at its offset (R66). -/
theorem int32_at (a c : List Byte) (v : Int) (k) (hk : a.length = k) (h : -2^31 ≤ v ∧ v < 2^31) : int32At (a ++ intBytes 4 v ++ c) k = v := by
  unfold int32At intBytes
  rw [memRead_at a _ 4 _ c rfl (intMod_lt 4 v) k hk]
  exact sext_mod 31 v h.1 h.2

/-- An int16 field read at its offset (R66). -/
theorem int16_at (a c : List Byte) (v : Int) (k) (hk : a.length = k) (h : -2^15 ≤ v ∧ v < 2^15) : int16At (a ++ intBytes 2 v ++ c) k = v := by
  unfold int16At intBytes
  rw [memRead_at a _ 2 _ c rfl (intMod_lt 2 v) k hk]
  exact sext_mod 15 v h.1 h.2

/-- Consecutive int16 fields read back (R84). -/
theorem int16s_flat (ws : List Int) (h : ∀ w ∈ ws, -2^15 ≤ w ∧ w < 2^15) : int16s (ws.flatMap (intBytes 2)) = ws := by
  induction ws with
  | nil => rfl
  | cons w ws ih =>
    have hw := h w (by simp)
    have hlt := intMod_lt 2 w
    have := leNat_leBytes 2 _ hlt
    simp only [List.flatMap_cons]
    have e : intBytes 2 w = [BitVec.ofNat 8 (w % 2^16).toNat, BitVec.ofNat 8 ((w % 2^16).toNat / 256)] := rfl
    rw [e]
    simp only [List.cons_append, List.nil_append, int16s]
    rw [ih fun w hw => h w (by simp [hw])]
    have : leNat [BitVec.ofNat 8 (w % 2^16).toNat, BitVec.ofNat 8 ((w % 2^16).toNat / 256)] = (w % 2^16).toNat := this
    rw [this, sext_mod 15 w hw.1 hw.2]

/-- `n` bytes of an int field. -/
theorem intBytes_length (n v) : (intBytes n v).length = n := leBytes_length _ _

end Sys2Proof.Machine
end

