-- ==== Sys2Proof/Laws/Memory.lean ====
section
/-! SUPPORT. The laws of the byte memories: a read after a write, the canonical form that every memory
operation keeps, and the bound on the listed addresses. -/

namespace Sys2Proof.Machine

@[simp] theorem Memory.read_nil (a : Nat) : Memory.read [] a = none := rfl

theorem Memory.read_write_same (m : Memory) (a : Nat) (b : Byte) : (m.write a b).read a = some b := by
  induction m with
  | nil => simp [Memory.write, Memory.read]
  | cons c rest ih =>
    obtain ⟨k, v⟩ := c
    simp only [Memory.write]
    split
    · simp [Memory.read]
    · split
      · simp [Memory.read]
      · simp_all [Memory.read]

theorem Memory.read_write_other (m : Memory) (a c : Nat) (b : Byte) (h : c ≠ a) :
    (m.write a b).read c = m.read c := by
  induction m with
  | nil => simp [Memory.write, Memory.read, h]
  | cons x rest ih =>
    obtain ⟨k, v⟩ := x
    simp only [Memory.write]
    split
    · simp [Memory.read, h]
    · split
      · subst_vars; simp [Memory.read, h]
      · simp [Memory.read, ih]

/-- A cell after a write of another. -/
theorem Memory.read_write (m : Memory) (a c : Nat) (b : Byte) :
    (m.write a b).read c = if c = a then some b else m.read c := by
  split
  · subst_vars; exact m.read_write_same _ b
  · exact m.read_write_other a c b ‹_›

theorem Memory.wfFrom_write (m : Memory) (lo a : Nat) (b : Byte) (ha : lo ≤ a)
    (h : m.wfFrom lo = true) : (m.write a b).wfFrom lo = true := by
  induction m generalizing lo with
  | nil => simp [Memory.write, Memory.wfFrom, ha]
  | cons x rest ih =>
    obtain ⟨k, v⟩ := x
    simp only [Memory.wfFrom, Bool.and_eq_true, decide_eq_true_eq] at h
    simp only [Memory.write]
    split
    · simp [Memory.wfFrom, ha, h.2]; omega
    · split
      · subst_vars; simp [Memory.wfFrom, ha, h.2]
      · simp [Memory.wfFrom, h.1, ih (k + 1) (by omega) h.2]

/-- A write keeps the canonical form. -/
theorem Memory.wf_write (m : Memory) (a : Nat) (b : Byte) (h : m.wf = true) : (m.write a b).wf = true :=
  m.wfFrom_write 0 a b (Nat.zero_le a) h

/-- The entries after a write: the written one, or entries that stood before. -/
theorem Memory.mem_write (m : Memory) (a : Nat) (b : Byte) (c : Host.Cell) (h : c ∈ m.write a b) :
    c = (a, b) ∨ c ∈ m := by
  induction m with
  | nil => simp_all [Memory.write]
  | cons x rest ih =>
    obtain ⟨k, v⟩ := x
    simp only [Memory.write] at h
    split at h
    · simp_all
    · split at h
      · simp at h ⊢; tauto
      · simp at h ⊢; tauto

/-- A write inside a space keeps every entry inside it. -/
theorem Memory.bounded_write (m : Memory) (n a : Nat) (b : Byte) (ha : a < n)
    (h : ∀ c ∈ m, c.1 < n) : ∀ c ∈ m.write a b, c.1 < n := by
  intro c hc
  rcases m.mem_write a b c hc with rfl | hc
  · exact ha
  · exact h c hc

theorem Memory.wfFrom_ofBytes (bs : List Byte) (a lo : Nat) (h : lo ≤ a) :
    (Memory.ofBytes a bs).wfFrom lo = true := by
  induction bs generalizing a lo with
  | nil => rfl
  | cons b bs ih => simp [Memory.ofBytes, Memory.wfFrom, h, ih]

/-- The literal buffer's contents are in canonical form. -/
theorem Memory.wf_ofBytes (a : Nat) (bs : List Byte) : (Memory.ofBytes a bs).wf = true :=
  Memory.wfFrom_ofBytes bs a 0 (Nat.zero_le a)

theorem Memory.bounded_ofBytes (bs : List Byte) (a : Nat) :
    ∀ c ∈ Memory.ofBytes a bs, a ≤ c.1 ∧ c.1 < a + bs.length := by
  induction bs generalizing a with
  | nil => simp [Memory.ofBytes]
  | cons b bs ih =>
    intro c hc
    simp only [Memory.ofBytes, List.mem_cons] at hc
    rcases hc with rfl | hc
    · simp
    · have := ih (a + 1) c hc
      simp only [List.length_cons]
      omega

/-- The cells that a byte sequence fills. -/
theorem Memory.read_ofBytes (bs : List Byte) (a i : Nat) :
    (Memory.ofBytes a bs).read i = if a ≤ i then bs[i - a]? else none := by
  induction bs generalizing a with
  | nil => simp [Memory.ofBytes]
  | cons b bs ih =>
    simp only [Memory.ofBytes, Memory.read, ih]
    by_cases h : i = a
    · subst h; simp
    · by_cases h2 : a ≤ i
      · obtain ⟨j, hj⟩ : ∃ j, i - a = j + 1 := ⟨i - a - 1, by omega⟩
        have : i - (a + 1) = j := by omega
        simp [h, h2, hj, this, show a + 1 ≤ i by omega]
      · simp [h, h2]; omega

/-- The reset memories are canonical. -/
theorem State.reset_memory_wf : State.reset.mb.wf = true ∧ State.reset.lit.wf = true := ⟨rfl, rfl⟩

end Sys2Proof.Machine
end

