-- ==== Sys2Proof/Laws/State.lean ====
section
/-! SUPPORT. The fields of each named update of the state, so that no proof unfolds a record. -/

namespace Sys2Proof.Machine

/-! ### `raise` -/

@[simp] theorem raise_ringSize (s : State) (r : Reason) : (raise s r).ringSize = s.ringSize := rfl
@[simp] theorem raise_tableCapacity (s : State) (r : Reason) :
    (raise s r).tableCapacity = s.tableCapacity := rfl
@[simp] theorem raise_src (s : State) (r : Reason) : (raise s r).src = s.src := rfl
@[simp] theorem raise_out (s : State) (r : Reason) : (raise s r).out = s.out := rfl
@[simp] theorem raise_eos (s : State) (r : Reason) : (raise s r).eos = s.eos := rfl
@[simp] theorem raise_fault (s : State) (r : Reason) : (raise s r).fault = some ⟨r.cls, r⟩ := rfl
@[simp] theorem raise_spos (s : State) (r : Reason) : (raise s r).spos = s.spos := rfl
@[simp] theorem raise_active (s : State) (r : Reason) : (raise s r).active = s.active := rfl
@[simp] theorem raise_phase (s : State) (r : Reason) : (raise s r).phase = .idle := rfl
@[simp] theorem raise_outTotal (s : State) (r : Reason) : (raise s r).outTotal = s.outTotal := rfl
@[simp] theorem raise_mb (s : State) (r : Reason) : (raise s r).mb = s.mb := rfl
@[simp] theorem raise_mcur (s : State) (r : Reason) : (raise s r).mcur = s.mcur := rfl
@[simp] theorem raise_blk (s : State) (r : Reason) : (raise s r).blk = s.blk := rfl
@[simp] theorem raise_L (s : State) (r : Reason) : (raise s r).L = s.L := rfl
@[simp] theorem raise_M (s : State) (r : Reason) : (raise s r).M = s.M := rfl
@[simp] theorem raise_D (s : State) (r : Reason) : (raise s r).D = s.D := rfl
@[simp] theorem raise_lit (s : State) (r : Reason) : (raise s r).lit = s.lit := rfl
@[simp] theorem raise_lzfse (s : State) (r : Reason) : (raise s r).lzfse = s.lzfse := rfl
@[simp] theorem raise_lzvn (s : State) (r : Reason) : (raise s r).lzvn = s.lzvn := rfl
@[simp] theorem raise_raw (s : State) (r : Reason) : (raise s r).raw = s.raw := rfl
@[simp] theorem raise_hdr (s : State) (r : Reason) : (raise s r).hdr = s.hdr := rfl
@[simp] theorem raise_hs (s : State) (r : Reason) : (raise s r).hs = s.hs := rfl
@[simp] theorem raise_vlc (s : State) (r : Reason) : (raise s r).vlc = s.vlc := rfl
@[simp] theorem raise_draws (s : State) (r : Reason) : (raise s r).draws = s.draws := rfl

/-! ### `emit` -/

@[simp] theorem emit_ringSize (b : Byte) (s : State) : (emit b s).ringSize = s.ringSize := rfl
@[simp] theorem emit_tableCapacity (b : Byte) (s : State) :
    (emit b s).tableCapacity = s.tableCapacity := rfl
@[simp] theorem emit_src (b : Byte) (s : State) : (emit b s).src = s.src := rfl
@[simp] theorem emit_out (b : Byte) (s : State) : (emit b s).out = s.out ++ [b] := rfl
@[simp] theorem emit_eos (b : Byte) (s : State) : (emit b s).eos = s.eos := rfl
@[simp] theorem emit_fault (b : Byte) (s : State) : (emit b s).fault = s.fault := rfl
@[simp] theorem emit_spos (b : Byte) (s : State) : (emit b s).spos = s.spos := rfl
@[simp] theorem emit_active (b : Byte) (s : State) : (emit b s).active = s.active := rfl
@[simp] theorem emit_phase (b : Byte) (s : State) : (emit b s).phase = s.phase := rfl
@[simp] theorem emit_outTotal (b : Byte) (s : State) : (emit b s).outTotal = s.outTotal := rfl
@[simp] theorem emit_mb (b : Byte) (s : State) : (emit b s).mb = s.mb := rfl
@[simp] theorem emit_mcur (b : Byte) (s : State) : (emit b s).mcur = s.mcur := rfl
@[simp] theorem emit_blk (b : Byte) (s : State) : (emit b s).blk = s.blk := rfl
@[simp] theorem emit_L (b : Byte) (s : State) : (emit b s).L = s.L := rfl
@[simp] theorem emit_M (b : Byte) (s : State) : (emit b s).M = s.M := rfl
@[simp] theorem emit_D (b : Byte) (s : State) : (emit b s).D = s.D := rfl
@[simp] theorem emit_lit (b : Byte) (s : State) : (emit b s).lit = s.lit := rfl
@[simp] theorem emit_lzfse (b : Byte) (s : State) : (emit b s).lzfse = s.lzfse := rfl
@[simp] theorem emit_lzvn (b : Byte) (s : State) : (emit b s).lzvn = s.lzvn := rfl
@[simp] theorem emit_raw (b : Byte) (s : State) : (emit b s).raw = s.raw := rfl
@[simp] theorem emit_hdr (b : Byte) (s : State) : (emit b s).hdr = s.hdr := rfl
@[simp] theorem emit_hs (b : Byte) (s : State) : (emit b s).hs = s.hs := rfl
@[simp] theorem emit_vlc (b : Byte) (s : State) : (emit b s).vlc = s.vlc := rfl
@[simp] theorem emit_draws (b : Byte) (s : State) : (emit b s).draws = s.draws := rfl

/-! ### `ringWrite` -/

@[simp] theorem ringWrite_ringSize (b : Byte) (s : State) : (ringWrite b s).ringSize = s.ringSize := rfl
@[simp] theorem ringWrite_tableCapacity (b : Byte) (s : State) :
    (ringWrite b s).tableCapacity = s.tableCapacity := rfl
@[simp] theorem ringWrite_src (b : Byte) (s : State) : (ringWrite b s).src = s.src := rfl
@[simp] theorem ringWrite_out (b : Byte) (s : State) : (ringWrite b s).out = s.out ++ [b] := rfl
@[simp] theorem ringWrite_eos (b : Byte) (s : State) : (ringWrite b s).eos = s.eos := rfl
@[simp] theorem ringWrite_fault (b : Byte) (s : State) : (ringWrite b s).fault = s.fault := rfl
@[simp] theorem ringWrite_spos (b : Byte) (s : State) : (ringWrite b s).spos = s.spos := rfl
@[simp] theorem ringWrite_active (b : Byte) (s : State) : (ringWrite b s).active = s.active := rfl
@[simp] theorem ringWrite_phase (b : Byte) (s : State) : (ringWrite b s).phase = s.phase := rfl
@[simp] theorem ringWrite_outTotal (b : Byte) (s : State) :
    (ringWrite b s).outTotal = s.outTotal + 1 := rfl
@[simp] theorem ringWrite_mb (b : Byte) (s : State) : (ringWrite b s).mb = s.mb.write s.mcur b := rfl
@[simp] theorem ringWrite_mcur (b : Byte) (s : State) :
    (ringWrite b s).mcur = ringAddr s.ringSize (s.mcur + 1) := rfl
@[simp] theorem ringWrite_blk (b : Byte) (s : State) :
    (ringWrite b s).blk = { s.blk with out := s.blk.out + 1 } := rfl
@[simp] theorem ringWrite_L (b : Byte) (s : State) : (ringWrite b s).L = s.L := rfl
@[simp] theorem ringWrite_M (b : Byte) (s : State) : (ringWrite b s).M = s.M := rfl
@[simp] theorem ringWrite_D (b : Byte) (s : State) : (ringWrite b s).D = s.D := rfl
@[simp] theorem ringWrite_lit (b : Byte) (s : State) : (ringWrite b s).lit = s.lit := rfl
@[simp] theorem ringWrite_lzfse (b : Byte) (s : State) : (ringWrite b s).lzfse = s.lzfse := rfl
@[simp] theorem ringWrite_lzvn (b : Byte) (s : State) : (ringWrite b s).lzvn = s.lzvn := rfl
@[simp] theorem ringWrite_raw (b : Byte) (s : State) : (ringWrite b s).raw = s.raw := rfl
@[simp] theorem ringWrite_hdr (b : Byte) (s : State) : (ringWrite b s).hdr = s.hdr := rfl
@[simp] theorem ringWrite_hs (b : Byte) (s : State) : (ringWrite b s).hs = s.hs := rfl
@[simp] theorem ringWrite_vlc (b : Byte) (s : State) : (ringWrite b s).vlc = s.vlc := rfl
@[simp] theorem ringWrite_draws (b : Byte) (s : State) : (ringWrite b s).draws = s.draws := rfl

/-! ### `setEos` -/

@[simp] theorem setEos_ringSize (s : State) : (setEos s).ringSize = s.ringSize := rfl
@[simp] theorem setEos_tableCapacity (s : State) : (setEos s).tableCapacity = s.tableCapacity := rfl
@[simp] theorem setEos_src (s : State) : (setEos s).src = s.src := rfl
@[simp] theorem setEos_out (s : State) : (setEos s).out = s.out := rfl
@[simp] theorem setEos_eos (s : State) : (setEos s).eos = true := rfl
@[simp] theorem setEos_fault (s : State) : (setEos s).fault = s.fault := rfl
@[simp] theorem setEos_spos (s : State) : (setEos s).spos = s.spos := rfl
@[simp] theorem setEos_active (s : State) : (setEos s).active = s.active := rfl
@[simp] theorem setEos_phase (s : State) : (setEos s).phase = s.phase := rfl
@[simp] theorem setEos_outTotal (s : State) : (setEos s).outTotal = s.outTotal := rfl
@[simp] theorem setEos_mb (s : State) : (setEos s).mb = s.mb := rfl
@[simp] theorem setEos_mcur (s : State) : (setEos s).mcur = s.mcur := rfl
@[simp] theorem setEos_blk (s : State) : (setEos s).blk = s.blk := rfl
@[simp] theorem setEos_L (s : State) : (setEos s).L = s.L := rfl
@[simp] theorem setEos_M (s : State) : (setEos s).M = s.M := rfl
@[simp] theorem setEos_D (s : State) : (setEos s).D = s.D := rfl
@[simp] theorem setEos_lit (s : State) : (setEos s).lit = s.lit := rfl
@[simp] theorem setEos_lzfse (s : State) : (setEos s).lzfse = s.lzfse := rfl
@[simp] theorem setEos_lzvn (s : State) : (setEos s).lzvn = s.lzvn := rfl
@[simp] theorem setEos_raw (s : State) : (setEos s).raw = s.raw := rfl
@[simp] theorem setEos_hdr (s : State) : (setEos s).hdr = s.hdr := rfl
@[simp] theorem setEos_hs (s : State) : (setEos s).hs = s.hs := rfl
@[simp] theorem setEos_vlc (s : State) : (setEos s).vlc = s.vlc := rfl
@[simp] theorem setEos_draws (s : State) : (setEos s).draws = s.draws := rfl

/-! ### `afterMagic` -/

@[simp] theorem afterMagic_ringSize (bs : List Byte) (s : State) :
    (afterMagic bs s).ringSize = s.ringSize := rfl
@[simp] theorem afterMagic_tableCapacity (bs : List Byte) (s : State) :
    (afterMagic bs s).tableCapacity = s.tableCapacity := rfl
@[simp] theorem afterMagic_src (bs : List Byte) (s : State) : (afterMagic bs s).src = s.src := rfl
@[simp] theorem afterMagic_out (bs : List Byte) (s : State) : (afterMagic bs s).out = s.out := rfl
@[simp] theorem afterMagic_eos (bs : List Byte) (s : State) : (afterMagic bs s).eos = s.eos := rfl
@[simp] theorem afterMagic_fault (bs : List Byte) (s : State) : (afterMagic bs s).fault = s.fault := rfl
@[simp] theorem afterMagic_spos (bs : List Byte) (s : State) : (afterMagic bs s).spos = s.spos := rfl
@[simp] theorem afterMagic_active (bs : List Byte) (s : State) :
    (afterMagic bs s).active = s.active := rfl
@[simp] theorem afterMagic_phase (bs : List Byte) (s : State) : (afterMagic bs s).phase = s.phase := rfl
@[simp] theorem afterMagic_outTotal (bs : List Byte) (s : State) :
    (afterMagic bs s).outTotal = s.outTotal := rfl
@[simp] theorem afterMagic_mb (bs : List Byte) (s : State) : (afterMagic bs s).mb = s.mb := rfl
@[simp] theorem afterMagic_mcur (bs : List Byte) (s : State) : (afterMagic bs s).mcur = s.mcur := rfl
@[simp] theorem afterMagic_blk (bs : List Byte) (s : State) : (afterMagic bs s).blk = s.blk := rfl
@[simp] theorem afterMagic_L (bs : List Byte) (s : State) : (afterMagic bs s).L = s.L := rfl
@[simp] theorem afterMagic_M (bs : List Byte) (s : State) : (afterMagic bs s).M = s.M := rfl
@[simp] theorem afterMagic_D (bs : List Byte) (s : State) : (afterMagic bs s).D = s.D := rfl
@[simp] theorem afterMagic_lit (bs : List Byte) (s : State) : (afterMagic bs s).lit = s.lit := rfl
@[simp] theorem afterMagic_lzfse (bs : List Byte) (s : State) : (afterMagic bs s).lzfse = s.lzfse := rfl
@[simp] theorem afterMagic_lzvn (bs : List Byte) (s : State) : (afterMagic bs s).lzvn = s.lzvn := rfl
@[simp] theorem afterMagic_raw (bs : List Byte) (s : State) : (afterMagic bs s).raw = s.raw := rfl
@[simp] theorem afterMagic_hdr (bs : List Byte) (s : State) : (afterMagic bs s).hdr = s.hdr := rfl
@[simp] theorem afterMagic_hs (bs : List Byte) (s : State) : (afterMagic bs s).hs = bs := rfl
@[simp] theorem afterMagic_vlc (bs : List Byte) (s : State) : (afterMagic bs s).vlc = s.vlc := rfl
@[simp] theorem afterMagic_draws (bs : List Byte) (s : State) : (afterMagic bs s).draws = s.draws := rfl

/-! ### `vlcRefilled` -/

@[simp] theorem vlcRefilled_ringSize (s : State) : (vlcRefilled s).ringSize = s.ringSize := rfl
@[simp] theorem vlcRefilled_tableCapacity (s : State) :
    (vlcRefilled s).tableCapacity = s.tableCapacity := rfl
@[simp] theorem vlcRefilled_src (s : State) : (vlcRefilled s).src = s.src := rfl
@[simp] theorem vlcRefilled_out (s : State) : (vlcRefilled s).out = s.out := rfl
@[simp] theorem vlcRefilled_eos (s : State) : (vlcRefilled s).eos = s.eos := rfl
@[simp] theorem vlcRefilled_fault (s : State) : (vlcRefilled s).fault = s.fault := rfl
@[simp] theorem vlcRefilled_spos (s : State) : (vlcRefilled s).spos = s.spos := rfl
@[simp] theorem vlcRefilled_active (s : State) : (vlcRefilled s).active = s.active := rfl
@[simp] theorem vlcRefilled_phase (s : State) : (vlcRefilled s).phase = s.phase := rfl
@[simp] theorem vlcRefilled_outTotal (s : State) : (vlcRefilled s).outTotal = s.outTotal := rfl
@[simp] theorem vlcRefilled_mb (s : State) : (vlcRefilled s).mb = s.mb := rfl
@[simp] theorem vlcRefilled_mcur (s : State) : (vlcRefilled s).mcur = s.mcur := rfl
@[simp] theorem vlcRefilled_blk (s : State) : (vlcRefilled s).blk = s.blk := rfl
@[simp] theorem vlcRefilled_L (s : State) : (vlcRefilled s).L = s.L := rfl
@[simp] theorem vlcRefilled_M (s : State) : (vlcRefilled s).M = s.M := rfl
@[simp] theorem vlcRefilled_D (s : State) : (vlcRefilled s).D = s.D := rfl
@[simp] theorem vlcRefilled_lit (s : State) : (vlcRefilled s).lit = s.lit := rfl
@[simp] theorem vlcRefilled_lzfse (s : State) : (vlcRefilled s).lzfse = s.lzfse := rfl
@[simp] theorem vlcRefilled_lzvn (s : State) : (vlcRefilled s).lzvn = s.lzvn := rfl
@[simp] theorem vlcRefilled_raw (s : State) : (vlcRefilled s).raw = s.raw := rfl
@[simp] theorem vlcRefilled_hdr (s : State) : (vlcRefilled s).hdr = s.hdr := rfl
@[simp] theorem vlcRefilled_hs (s : State) : (vlcRefilled s).hs = s.hs := rfl
@[simp] theorem vlcRefilled_vlc (s : State) :
    (vlcRefilled s).vlc = Vlc.refill (vlcBlob s) 4 s.vlc := rfl
@[simp] theorem vlcRefilled_draws (s : State) : (vlcRefilled s).draws = s.draws := rfl

/-! ### `lzvnStarted` -/

@[simp] theorem lzvnStarted_ringSize (vp : List Byte) (s : State) :
    (lzvnStarted vp s).ringSize = s.ringSize := rfl
@[simp] theorem lzvnStarted_tableCapacity (vp : List Byte) (s : State) :
    (lzvnStarted vp s).tableCapacity = s.tableCapacity := rfl
@[simp] theorem lzvnStarted_src (vp : List Byte) (s : State) : (lzvnStarted vp s).src = s.src := rfl
@[simp] theorem lzvnStarted_out (vp : List Byte) (s : State) : (lzvnStarted vp s).out = s.out := rfl
@[simp] theorem lzvnStarted_eos (vp : List Byte) (s : State) : (lzvnStarted vp s).eos = s.eos := rfl
@[simp] theorem lzvnStarted_fault (vp : List Byte) (s : State) :
    (lzvnStarted vp s).fault = s.fault := rfl
@[simp] theorem lzvnStarted_spos (vp : List Byte) (s : State) : (lzvnStarted vp s).spos = s.spos := rfl
@[simp] theorem lzvnStarted_active (vp : List Byte) (s : State) :
    (lzvnStarted vp s).active = .lzvn := rfl
@[simp] theorem lzvnStarted_phase (vp : List Byte) (s : State) : (lzvnStarted vp s).phase = .idle := rfl
@[simp] theorem lzvnStarted_outTotal (vp : List Byte) (s : State) :
    (lzvnStarted vp s).outTotal = s.outTotal := rfl
@[simp] theorem lzvnStarted_mb (vp : List Byte) (s : State) : (lzvnStarted vp s).mb = s.mb := rfl
@[simp] theorem lzvnStarted_mcur (vp : List Byte) (s : State) : (lzvnStarted vp s).mcur = s.mcur := rfl
@[simp] theorem lzvnStarted_blk (vp : List Byte) (s : State) :
    (lzvnStarted vp s).blk = ⟨s.hdr.nRawBytes, 0⟩ := rfl
@[simp] theorem lzvnStarted_L (vp : List Byte) (s : State) : (lzvnStarted vp s).L = 0 := rfl
@[simp] theorem lzvnStarted_M (vp : List Byte) (s : State) : (lzvnStarted vp s).M = 0 := rfl
@[simp] theorem lzvnStarted_D (vp : List Byte) (s : State) : (lzvnStarted vp s).D = 0 := rfl
@[simp] theorem lzvnStarted_lit (vp : List Byte) (s : State) : (lzvnStarted vp s).lit = s.lit := rfl
@[simp] theorem lzvnStarted_lzfse (vp : List Byte) (s : State) :
    (lzvnStarted vp s).lzfse = s.lzfse := rfl
@[simp] theorem lzvnStarted_lzvn (vp : List Byte) (s : State) : (lzvnStarted vp s).lzvn = ⟨vp, 0⟩ := rfl
@[simp] theorem lzvnStarted_raw (vp : List Byte) (s : State) : (lzvnStarted vp s).raw = s.raw := rfl
@[simp] theorem lzvnStarted_hdr (vp : List Byte) (s : State) : (lzvnStarted vp s).hdr = s.hdr := rfl
@[simp] theorem lzvnStarted_hs (vp : List Byte) (s : State) : (lzvnStarted vp s).hs = s.hs := rfl
@[simp] theorem lzvnStarted_vlc (vp : List Byte) (s : State) : (lzvnStarted vp s).vlc = s.vlc := rfl
@[simp] theorem lzvnStarted_draws (vp : List Byte) (s : State) :
    (lzvnStarted vp s).draws = s.draws := rfl

/-! ### `rawStarted` -/

@[simp] theorem rawStarted_ringSize (rp : List Byte) (s : State) :
    (rawStarted rp s).ringSize = s.ringSize := rfl
@[simp] theorem rawStarted_tableCapacity (rp : List Byte) (s : State) :
    (rawStarted rp s).tableCapacity = s.tableCapacity := rfl
@[simp] theorem rawStarted_src (rp : List Byte) (s : State) : (rawStarted rp s).src = s.src := rfl
@[simp] theorem rawStarted_out (rp : List Byte) (s : State) : (rawStarted rp s).out = s.out := rfl
@[simp] theorem rawStarted_eos (rp : List Byte) (s : State) : (rawStarted rp s).eos = s.eos := rfl
@[simp] theorem rawStarted_fault (rp : List Byte) (s : State) : (rawStarted rp s).fault = s.fault := rfl
@[simp] theorem rawStarted_spos (rp : List Byte) (s : State) : (rawStarted rp s).spos = s.spos := rfl
@[simp] theorem rawStarted_active (rp : List Byte) (s : State) : (rawStarted rp s).active = .raw := rfl
@[simp] theorem rawStarted_phase (rp : List Byte) (s : State) : (rawStarted rp s).phase = .idle := rfl
@[simp] theorem rawStarted_outTotal (rp : List Byte) (s : State) :
    (rawStarted rp s).outTotal = s.outTotal := rfl
@[simp] theorem rawStarted_mb (rp : List Byte) (s : State) : (rawStarted rp s).mb = s.mb := rfl
@[simp] theorem rawStarted_mcur (rp : List Byte) (s : State) : (rawStarted rp s).mcur = s.mcur := rfl
@[simp] theorem rawStarted_blk (rp : List Byte) (s : State) :
    (rawStarted rp s).blk = ⟨s.hdr.nRawBytes, 0⟩ := rfl
@[simp] theorem rawStarted_L (rp : List Byte) (s : State) : (rawStarted rp s).L = s.hdr.nRawBytes := rfl
@[simp] theorem rawStarted_M (rp : List Byte) (s : State) : (rawStarted rp s).M = 0 := rfl
@[simp] theorem rawStarted_D (rp : List Byte) (s : State) : (rawStarted rp s).D = 0 := rfl
@[simp] theorem rawStarted_lit (rp : List Byte) (s : State) : (rawStarted rp s).lit = s.lit := rfl
@[simp] theorem rawStarted_lzfse (rp : List Byte) (s : State) : (rawStarted rp s).lzfse = s.lzfse := rfl
@[simp] theorem rawStarted_lzvn (rp : List Byte) (s : State) : (rawStarted rp s).lzvn = s.lzvn := rfl
@[simp] theorem rawStarted_raw (rp : List Byte) (s : State) : (rawStarted rp s).raw = ⟨rp, 0⟩ := rfl
@[simp] theorem rawStarted_hdr (rp : List Byte) (s : State) : (rawStarted rp s).hdr = s.hdr := rfl
@[simp] theorem rawStarted_hs (rp : List Byte) (s : State) : (rawStarted rp s).hs = s.hs := rfl
@[simp] theorem rawStarted_vlc (rp : List Byte) (s : State) : (rawStarted rp s).vlc = s.vlc := rfl
@[simp] theorem rawStarted_draws (rp : List Byte) (s : State) : (rawStarted rp s).draws = s.draws := rfl

/-! ### `updateD` -/

@[simp] theorem updateD_ringSize (d : Nat) (s : State) : (updateD d s).ringSize = s.ringSize := by
  unfold updateD; split <;> rfl
@[simp] theorem updateD_tableCapacity (d : Nat) (s : State) : (updateD d s).tableCapacity = s.tableCapacity := by
  unfold updateD; split <;> rfl
@[simp] theorem updateD_src (d : Nat) (s : State) : (updateD d s).src = s.src := by
  unfold updateD; split <;> rfl
@[simp] theorem updateD_out (d : Nat) (s : State) : (updateD d s).out = s.out := by
  unfold updateD; split <;> rfl
@[simp] theorem updateD_eos (d : Nat) (s : State) : (updateD d s).eos = s.eos := by
  unfold updateD; split <;> rfl
@[simp] theorem updateD_fault (d : Nat) (s : State) : (updateD d s).fault = s.fault := by
  unfold updateD; split <;> rfl
@[simp] theorem updateD_spos (d : Nat) (s : State) : (updateD d s).spos = s.spos := by
  unfold updateD; split <;> rfl
@[simp] theorem updateD_active (d : Nat) (s : State) : (updateD d s).active = s.active := by
  unfold updateD; split <;> rfl
@[simp] theorem updateD_phase (d : Nat) (s : State) : (updateD d s).phase = s.phase := by
  unfold updateD; split <;> rfl
@[simp] theorem updateD_outTotal (d : Nat) (s : State) : (updateD d s).outTotal = s.outTotal := by
  unfold updateD; split <;> rfl
@[simp] theorem updateD_mb (d : Nat) (s : State) : (updateD d s).mb = s.mb := by
  unfold updateD; split <;> rfl
@[simp] theorem updateD_mcur (d : Nat) (s : State) : (updateD d s).mcur = s.mcur := by
  unfold updateD; split <;> rfl
@[simp] theorem updateD_blk (d : Nat) (s : State) : (updateD d s).blk = s.blk := by
  unfold updateD; split <;> rfl
@[simp] theorem updateD_L (d : Nat) (s : State) : (updateD d s).L = s.L := by
  unfold updateD; split <;> rfl
@[simp] theorem updateD_M (d : Nat) (s : State) : (updateD d s).M = s.M := by
  unfold updateD; split <;> rfl
@[simp] theorem updateD_D (d : Nat) (s : State) :
    (updateD d s).D = if d = 0 then s.D else d := by
  unfold updateD; split <;> rfl
@[simp] theorem updateD_lit (d : Nat) (s : State) : (updateD d s).lit = s.lit := by
  unfold updateD; split <;> rfl
@[simp] theorem updateD_lzfse (d : Nat) (s : State) : (updateD d s).lzfse = s.lzfse := by
  unfold updateD; split <;> rfl
@[simp] theorem updateD_lzvn (d : Nat) (s : State) : (updateD d s).lzvn = s.lzvn := by
  unfold updateD; split <;> rfl
@[simp] theorem updateD_raw (d : Nat) (s : State) : (updateD d s).raw = s.raw := by
  unfold updateD; split <;> rfl
@[simp] theorem updateD_hdr (d : Nat) (s : State) : (updateD d s).hdr = s.hdr := by
  unfold updateD; split <;> rfl
@[simp] theorem updateD_hs (d : Nat) (s : State) : (updateD d s).hs = s.hs := by
  unfold updateD; split <;> rfl
@[simp] theorem updateD_vlc (d : Nat) (s : State) : (updateD d s).vlc = s.vlc := by
  unfold updateD; split <;> rfl
@[simp] theorem updateD_draws (d : Nat) (s : State) : (updateD d s).draws = s.draws := by
  unfold updateD; split <;> rfl

/-! ### The initial state -/

@[simp] theorem initial_ringSize (n cap : Nat) (src : List Byte) :
    (State.initial n cap src).ringSize = n := rfl
@[simp] theorem initial_tableCapacity (n cap : Nat) (src : List Byte) :
    (State.initial n cap src).tableCapacity = cap := rfl
@[simp] theorem initial_src (n cap : Nat) (src : List Byte) :
    (State.initial n cap src).src = src := rfl
@[simp] theorem initial_out (n cap : Nat) (src : List Byte) :
    (State.initial n cap src).out = [] := rfl
@[simp] theorem initial_eos (n cap : Nat) (src : List Byte) :
    (State.initial n cap src).eos = false := rfl
@[simp] theorem initial_fault (n cap : Nat) (src : List Byte) :
    (State.initial n cap src).fault = none := rfl
@[simp] theorem initial_spos (n cap : Nat) (src : List Byte) :
    (State.initial n cap src).spos = 0 := rfl
@[simp] theorem initial_active (n cap : Nat) (src : List Byte) :
    (State.initial n cap src).active = .noBlock := rfl
@[simp] theorem initial_phase (n cap : Nat) (src : List Byte) :
    (State.initial n cap src).phase = .idle := rfl
@[simp] theorem initial_outTotal (n cap : Nat) (src : List Byte) :
    (State.initial n cap src).outTotal = 0 := rfl
@[simp] theorem initial_mb (n cap : Nat) (src : List Byte) :
    (State.initial n cap src).mb = [] := rfl
@[simp] theorem initial_mcur (n cap : Nat) (src : List Byte) :
    (State.initial n cap src).mcur = 0 := rfl
@[simp] theorem initial_blk (n cap : Nat) (src : List Byte) :
    (State.initial n cap src).blk = ⟨0, 0⟩ := rfl
@[simp] theorem initial_L (n cap : Nat) (src : List Byte) :
    (State.initial n cap src).L = 0 := rfl
@[simp] theorem initial_M (n cap : Nat) (src : List Byte) :
    (State.initial n cap src).M = 0 := rfl
@[simp] theorem initial_D (n cap : Nat) (src : List Byte) :
    (State.initial n cap src).D = 0 := rfl
@[simp] theorem initial_lit (n cap : Nat) (src : List Byte) :
    (State.initial n cap src).lit = [] := rfl
@[simp] theorem initial_lzfse (n cap : Nat) (src : List Byte) :
    (State.initial n cap src).lzfse = Lzfse.zero := rfl
@[simp] theorem initial_lzvn (n cap : Nat) (src : List Byte) :
    (State.initial n cap src).lzvn = ⟨[], 0⟩ := rfl
@[simp] theorem initial_raw (n cap : Nat) (src : List Byte) :
    (State.initial n cap src).raw = ⟨[], 0⟩ := rfl
@[simp] theorem initial_hdr (n cap : Nat) (src : List Byte) :
    (State.initial n cap src).hdr = Header.zero := rfl
@[simp] theorem initial_hs (n cap : Nat) (src : List Byte) :
    (State.initial n cap src).hs = [] := rfl
@[simp] theorem initial_vlc (n cap : Nat) (src : List Byte) :
    (State.initial n cap src).vlc = ⟨0, 0, 0, []⟩ := rfl
@[simp] theorem initial_draws (n cap : Nat) (src : List Byte) :
    (State.initial n cap src).draws = 0 := rfl

end Sys2Proof.Machine
end

