-- ==== Sys2Proof/Laws/Ops.lean ====
section
/-! SUPPORT. What the shared operations can do, said once: the checks and reads inside an instruction, the
ring write, the acceptance of a triple and the end of a block. -/

namespace Sys2Proof.Machine

/-- Every next state an outcome can be has the property. -/
def AllNext (P : State → Prop) (o : Host.Outcome State Fault Refusal) : Prop :=
  ∀ t, o = .next t → P t

theorem allNext_next {P : State → Prop} {t : State} (h : P t) : AllNext P (.next t) := by
  intro u hu
  cases hu
  exact h

theorem allNext_raising {α : Type} {P : State → Prop} {s : State} {x : Except Reason α}
    {k : α → Host.Outcome State Fault Refusal} (he : ∀ r, x = .error r → P (raise s r))
    (hk : ∀ a, x = .ok a → AllNext P (k a)) : AllNext P (raising s x k) := by
  cases x with
  | error r => exact allNext_next (he r rfl)
  | ok a => exact hk a rfl

theorem allNext_reading {P : State → Prop} {n : Nat} {s : State}
    {k : List Byte → State → Host.Outcome State Fault Refusal}
    (he : s.src.length < s.spos + n → P (raise s .t01))
    (hk : s.spos + n ≤ s.src.length →
      AllNext P (k ((s.src.drop s.spos).take n) { s with spos := s.spos + n })) :
    AllNext P (reading n s k) := by
  unfold reading srcRead
  split
  · rename_i h
    split at h
    · cases h
    · exact allNext_next (he (by omega))
  · rename_i h
    split at h
    · cases h; exact hk ‹_›
    · cases h

theorem allNext_readingHeader {P : State → Prop} {n : Nat} {s : State}
    {k : List Byte → State → Host.Outcome State Fault Refusal}
    (he : s.src.length < s.spos + n → P (raise s .t01))
    (hk : s.spos + n ≤ s.src.length →
      AllNext P (k ((s.src.drop s.spos).take n)
        { s with spos := s.spos + n, hs := (s.src.drop s.spos).take n })) :
    AllNext P (readingHeader n s k) :=
  allNext_reading he hk

@[simp] theorem raising_error {α : Type} (s : State) (r : Reason)
    (k : α → Host.Outcome State Fault Refusal) : raising s (.error r) k = .next (raise s r) := rfl

@[simp] theorem raising_ok {α : Type} (s : State) (a : α)
    (k : α → Host.Outcome State Fault Refusal) : raising s (.ok a) k = k a := rfl

/-- `SrcRead` where the source has the bytes. -/
theorem reading_ok {n : Nat} {s : State} {k : List Byte → State → Host.Outcome State Fault Refusal}
    (h : s.spos + n ≤ s.src.length) :
    reading n s k = k ((s.src.drop s.spos).take n) { s with spos := s.spos + n } := by
  simp [reading, srcRead, h]

/-- `SrcRead` where the source ends first. -/
theorem reading_short {n : Nat} {s : State} {k : List Byte → State → Host.Outcome State Fault Refusal}
    (h : s.src.length < s.spos + n) : reading n s k = .next (raise s .t01) := by
  simp [reading, srcRead, Nat.not_le.mpr h]

theorem readingHeader_ok {n : Nat} {s : State}
    {k : List Byte → State → Host.Outcome State Fault Refusal} (h : s.spos + n ≤ s.src.length) :
    readingHeader n s k = k ((s.src.drop s.spos).take n)
      { s with spos := s.spos + n, hs := (s.src.drop s.spos).take n } :=
  reading_ok h

theorem readingHeader_short {n : Nat} {s : State}
    {k : List Byte → State → Host.Outcome State Fault Refusal} (h : s.src.length < s.spos + n) :
    readingHeader n s k = .next (raise s .t01) :=
  reading_short h

/-! ### The ring -/

theorem ringAddr_lt {size : Nat} (h : 1 ≤ size) (x : Int) : ringAddr size x < size := by
  unfold ringAddr
  have h1 := Int.emod_nonneg x (b := (size : Int)) (by omega)
  have h2 := Int.emod_lt_of_pos x (b := (size : Int)) (by omega)
  omega

theorem ringAddr_natCast (size n : Nat) : ringAddr size (n : Int) = n % size := by
  unfold ringAddr
  omega

/-- For a power of two the mask is the remainder (log 9). -/
theorem ringAddr_mask (k n : Nat) : ringAddr (2 ^ k) (n : Int) = n &&& (2 ^ k - 1) := by
  rw [ringAddr_natCast, Nat.and_two_pow_sub_one_eq_mod]

@[simp] theorem ringWriteAll_nil (s : State) : ringWriteAll [] s = s := rfl

@[simp] theorem ringWriteAll_cons (b : Byte) (bs : List Byte) (s : State) :
    ringWriteAll (b :: bs) s = ringWriteAll bs (ringWrite b s) := rfl

@[simp] theorem ringWriteAll_ringSize (bs : List Byte) (s : State) :
    (ringWriteAll bs s).ringSize = s.ringSize := by
  induction bs generalizing s with
  | nil => rfl
  | cons b bs ih => simp [ih]

@[simp] theorem ringWriteAll_out (bs : List Byte) (s : State) :
    (ringWriteAll bs s).out = s.out ++ bs := by
  induction bs generalizing s with
  | nil => simp
  | cons b bs ih => simp [ih]

theorem ringMatch_eq {d : Nat} {s t : State} {b : Byte} (h : ringMatch d s = some (b, t)) :
    matchByte d s = some b ∧ t = ringWrite b s := by
  simp only [ringMatch, Option.map_eq_some_iff] at h
  obtain ⟨c, hc, he⟩ := h
  cases he
  exact ⟨hc, rfl⟩

/-! ### The LMD loop -/

/-- `acceptTriple`: the fault of the first failing check, or the triple taken. -/
theorem acceptTriple_cases (tr : Triple) (s : State) :
    (∃ r, tripleFault tr.l tr.m (updateD tr.newD s) = some r ∧
      acceptTriple tr s = raise (updateD tr.newD s) r) ∨
    (tripleFault tr.l tr.m (updateD tr.newD s) = none ∧
      acceptTriple tr s = { updateD tr.newD s with L := tr.l, M := tr.m }) := by
  unfold acceptTriple
  split
  · exact .inl ⟨_, ‹_›, rfl⟩
  · exact .inr ⟨‹_›, rfl⟩

/-- What a triple that faults nothing meets (R216, R221). -/
theorem tripleFault_none {l m : Nat} {s : State} (h : tripleFault l m s = none) :
    (s.active.isLzfse = true → s.lzfse.litPos + l ≤ s.lzfse.nLiterals) ∧
    s.blk.out + l + m ≤ s.blk.nRaw ∧
    (0 < m → 1 ≤ s.D ∧ s.D ≤ s.outTotal + l ∧ s.D ≤ s.ringSize) := by
  unfold tripleFault at h
  split at h
  · cases h
  split at h
  · cases h
  split at h
  · cases h
  refine ⟨fun hz => ?_, by omega, fun hm => by omega⟩
  by_contra hc
  exact ‹¬ (s.active.isLzfse = true ∧ _)› ⟨hz, by omega⟩

/-- Which reasons a triple can fault with. -/
theorem tripleFault_reason {l m : Nat} {s : State} {r : Reason} (h : tripleFault l m s = some r) :
    r = .f16 ∨ r = .f18 ∨ r = .f17 := by
  unfold tripleFault at h
  split at h
  · cases h; exact .inl rfl
  split at h
  · cases h; exact .inr (.inl rfl)
  split at h
  · cases h; exact .inr (.inr rfl)
  · cases h

/-- `blockDone`: F18, or the end of the block. -/
theorem blockDone_cases (s : State) :
    (s.blk.out ≠ s.blk.nRaw ∧ blockDone s = raise s .f18) ∨
    (s.blk.out = s.blk.nRaw ∧ blockDone s = { s with active := .noBlock, phase := .idle }) := by
  unfold blockDone
  split
  · exact .inl ⟨‹_›, rfl⟩
  · exact .inr ⟨not_not.mp ‹_›, rfl⟩

/-- `lzvnTriple`: F20, or the triple accepted with the cursor past the opcode. -/
theorem lzvnTriple_cases (n : Nat) (tr : Triple) (s : State) :
    (s.lzvn.vp.length < s.lzvn.vpos + n + tr.l ∧ lzvnTriple n tr s = .next (raise s .f20)) ∨
    (s.lzvn.vpos + n + tr.l ≤ s.lzvn.vp.length ∧
      lzvnTriple n tr s = .next (acceptTriple tr
        { s with lzvn := { s.lzvn with vpos := s.lzvn.vpos + n }, phase := .idle })) := by
  unfold lzvnTriple
  split
  · exact .inl ⟨‹_›, rfl⟩
  · exact .inr ⟨by omega, rfl⟩

/-- `nextLiteral`: the literal at the strategy's cursor, which advances. -/
theorem nextLiteral_cases {s t : State} {b : Byte} (h : nextLiteral s = .ok (b, t)) :
    (s.active.isLzfse = true ∧ s.lit.read s.lzfse.litPos = some b ∧
      t = { s with lzfse := { s.lzfse with litPos := s.lzfse.litPos + 1 } }) ∨
    (s.active = .lzvn ∧ s.lzvn.vp[s.lzvn.vpos]? = some b ∧
      t = { s with lzvn := { s.lzvn with vpos := s.lzvn.vpos + 1 } }) ∨
    (s.active = .raw ∧ s.raw.rp[s.raw.rpos]? = some b ∧
      t = { s with raw := { s.raw with rpos := s.raw.rpos + 1 } }) := by
  unfold nextLiteral at h
  split at h <;> first | (split at h <;> cases h) | cases h
  · exact .inl ⟨by simp [BlockKind.isLzfse, *], ‹_›, rfl⟩
  · exact .inl ⟨by simp [BlockKind.isLzfse, *], ‹_›, rfl⟩
  · exact .inr (.inl ⟨‹_›, ‹_›, rfl⟩)
  · exact .inr (.inr ⟨‹_›, ‹_›, rfl⟩)

/-- `emitLiteral`: a literal written to the ring. -/
theorem emitLiteral_cases {s t : State} (h : emitLiteral s = .ok t) :
    ∃ b s', nextLiteral s = .ok (b, s') ∧ t = { ringWrite b s' with L := s.L - 1 } := by
  unfold emitLiteral at h
  split at h
  · cases h
  · cases h; exact ⟨_, _, ‹_›, rfl⟩

/-- `emitMatch`: the byte `D` back written to the ring. -/
theorem emitMatch_cases {s t : State} (h : emitMatch s = .ok t) :
    ∃ b, matchByte s.D s = some b ∧ t = { ringWrite b s with M := s.M - 1 } := by
  unfold emitMatch at h
  split at h
  · cases h
  · cases h
    obtain ⟨h1, rfl⟩ := ringMatch_eq ‹_›
    exact ⟨_, h1, rfl⟩

/-- `takeCode`: F04, or one weight taken. -/
theorem takeCode_cases (width value : Nat) (s : State) :
    (s.vlc.nb < width ∧ takeCode width value s = .next (raise s .f04)) ∨
    (width ≤ s.vlc.nb ∧ takeCode width value s = .next { s with
      vlc := { s.vlc with
        acc := s.vlc.acc >>> width
        nb := s.vlc.nb - width
        weights := s.vlc.weights ++ [value] } }) := by
  unfold takeCode Vlc.take
  split
  · exact .inl ⟨‹_›, rfl⟩
  · exact .inr ⟨by omega, rfl⟩

/-- `finish`: the end checks passed (R185). -/
theorem Vlc.finish_ok {n : Nat} {v : Vlc} {ws : List Nat} (h : v.finish n = .ok ws) :
    v.acc = 0 ∧ v.nb < 8 ∧ v.p = n ∧ ws = v.weights := by
  unfold Vlc.finish at h
  split at h
  · cases h
  split at h
  · cases h
  · cases h; simp_all

end Sys2Proof.Machine
end

