-- ==== Sys2Proof/Laws/Entropy.lean ====
section
/-! SUPPORT. How the entropy engine's operations fail, the lengths the literal decoder gives, and the cases of
an LZFSE block's start. -/

namespace Sys2Proof.Machine

/-- At most 256 weights fail only by their sum (R131). -/
theorem buildTable_error {n ws r} (h : buildTable n ws = .error r) (hl : ws.length ≤ 256) : r = .f07 := by
  unfold buildTable at h
  rw [if_neg (by omega)] at h
  have : ∀ (ws : List Nat) sym tot r, buildSlots n sym tot ws = .error r → r = .f07 := by
    intro ws
    induction ws with
    | nil => intro _ _ _ h; cases h
    | cons w ws ih =>
      intro sym tot r h
      unfold buildSlots at h
      split at h
      · exact ih _ _ _ h
      · split at h
        · cases h; rfl
        · split at h
          · cases h; exact ih _ _ _ ‹_›
          · cases h
  split at h
  · cases h; exact this _ _ _ _ ‹_›
  · cases h

/-- A value table fails only by its weight sum (R131). -/
theorem buildValueTable_error {x : Stream} {n ws r} (h : buildValueTable x n ws = .error r) (hl : ws.length ≤ 256) : r = .f07 := by
  unfold buildValueTable at h
  split at h
  · cases h; exact buildTable_error ‹_› hl
  · cases h

/-- A block's builds fail only by a weight sum (R131, R182). -/
theorem buildTables_error {ws r} (h : buildTables ws = .error r) : r = .f07 := by
  unfold buildTables at h
  split at h
  · cases h; exact buildValueTable_error ‹_› (by rw [List.length_take]; omega)
  split at h
  · cases h; exact buildValueTable_error ‹_› (by rw [List.length_take]; omega)
  split at h
  · cases h; exact buildValueTable_error ‹_› (by rw [List.length_take]; omega)
  split at h
  · cases h; exact buildTable_error ‹_› (by simp)
  · cases h

/-- `fill` fails only by underrun (R127). -/
theorem fill_error {buf br r} (h : BitReader.fill buf br = .error r) : r = .f13 := by
  unfold BitReader.fill at h
  split at h
  · simp only at h
    split at h <;> cases h; rfl
  · cases h

/-- `lookup` fails by range or an empty slot (R132). -/
theorem lookup_error {α n} {t : List (Option α)} {st r} (h : lookup n t st = .error r) : r = .f11 ∨ r = .f12 := by
  unfold lookup at h
  split at h
  · cases h; simp
  · split at h <;> cases h; simp

/-- `read` fails only by T02 (R128). -/
theorem read_error {br : BitReader} {w r} (h : br.read w = .error r) : r = .t02 := by
  unfold BitReader.read at h
  split at h <;> cases h; rfl

/-- The state bits fail only by T02 (R133). -/
theorem nextState_error {e br r} (h : nextState e br = .error r) : r = .t02 := by
  unfold nextState at h
  split at h
  · cases h; exact read_error ‹_›
  · cases h

/-- How a value decode fails (R138). -/
theorem valueDecode_error {n t st br r} (h : valueDecode n t st br = .error r) : r = .f11 ∨ r = .f12 ∨ r = .t02 := by
  unfold valueDecode at h
  split at h
  · cases h; have := lookup_error ‹_›; tauto
  split at h
  · cases h; have := nextState_error ‹_›; tauto
  split at h
  · cases h; have := read_error ‹_›; tauto
  · cases h

/-- How a triple decode fails (R220). -/
theorem decodeTriple_error {z r} (h : decodeTriple z = .error r) : r = .f11 ∨ r = .f12 ∨ r = .t02 ∨ r = .f13 := by
  unfold decodeTriple at h
  split at h
  · cases h; have := fill_error ‹_›; tauto
  split at h
  · cases h; have := valueDecode_error ‹_›; tauto
  split at h
  · cases h; have := valueDecode_error ‹_›; tauto
  split at h
  · cases h; have := valueDecode_error ‹_›; tauto
  · cases h

/-- A literal quad gives four bytes (R140). -/
theorem literalQuad_length {tlit lp z br bs z' br'} (h : literalQuad tlit lp z br = .ok (bs, z', br')) :
    bs.length = 4 := by
  unfold literalQuad at h
  repeat (split at h; · cases h)
  cases h; rfl

/-- `q` quads give `4 * q` bytes. -/
theorem literalQuads_length {tlit lp} (q : Nat) {z br bs z' br'}
    (h : literalQuads tlit lp q z br = .ok (bs, z', br')) : bs.length = 4 * q := by
  induction q generalizing z br bs z' br' with
  | zero => cases h; rfl
  | succ q ih =>
    unfold literalQuads at h
    split at h
    · cases h
    · split at h
      · cases h
      · cases h
        simp [literalQuad_length ‹_›, ih ‹_›]; omega

/-- The last quad is decoded after all the others: the same as the first before all the others (R140). -/
theorem literalQuads_last (tlit : List (Option Entry)) (lp : List Byte) (q : Nat) (z : Lanes) (br : BitReader) :
    literalQuads tlit lp (q + 1) z br =
      match literalQuads tlit lp q z br with
      | .error r => .error r
      | .ok (bs, z', br') =>
        match literalQuad tlit lp z' br' with
        | .error r => .error r
        | .ok (qs, z'', br'') => .ok (bs ++ qs, z'', br'') := by
  induction q generalizing z br with
  | zero =>
    simp only [literalQuads]
    cases literalQuad tlit lp z br with
    | error r => rfl
    | ok p => simp
  | succ q ih =>
    rw [literalQuads]
    conv_rhs => rw [literalQuads]
    cases literalQuad tlit lp z br with
    | error r => rfl
    | ok p =>
      simp only [ih]
      cases literalQuads tlit lp q p.2.1 p.2.2 with
      | error r => rfl
      | ok p' =>
        cases h : literalQuad tlit lp p'.2.1 p'.2.2 with
        | error r => simp only [h]
        | ok _ => simp only [h, List.append_assoc]

/-- The literal decoder rounds the count up to quads (R140). -/
theorem literalDecode_length {tlit lp bits n z bs z' br'}
    (h : literalDecode tlit lp bits n z = .ok (bs, z', br')) : bs.length = 4 * ((n + 3) / 4) := by
  unfold literalDecode at h
  split at h
  · cases h
  · exact literalQuads_length _ h

/-- A literal count that passes R218. -/
theorem checkLiteralCount_ok {n : Nat} {u} (h : checkLiteralCount n = .ok u) : n ≤ 40000 ∧ n % 4 = 0 := by
  unfold checkLiteralCount at h
  split at h
  · cases h
  · simp [Config.literalsPerBlock] at *; omega

/-- `initLzfse`: a fault with `spos` moved by the reads so far, or the started block (R217). -/
theorem initLzfse_cases {kind : BlockKind} {s t : State} (h : initLzfse kind s = .next t) :
    (∃ r n, t = raise { s with spos := s.spos + n } r ∧ s.spos + n ≤ s.src.length + (if n = 0 then s.spos else 0)) ∨
    (∃ tabs lp lmdp bytes lanes brLit brLmd,
      checkLiteralCount s.hdr.nLiterals = .ok () ∧
      buildTables s.hdr.weights = .ok tabs ∧
      s.spos + s.hdr.nLiteralPayloadBytes + s.hdr.nLmdPayloadBytes ≤ s.src.length ∧
      lp = (s.src.drop s.spos).take s.hdr.nLiteralPayloadBytes ∧
      lmdp = (s.src.drop (s.spos + s.hdr.nLiteralPayloadBytes)).take s.hdr.nLmdPayloadBytes ∧
      literalDecode tabs.tlit lp s.hdr.literalBits s.hdr.nLiterals s.hdr.literalState = .ok (bytes, lanes, brLit) ∧
      BitReader.init lmdp s.hdr.lmdBits = .ok brLmd ∧
      t = { s with
          spos := s.spos + s.hdr.nLiteralPayloadBytes + s.hdr.nLmdPayloadBytes
          lit := Memory.ofBytes 0 bytes
          lzfse := lzfseAtInit s.hdr tabs lp lmdp lanes brLit brLmd
          L := 0, M := 0, D := 0
          blk := ⟨s.hdr.nRawBytes, 0⟩
          active := kind
          phase := .idle }) := by
  unfold initLzfse at h
  cases hc : checkLiteralCount s.hdr.nLiterals with
  | error r => rw [hc] at h; cases h; exact .inl ⟨r, 0, rfl, by simp⟩
  | ok u =>
  rw [hc, raising_ok] at h
  cases hb : buildTables s.hdr.weights with
  | error r => rw [hb] at h; cases h; exact .inl ⟨r, 0, rfl, by simp⟩
  | ok tabs =>
  rw [hb, raising_ok] at h
  by_cases h1 : s.spos + s.hdr.nLiteralPayloadBytes ≤ s.src.length
  swap
  · rw [reading_short (by omega)] at h; cases h; exact .inl ⟨_, 0, rfl, by simp⟩
  rw [reading_ok h1] at h
  by_cases h2 : s.spos + s.hdr.nLiteralPayloadBytes + s.hdr.nLmdPayloadBytes ≤ s.src.length
  swap
  · rw [reading_short (by simp; omega)] at h; cases h; exact .inl ⟨_, _, rfl, by omega⟩
  rw [reading_ok (by simpa using h2)] at h
  simp only at h
  generalize hl : literalDecode _ _ _ _ _ = x at h
  cases x with
  | error r => cases h; exact .inl ⟨r, s.hdr.nLiteralPayloadBytes + s.hdr.nLmdPayloadBytes, by simp [raise, Nat.add_assoc], by omega⟩
  | ok x =>
  obtain ⟨bytes, lanes, brLit⟩ := x
  simp only [raising_ok] at h
  generalize hi : BitReader.init _ _ = y at h
  cases y with
  | error r => cases h; exact .inl ⟨r, s.hdr.nLiteralPayloadBytes + s.hdr.nLmdPayloadBytes, by simp [raise, Nat.add_assoc], by omega⟩
  | ok br =>
  simp only [raising_ok] at h
  cases h
  exact .inr ⟨tabs, _, _, bytes, lanes, brLit, br, rfl, rfl, h2, rfl, rfl, hl, hi, rfl⟩

end Sys2Proof.Machine
end

