-- ==== Sys2Proof/Laws/Step.lean ====
section
/-! SUPPORT. What one step can do, said once: the cases of `step` and of the instructions of each level. -/

namespace Sys2Proof.Machine

/-- The ways a step of an engine that is neither faulted nor at end of stream has a next state. -/
inductive StepCase (s t : State) : Prop where
  /-- A frequency code after the refill (R182). -/
  | code (hp : s.phase = .vlc) (hn : s.vlc.weights.length < Config.nWeights)
      (h : exec (decodeVlc (vlcWindow (vlcRefilled s).vlc)) (vlcRefilled s) = .next t)
  /-- The end of a `bvx2` (R185). -/
  | finish (hp : s.phase = .vlc) (hn : Config.nWeights ≤ s.vlc.weights.length)
      (h : finishV2 s = .next t)
  /-- An LZVN payload that ends inside an opcode (R254). -/
  | overrun (hp : s.phase = .lzvnFetch ∨ s.phase = .idle ∧ s.active = .lzvn ∧ s.L = 0 ∧ s.M = 0)
      (e : DecodeError) (hd : decodeLzvn (s.lzvn.vp.drop s.lzvn.vpos) = .error e)
      (h : t = raise s .f20)
  /-- An LZVN opcode (R241). -/
  | opcode (hp : s.phase = .lzvnFetch ∨ s.phase = .idle ∧ s.active = .lzvn ∧ s.L = 0 ∧ s.M = 0)
      (i : Instr) (hd : decodeLzvn (s.lzvn.vp.drop s.lzvn.vpos) = .ok i) (h : exec i s = .next t)
  /-- No room for a magic (R270). -/
  | shortMagic (hp : s.phase = .idle) (ha : s.active = .noBlock)
      (hs : s.src.length < s.spos + 4) (h : t = raise s .t01)
  /-- A magic that is none of the five (R276). -/
  | badMagic (hp : s.phase = .idle) (ha : s.active = .noBlock) (hs : s.spos + 4 ≤ s.src.length)
      (e : DecodeError) (hd : decodeBlock ((s.src.drop s.spos).take 4) = .error e)
      (h : t = raise { s with spos := s.spos + 4, hs := (s.src.drop s.spos).take 4 } (decodeReason e))
  /-- A magic (R270). -/
  | magic (hp : s.phase = .idle) (ha : s.active = .noBlock) (hs : s.spos + 4 ≤ s.src.length)
      (i : Instr) (hd : decodeBlock ((s.src.drop s.spos).take 4) = .ok i)
      (h : exec i { s with spos := s.spos + 4, hs := (s.src.drop s.spos).take 4 } = .next t)
  /-- A literal (R211). -/
  | literal (hp : s.phase = .idle) (ha : s.active ≠ .noBlock) (hl : 0 < s.L)
      (h : emitLiteral s = .ok t)
  /-- A match byte (R212). -/
  | matched (hp : s.phase = .idle) (ha : s.active ≠ .noBlock) (hl : s.L = 0) (hm : 0 < s.M)
      (h : emitMatch s = .ok t)
  /-- An LZFSE triple (R213, R220). -/
  | lzfse (hp : s.phase = .idle) (ha : s.active.isLzfse = true) (hl : s.L = 0) (hm : s.M = 0)
      (h : t = fetchLzfse s)
  /-- The end of a raw block (R214, R224). -/
  | rawDone (hp : s.phase = .idle) (ha : s.active = .raw) (hl : s.L = 0) (hm : s.M = 0)
      (h : t = blockDone s)

/-- An opcode fetch that ends without an instruction. -/
theorem decodeReason_lzvn {bs : List Byte} {e : DecodeError} (h : decodeLzvn bs = .error e) :
    decodeReason e = .f20 := by
  cases bs with
  | nil => cases h; rfl
  | cons op rest =>
    simp only [decodeLzvn] at h
    split at h
    · cases h
    · unfold lzvnFields at h
      split at h <;> first | cases h | (split at h; (cases h); (cases h; rfl))

/-- The reasons of a magic fetch. -/
theorem decodeReason_block {bs : List Byte} {e : DecodeError} (h : decodeBlock bs = .error e) :
    decodeReason e = .t01 ∨ decodeReason e = .f01 := by
  unfold decodeBlock at h
  split at h
  · unfold magicInstr at h
    repeat (split at h; · cases h)
    cases h; exact .inr rfl
  · cases h; exact .inl rfl

theorem step_fetchOpcode {s t : State} (hf : fetch s = fetchOpcode s)
    (hp : s.phase = .lzvnFetch ∨ s.phase = .idle ∧ s.active = .lzvn ∧ s.L = 0 ∧ s.M = 0)
    (h : step s = .next t) : StepCase s t := by
  unfold step at h
  rw [hf, fetchOpcode] at h
  cases hd : decodeLzvn (s.lzvn.vp.drop s.lzvn.vpos) with
  | error e =>
    rw [hd] at h
    simp only [runDecoded, decodeReason_lzvn hd] at h
    exact .overrun hp e hd (by cases h; rfl)
  | ok i => rw [hd] at h; exact .opcode hp i hd h

theorem step_fetchMagic {s t : State} (hf : fetch s = fetchMagic s) (hp : s.phase = .idle)
    (ha : s.active = .noBlock) (h : step s = .next t) : StepCase s t := by
  unfold step at h
  rw [hf, fetchMagic, srcRead] at h
  by_cases hs : s.spos + 4 ≤ s.src.length
  · simp only [hs, if_true] at h
    cases hd : decodeBlock ((s.src.drop s.spos).take 4) with
    | error e => rw [hd] at h; exact .badMagic hp ha hs e hd (by cases h; rfl)
    | ok i => rw [hd] at h; exact .magic hp ha hs i hd h
  · simp only [hs, if_false] at h
    exact .shortMagic hp ha (by omega) (by cases h; rfl)

theorem step_live {s t : State} (hp : s.phase = .idle) (ha : s.active ≠ .noBlock)
    (hf : fetch s = if 0 < s.L then emitted (emitLiteral s)
      else if 0 < s.M then emitted (emitMatch s) else fetchNext s)
    (h : step s = .next t) : StepCase s t := by
  by_cases hl : 0 < s.L
  · unfold step at h
    rw [hf] at h
    simp only [hl, if_true] at h
    cases he : emitLiteral s with
    | error f => simp [he, emitted] at h
    | ok u =>
      simp only [he, emitted] at h
      cases h
      exact .literal hp ha hl he
  have hl0 : s.L = 0 := by omega
  by_cases hm : 0 < s.M
  · unfold step at h
    rw [hf] at h
    simp only [hl, hm, if_true, if_false] at h
    cases he : emitMatch s with
    | error f => simp [he, emitted] at h
    | ok u =>
      simp only [he, emitted] at h
      cases h
      exact .matched hp ha hl0 hm he
  have hm0 : s.M = 0 := by omega
  simp only [hl, hm, if_false] at hf
  cases hk : s.active with
  | noBlock => exact absurd hk ha
  | lzvn => exact step_fetchOpcode (by rw [hf, fetchNext, hk]) (.inr ⟨hp, hk, hl0, hm0⟩) h
  | v1 =>
    refine .lzfse hp (by rw [hk]; rfl) hl0 hm0 ?_
    simp only [step, hf, fetchNext, hk] at h
    cases h; rfl
  | v2 =>
    refine .lzfse hp (by rw [hk]; rfl) hl0 hm0 ?_
    simp only [step, hf, fetchNext, hk] at h
    cases h; rfl
  | raw =>
    refine .rawDone hp hk hl0 hm0 ?_
    simp only [step, hf, fetchNext, hk] at h
    cases h; rfl

/-- The cases of `step`: it takes none on a faulted engine, nothing changes at end of stream, and
otherwise it is one of the cases above. -/
theorem step_cases {s t : State} (h : step s = .next t) :
    s.fault = none ∧ (s.eos = true ∧ t = s ∨ s.eos = false ∧ StepCase s t) := by
  cases hf : s.fault with
  | some f => simp [step, fetch, hf] at h
  | none =>
    refine ⟨rfl, ?_⟩
    cases he : s.eos with
    | true =>
      simp only [step, fetch, hf, he, if_true] at h
      cases h
      exact .inl ⟨rfl, rfl⟩
    | false =>
      refine .inr ⟨rfl, ?_⟩
      cases hp : s.phase with
      | vlc =>
        simp only [step, fetch, hf, he, hp, fetchCode] at h
        by_cases hn : s.vlc.weights.length < Config.nWeights
        · simp only [hn, if_true, Bool.false_eq_true, if_false] at h
          exact .code hp hn h
        · simp only [hn, Bool.false_eq_true, if_false] at h
          exact .finish hp (by omega) h
      | lzvnFetch => exact step_fetchOpcode (by simp [fetch, hf, he, hp]) (.inl hp) h
      | idle =>
        by_cases ha : s.active = .noBlock
        · exact step_fetchMagic (by simp [fetch, hf, he, hp, ha]) hp ha h
        · refine step_live hp ha ?_ h
          cases hk : s.active <;> simp_all [fetch]

/-! ### Instructions of a level -/

/-- The VLC decoder gives VLC forms. -/
theorem decodeVlc_level (c : BitVec 14) : (decodeVlc c).level = .vlc := by
  unfold decodeVlc
  repeat (split; · rfl)
  rfl

/-- A frequency code is `takeCode` of its width and value (R182, R183). -/
theorem exec_vlc {i : Instr} (h : i.level = .vlc) (s : State) :
    exec i s = takeCode (vlcWidth i) (vlcValue i) s := by
  cases i <;> first | rfl | cases h

/-- The block decoder gives block instructions. -/
theorem decodeBlock_level {bs : List Byte} {i : Instr} (h : decodeBlock bs = .ok i) :
    i.level = .block := by
  unfold decodeBlock at h
  split at h
  · unfold magicInstr at h
    repeat (split at h; · cases h; rfl)
    cases h
  · cases h

/-- The LZVN decoder gives LZVN instructions. -/
theorem decodeLzvn_level {bs : List Byte} {i : Instr} (h : decodeLzvn bs = .ok i) :
    i.level = .lzvn := by
  unfold decodeLzvn at h
  split at h
  · cases h
  · simp only at h
    split at h
    · cases h; rfl
    · unfold lzvnFields at h
      split at h <;> first | (cases h; rfl) | (split at h; (cases h; rfl); (cases h))

/-- An LZVN instruction takes a triple, is a `nop`, ends the block or faults (R241 to R253). -/
theorem exec_lzvn {i : Instr} (h : i.level = .lzvn) (s : State) :
    (∃ n tr, exec i s = lzvnTriple n tr s) ∨
    exec i s = .next { s with
      lzvn := { s.lzvn with vpos := s.lzvn.vpos + 1 }, phase := .lzvnFetch } ∨
    exec i s = .next (blockDone s) ∨ exec i s = .next (raise s .f09) := by
  cases i <;> first
    | exact .inl ⟨_, _, rfl⟩
    | exact .inr (.inl rfl)
    | exact .inr (.inr (.inl rfl))
    | exact .inr (.inr (.inr rfl))
    | cases h

/-- A check goes on to a next state when its continuation does; its fault is one. -/
theorem raising_isNext {α : Type} {s : State} {x : Except Reason α}
    {k : α → Host.Outcome State Fault Refusal} (h : ∀ a, ∃ t, k a = .next t) :
    ∃ t, raising s x k = .next t := by
  cases x with
  | error r => exact ⟨_, rfl⟩
  | ok a => exact h a

/-- A source read goes on to a next state when its continuation does; T01 is one. -/
theorem reading_isNext {n : Nat} {s : State} {k : List Byte → State → Host.Outcome State Fault Refusal}
    (h : ∀ bs u, ∃ t, k bs u = .next t) : ∃ t, reading n s k = .next t := by
  unfold reading
  split
  · exact ⟨_, rfl⟩
  · exact h _ _

theorem initLzfse_isNext (kind : BlockKind) (s : State) : ∃ t, initLzfse kind s = .next t :=
  raising_isNext fun _ => raising_isNext fun _ => reading_isNext fun _ _ => reading_isNext fun _ _ =>
    raising_isNext fun _ => raising_isNext fun _ => ⟨_, rfl⟩

/-- Every instruction has a next state (R302: a raise is one). -/
theorem exec_isNext (i : Instr) (s : State) : ∃ t, exec i s = .next t := by
  have hl : ∀ n tr, ∃ t, lzvnTriple n tr s = .next t := fun n tr => by
    rcases lzvnTriple_cases n tr s with ⟨_, h⟩ | ⟨_, h⟩ <;> exact ⟨_, h⟩
  cases i with
  | bvx1 => exact reading_isNext fun _ _ => raising_isNext fun _ => initLzfse_isNext _ _
  | bvx2 =>
    refine reading_isNext fun _ _ => raising_isNext fun _ => reading_isNext fun _ _ => ?_
    split
    · exact initLzfse_isNext _ _
    · exact ⟨_, rfl⟩
  | bvxn => exact reading_isNext fun _ _ => raising_isNext fun _ => reading_isNext fun _ _ => ⟨_, rfl⟩
  | bvxRaw => exact reading_isNext fun _ _ => raising_isNext fun _ => reading_isNext fun _ _ => ⟨_, rfl⟩
  | bvxEnd => exact ⟨_, rfl⟩
  | smlD l m d => exact hl _ _
  | medD l m d => exact hl _ _
  | lrgD l m d => exact hl _ _
  | preD l m => exact hl _ _
  | smlL l => exact hl _ _
  | lrgL l => exact hl _ _
  | smlM m => exact hl _ _
  | lrgM m => exact hl _ _
  | nop op => exact ⟨_, rfl⟩
  | eos => exact ⟨_, rfl⟩
  | udef op => exact ⟨_, rfl⟩
  | vz0 => exact raising_isNext fun _ => ⟨_, rfl⟩
  | vz1 => exact raising_isNext fun _ => ⟨_, rfl⟩
  | v2 => exact raising_isNext fun _ => ⟨_, rfl⟩
  | v3 => exact raising_isNext fun _ => ⟨_, rfl⟩
  | v4to7 x => exact raising_isNext fun _ => ⟨_, rfl⟩
  | v8to23 x => exact raising_isNext fun _ => ⟨_, rfl⟩
  | v24to1047 x => exact raising_isNext fun _ => ⟨_, rfl⟩

end Sys2Proof.Machine
end

