-- ==== Sys2Proof/Laws/HostCalls.lean ====
section
/-! SUPPORT. The engine step and the host calls, unfolded once. -/

namespace Sys2Proof.Machine

/-- At the boundary an engine step is over. -/
theorem finishStep_idle (n : Nat) (s : State) (h : s.phase = .idle) : finishStep n s = .next s := by
  cases n with
  | zero => rfl
  | succ n => simp only [finishStep, h]

/-- Inside an engine step one more step of the model is taken. -/
theorem finishStep_busy (n : Nat) (s t : State) (h : s.phase ≠ .idle) (hs : step s = .next t) :
    finishStep (n + 1) s = finishStep n t := by
  cases hp : s.phase with
  | idle => exact absurd hp h
  | vlc => simp only [finishStep, hp, hs]
  | lzvnFetch => simp only [finishStep, hp, hs]

/-- An engine step from a state whose model step ends at the boundary. -/
theorem engineStep_idle {s t : State} (h : step s = .next t) (ht : t.phase = .idle) :
    engineStep s = .next t := by
  rw [engineStep, h]
  exact finishStep_idle _ _ ht

/-- `read` when the first engine step delivers a byte (R278). -/
theorem readLoop_byte {n : Nat} {s t : State} {b : Byte} (h : engineStep s = .next t)
    (hr : resultOf s t = .byte b) : readLoop (n + 1) s = (.byte b, t) := by
  simp only [readLoop, h, hr]

/-- `read` when the engine step is internal (R278). -/
theorem readLoop_internal {n : Nat} {s t : State} (h : engineStep s = .next t)
    (hr : resultOf s t = .internal) : readLoop (n + 1) s = readLoop n t := by
  simp only [readLoop, h, hr]

end Sys2Proof.Machine
end

