-- ==== Sys2Proof/Laws/PerInstr.lean ====
section
/-! SUPPORT. One statement per instruction: its encoding has the length the spec gives its form. -/

namespace Sys2Proof.Laws.EncodedSize

/-- R81, R103, R99: how many bytes the instruction's words take. -/
def Statement (i : Instr) : Prop :=
  (encode i).length = encodedLength i

theorem bvx1 : Statement .bvx1 := rfl
theorem bvx2 : Statement .bvx2 := rfl
theorem bvxn : Statement .bvxn := rfl
theorem bvxRaw : Statement .bvxRaw := rfl
theorem bvxEnd : Statement .bvxEnd := rfl
theorem smlD (l : BitVec 2) (m : BitVec 3) (d : BitVec 11) : Statement (.smlD l m d) := rfl
theorem medD (l : BitVec 2) (m : BitVec 5) (d : BitVec 14) : Statement (.medD l m d) := rfl
theorem lrgD (l : BitVec 2) (m : BitVec 3) (d : BitVec 16) : Statement (.lrgD l m d) := rfl
theorem preD (l : BitVec 2) (m : BitVec 3) : Statement (.preD l m) := rfl
theorem smlL (l : BitVec 4) : Statement (.smlL l) := rfl
theorem lrgL (l : BitVec 8) : Statement (.lrgL l) := rfl
theorem smlM (m : BitVec 4) : Statement (.smlM m) := rfl
theorem lrgM (m : BitVec 8) : Statement (.lrgM m) := rfl
theorem nop (op : BitVec 8) : Statement (.nop op) := rfl
theorem eos : Statement .eos := rfl
theorem udef (op : BitVec 8) : Statement (.udef op) := rfl
theorem vz0 : Statement .vz0 := rfl
theorem vz1 : Statement .vz1 := rfl
theorem v2 : Statement .v2 := rfl
theorem v3 : Statement .v3 := rfl
theorem v4to7 (x : BitVec 2) : Statement (.v4to7 x) := rfl
theorem v8to23 (x : BitVec 4) : Statement (.v8to23 x) := rfl
theorem v24to1047 (x : BitVec 10) : Statement (.v24to1047 x) := rfl

end Sys2Proof.Laws.EncodedSize
end

