-- ==== Sys2Proof/Laws/Ring.lean ====
section
/-! SUPPORT. What a step does to the ring, the sink and the source: nothing, or one ring write. -/

namespace Sys2Proof.Machine

/-- The ring, the sink, the source and the configuration are as before, and `blk` is, or a block init cleared
`blk.out`. -/
structure SameRing (s t : State) : Prop where
  mb : t.mb = s.mb
  mcur : t.mcur = s.mcur
  outTotal : t.outTotal = s.outTotal
  out : t.out = s.out
  ringSize : t.ringSize = s.ringSize
  tableCapacity : t.tableCapacity = s.tableCapacity
  src : t.src = s.src
  draws : t.draws = s.draws
  blk : t.blk = s.blk ∨ t.blk.out = 0

theorem initLzfse_sameRing (kind : BlockKind) (s u : State) (h : SameRing u s) :
    AllNext (SameRing u) (initLzfse kind s) := by
  obtain ⟨h1, h2, h3, h4, h5, h6, h7, h8, h9⟩ := h
  unfold initLzfse
  refine allNext_raising (fun r _ => ⟨h1, h2, h3, h4, h5, h6, h7, h8, h9⟩) fun _ _ => ?_
  refine allNext_raising (fun r _ => ⟨h1, h2, h3, h4, h5, h6, h7, h8, h9⟩) fun _ _ => ?_
  refine allNext_reading (fun _ => ⟨h1, h2, h3, h4, h5, h6, h7, h8, h9⟩) fun _ => ?_
  refine allNext_reading (fun _ => ⟨h1, h2, h3, h4, h5, h6, h7, h8, h9⟩) fun _ => ?_
  refine allNext_raising (fun r _ => ⟨h1, h2, h3, h4, h5, h6, h7, h8, h9⟩) fun _ _ => ?_
  refine allNext_raising (fun r _ => ⟨h1, h2, h3, h4, h5, h6, h7, h8, h9⟩) fun _ _ => ?_
  exact allNext_next ⟨h1, h2, h3, h4, h5, h6, h7, h8, .inr rfl⟩

theorem acceptTriple_sameRing (tr : Triple) (s u : State) (h : SameRing u s) :
    SameRing u (acceptTriple tr s) := by
  obtain ⟨h1, h2, h3, h4, h5, h6, h7, h8, h9⟩ := h
  rcases acceptTriple_cases tr s with ⟨r, _, he⟩ | ⟨_, he⟩ <;> rw [he] <;>
    constructor <;> simp [*]

theorem blockDone_sameRing (s u : State) (h : SameRing u s) : SameRing u (blockDone s) := by
  obtain ⟨h1, h2, h3, h4, h5, h6, h7, h8, h9⟩ := h
  rcases blockDone_cases s with ⟨_, he⟩ | ⟨_, he⟩ <;> rw [he] <;> exact ⟨h1, h2, h3, h4, h5, h6, h7, h8, h9⟩

theorem exec_sameRing (i : Instr) (s u : State) (h : SameRing u s) : AllNext (SameRing u) (exec i s) := by
  have hh := h
  obtain ⟨h1, h2, h3, h4, h5, h6, h7, h8, h9⟩ := h
  have hr : ∀ r, SameRing u (raise s r) := fun r => ⟨h1, h2, h3, h4, h5, h6, h7, h8, h9⟩
  by_cases hl : i.level = .lzvn
  · rcases exec_lzvn hl s with ⟨n, tr, he⟩ | he | he | he <;> rw [he]
    · rcases lzvnTriple_cases n tr s with ⟨_, he⟩ | ⟨_, he⟩ <;> rw [he]
      · exact allNext_next (hr _)
      · exact allNext_next (acceptTriple_sameRing _ _ _ ⟨h1, h2, h3, h4, h5, h6, h7, h8, h9⟩)
    · exact allNext_next ⟨h1, h2, h3, h4, h5, h6, h7, h8, h9⟩
    · exact allNext_next (blockDone_sameRing _ _ hh)
    · exact allNext_next (hr _)
  by_cases hv : i.level = .vlc
  · rw [exec_vlc hv]
    rcases takeCode_cases (vlcWidth i) (vlcValue i) s with ⟨_, he⟩ | ⟨_, he⟩ <;> rw [he]
    · exact allNext_next (hr _)
    · exact allNext_next ⟨h1, h2, h3, h4, h5, h6, h7, h8, h9⟩
  cases i with
  | bvx1 =>
    unfold exec execBvx1
    refine allNext_readingHeader (fun _ => hr _) fun _ => ?_
    refine allNext_raising (fun r _ => ⟨h1, h2, h3, h4, h5, h6, h7, h8, h9⟩) fun _ _ => ?_
    exact initLzfse_sameRing _ _ _ ⟨h1, h2, h3, h4, h5, h6, h7, h8, h9⟩
  | bvx2 =>
    unfold exec execBvx2
    refine allNext_readingHeader (fun _ => hr _) fun _ => ?_
    refine allNext_raising (fun r _ => ⟨h1, h2, h3, h4, h5, h6, h7, h8, h9⟩) fun _ _ => ?_
    refine allNext_reading (fun _ => ⟨h1, h2, h3, h4, h5, h6, h7, h8, h9⟩) fun _ => ?_
    split
    · exact initLzfse_sameRing _ _ _ ⟨h1, h2, h3, h4, h5, h6, h7, h8, h9⟩
    · exact allNext_next ⟨h1, h2, h3, h4, h5, h6, h7, h8, h9⟩
  | bvxn =>
    unfold exec execBvxn
    refine allNext_readingHeader (fun _ => hr _) fun _ => ?_
    refine allNext_raising (fun r _ => ⟨h1, h2, h3, h4, h5, h6, h7, h8, h9⟩) fun _ _ => ?_
    refine allNext_reading (fun _ => ⟨h1, h2, h3, h4, h5, h6, h7, h8, h9⟩) fun _ => ?_
    exact allNext_next ⟨h1, h2, h3, h4, h5, h6, h7, h8, .inr rfl⟩
  | bvxRaw =>
    unfold exec execBvxRaw
    refine allNext_readingHeader (fun _ => hr _) fun _ => ?_
    refine allNext_raising (fun r _ => ⟨h1, h2, h3, h4, h5, h6, h7, h8, h9⟩) fun _ _ => ?_
    refine allNext_reading (fun _ => ⟨h1, h2, h3, h4, h5, h6, h7, h8, h9⟩) fun _ => ?_
    exact allNext_next ⟨h1, h2, h3, h4, h5, h6, h7, h8, .inr rfl⟩
  | bvxEnd => exact allNext_next ⟨h1, h2, h3, h4, h5, h6, h7, h8, h9⟩
  | _ => first | exact absurd rfl hl | exact absurd rfl hv

/-- The ring after `ringWrite b`. -/
structure RingWritten (b : Byte) (s t : State) : Prop where
  mb : t.mb = s.mb.write s.mcur b
  mcur : t.mcur = ringAddr s.ringSize (s.mcur + 1)
  outTotal : t.outTotal = s.outTotal + 1
  out : t.out = s.out ++ [b]
  ringSize : t.ringSize = s.ringSize
  tableCapacity : t.tableCapacity = s.tableCapacity
  src : t.src = s.src
  fault : t.fault = s.fault
  spos : t.spos = s.spos
  blk : t.blk = { s.blk with out := s.blk.out + 1 }
  hdr : t.hdr = s.hdr
  active : t.active = s.active
  phase : t.phase = s.phase

theorem finishV2_sameRing (s : State) : AllNext (SameRing s) (finishV2 s) :=
  allNext_raising (fun _ _ => ⟨rfl, rfl, rfl, rfl, rfl, rfl, rfl, rfl, .inl rfl⟩) fun _ _ =>
    initLzfse_sameRing _ _ _ ⟨rfl, rfl, rfl, rfl, rfl, rfl, rfl, rfl, .inl rfl⟩

theorem fetchLzfse_sameRing (s : State) : SameRing s (fetchLzfse s) := by
  unfold fetchLzfse
  split
  · exact blockDone_sameRing _ _ ⟨rfl, rfl, rfl, rfl, rfl, rfl, rfl, rfl, .inl rfl⟩
  · split
    · exact ⟨rfl, rfl, rfl, rfl, rfl, rfl, rfl, rfl, .inl rfl⟩
    · exact acceptTriple_sameRing _ _ _ ⟨rfl, rfl, rfl, rfl, rfl, rfl, rfl, rfl, .inl rfl⟩

theorem emitLiteral_ringWritten {s t : State} (h : emitLiteral s = .ok t) : ∃ b, RingWritten b s t := by
  obtain ⟨b, s', hn, rfl⟩ := emitLiteral_cases h
  refine ⟨b, ?_⟩
  rcases nextLiteral_cases hn with ⟨_, _, rfl⟩ | ⟨_, _, rfl⟩ | ⟨_, _, rfl⟩ <;>
    constructor <;> rfl

theorem emitMatch_ringWritten {s t : State} (h : emitMatch s = .ok t) : ∃ b, RingWritten b s t := by
  obtain ⟨b, hn, rfl⟩ := emitMatch_cases h
  exact ⟨b, by constructor <;> rfl⟩

/-- A step leaves the ring and the sink, or writes one byte. -/
theorem step_ring {s t : State} (h : step s = .next t) :
    SameRing s t ∨ ∃ b, RingWritten b s t := by
  have hs : SameRing s s := ⟨rfl, rfl, rfl, rfl, rfl, rfl, rfl, rfl, .inl rfl⟩
  obtain ⟨_, ⟨_, rfl⟩ | ⟨_, hc⟩⟩ := step_cases h
  · exact .inl hs
  cases hc with
  | code _ _ h => exact .inl (exec_sameRing _ (vlcRefilled s) s ⟨rfl, rfl, rfl, rfl, rfl, rfl, rfl, rfl, .inl rfl⟩ _ h)
  | finish _ _ h => exact .inl (finishV2_sameRing s _ h)
  | overrun _ _ _ h => subst h; exact .inl ⟨rfl, rfl, rfl, rfl, rfl, rfl, rfl, rfl, .inl rfl⟩
  | opcode _ i _ h => exact .inl (exec_sameRing i s s hs _ h)
  | shortMagic _ _ _ h => subst h; exact .inl ⟨rfl, rfl, rfl, rfl, rfl, rfl, rfl, rfl, .inl rfl⟩
  | badMagic _ _ _ _ _ h => subst h; exact .inl ⟨rfl, rfl, rfl, rfl, rfl, rfl, rfl, rfl, .inl rfl⟩
  | magic _ _ _ i _ h =>
    exact .inl (exec_sameRing i { s with spos := s.spos + 4, hs := (s.src.drop s.spos).take 4 } s ⟨rfl, rfl, rfl, rfl, rfl, rfl, rfl, rfl, .inl rfl⟩ _ h)
  | literal _ _ _ h => exact .inr (emitLiteral_ringWritten h)
  | matched _ _ _ _ h => exact .inr (emitMatch_ringWritten h)
  | lzfse _ _ _ _ h => subst h; exact .inl (fetchLzfse_sameRing s)
  | rawDone _ _ _ _ h => subst h; exact .inl (blockDone_sameRing _ _ hs)

end Sys2Proof.Machine
end

