-- ==== Sys2Proof/Tests/Slice0.lean ====
section
/-! SUPPORT. The model's own tests. Expected values come from the spec: 95_test_vectors.md (its vector's name
stands in each comment), the examples of the rules, and words written out from 30_encoding.md. After them, for
every statement of Certificates/Slice0/Obligations.lean that has hypotheses, a witness that meets them. -/

-- One theorem at a time: each one checked on a thread of its own would ask for too much memory at once.
set_option Elab.async false

namespace Sys2Proof.Tests

open Sys2Proof Sys2Proof.Machine

/-! ### Helpers -/

/-- A fresh engine with a 16-byte ring. -/
def engine (source : List Byte) : State :=
  State.initial 16 630 source

/-- An LZVN block of `nRaw` bytes, its payload at its first opcode. -/
def lzvnBlock (vp : List Byte) (nRaw : Nat) : State :=
  { engine [] with active := .lzvn, lzvn := ⟨vp, 0⟩, blk := ⟨nRaw, 0⟩ }

/-- An LZVN block late in a stream: 300 bytes of the block to come, 5000 out so far, distance 99 held,
a ring that holds every distance. -/
def lateBlock (vp : List Byte) : State :=
  { lzvnBlock vp 300 with ringSize := 2 ^ 18, outTotal := 5000, D := 99 }

/-- Inside a V2 header: the blob to decode, and the codes already decoded. -/
def vlcState (blob : List Byte) (weights : List Nat) : State :=
  { engine [] with phase := .vlc, hs := List.replicate 28 0 ++ blob, vlc := ⟨0, 0, 0, weights⟩ }

/-- The next state of an outcome that has one. -/
def nextOf : Host.Outcome State Fault Refusal → State
  | .next t => t
  | .fault _ => State.reset
  | .refused _ => State.reset

/-- Does the outcome have a next state? -/
def hasNext : Host.Outcome State Fault Refusal → Bool
  | .next _ => true
  | .fault _ => false
  | .refused _ => false

theorem eq_next {o : Host.Outcome State Fault Refusal} (h : hasNext o = true) :
    o = .next (nextOf o) := by
  cases o <;> first | rfl | cases h

/-- What an accepted LZVN opcode leaves: the triple, the cursor, and no fault. -/
def triple (t : State) : Nat × Nat × Nat × Nat × Option FaultRecord :=
  (t.L, t.M, t.D, t.lzvn.vpos, t.fault)

/-! ### WellFormed: an ill-formed term for each check -/

theorem test_wellFormed_smlD_distance : (Instr.smlD 0 0 1536).wellFormed = false := by decide
theorem test_wellFormed_smlD_fields : (Instr.smlD 1 6 0).wellFormed = false := by decide
theorem test_wellFormed_lrgD_fields : (Instr.lrgD 2 4 1).wellFormed = false := by decide
theorem test_wellFormed_preD_fields : (Instr.preD 3 2).wellFormed = false := by decide
theorem test_wellFormed_preD_literals : (Instr.preD 0 1).wellFormed = false := by decide
theorem test_wellFormed_smlL : (Instr.smlL 0).wellFormed = false := by decide
theorem test_wellFormed_smlM : (Instr.smlM 0).wellFormed = false := by decide
theorem test_wellFormed_nop : (Instr.nop 0x26).wellFormed = false := by decide
theorem test_wellFormed_udef : (Instr.udef 0x46).wellFormed = false := by decide

/-! ### Decoding: a word of every constructor, written out from 30_encoding.md -/

/-- R81's table, and vector S1. -/
theorem test_decode_magics :
    decode .block [0x62, 0x76, 0x78, 0x31] = .ok .bvx1 ∧
    decode .block [0x62, 0x76, 0x78, 0x32] = .ok .bvx2 ∧
    decode .block [0x62, 0x76, 0x78, 0x6E] = .ok .bvxn ∧
    decode .block [0x62, 0x76, 0x78, 0x2D] = .ok .bvxRaw ∧
    decode .block [0x62, 0x76, 0x78, 0x24] = .ok .bvxEnd ∧
    decode .block [0x62, 0x76, 0x78, 0x33] = .error .badMagic ∧
    decode .block [0x62, 0x76, 0x78] = .error .truncatedMagic := by decide

/-- R101: `smlD` is LL MMM DDD and b1 (vector Z2); the largest distance, 1535, has op[2:0] = 5. -/
theorem test_decode_smlD :
    decode .lzvn [0b01001000, 0x10, 0x41] = .ok (.smlD 1 1 16) ∧
    decode .lzvn [0b11001101, 0xFF] = .ok (.smlD 3 1 1535) ∧
    decode .lzvn [0b01001000] = .error .missingOperand := by decide

/-- R101: `medD` is 101 LL MMM; M's low bits and D's low bits share b1 (vector Z5). -/
theorem test_decode_medD :
    decode .lzvn [0b10100001, 0b00001101, 0x01] = .ok (.medD 0 5 67) ∧
    decode .lzvn [0b10111110, 0b00000110, 0b10000000] = .ok (.medD 3 26 0b10000000000001) := by decide

/-- R101: `lrgD` is LL MMM 111, b1 the low distance byte (vector Z7). -/
theorem test_decode_lrgD :
    decode .lzvn [0b00001111, 0x34, 0x12] = .ok (.lrgD 0 1 0x1234) ∧
    decode .lzvn [0b10011111, 0xFF, 0xFF] = .ok (.lrgD 2 3 0xFFFF) := by decide

/-- R101: `preD` is LL MMM 110 (vector Z9). -/
theorem test_decode_preD : decode .lzvn [0b01001110] = .ok (.preD 1 1) := by decide

/-- R101: the length opcodes (vectors Z11 to Z15). -/
theorem test_decode_lengths :
    decode .lzvn [0b11100011, 0x61] = .ok (.smlL 3) ∧
    decode .lzvn [0b11100000, 0xFF] = .ok (.lrgL 255) ∧
    decode .lzvn [0b11110101] = .ok (.smlM 5) ∧
    decode .lzvn [0b11110000, 0x04] = .ok (.lrgM 4) := by decide

/-- R101, R104: the control opcodes (vectors Z17 to Z19). -/
theorem test_decode_control :
    decode .lzvn [0b00001110] = .ok (.nop 0x0E) ∧ decode .lzvn [0b00010110] = .ok (.nop 0x16) ∧
    decode .lzvn [0b00000110] = .ok .eos ∧ decode .lzvn [0x70] = .ok (.udef 0x70) ∧
    decode .lzvn [0xDF] = .ok (.udef 0xDF) ∧ decode .lzvn [0x3E] = .ok (.udef 0x3E) ∧
    decode .lzvn [] = .error .missingOpcode := by decide

/-- R99's table (vectors of 2.6), the code's first bit at the right. -/
theorem test_decode_codes :
    decode .vlc [0b00000000] = .ok .vz0 ∧ decode .vlc [0b00011100] = .ok .vz0 ∧
    decode .vlc [0b00000010] = .ok .vz1 ∧ decode .vlc [0b00000001] = .ok .v2 ∧
    decode .vlc [0b00000101] = .ok .v3 ∧ decode .vlc [0b00000011] = .ok (.v4to7 0) ∧
    decode .vlc [0b00011011] = .ok (.v4to7 3) ∧ decode .vlc [0b00000111] = .ok (.v8to23 0) ∧
    decode .vlc [0b11110111] = .ok (.v8to23 15) ∧
    decode .vlc [0b00001111, 0b00000000] = .ok (.v24to1047 0) ∧
    decode .vlc [0b00001111, 0b00000001] = .ok (.v24to1047 16) ∧
    decode .vlc [0b11111111, 0b00111111] = .ok (.v24to1047 1023) := by decide

/-- X4's neighbours of opcode 6. -/
theorem test_neighbours_of_eos :
    [0x05, 0x07, 0x0E, 0x16, 0x26, 0x46].map lzvnClass = [.smlD, .lrgD, .nop, .nop, .udef, .preD] := by
  decide

/-- Words of spec/opcode_table.json at the places the host puts them. -/
theorem test_table_words :
    decodeTableWord 32 0x24787662 = some .bvxEnd ∧ decodeTableWord 8 0x06 = some .eos ∧
    decodeTableWord 8 0x48 = some (.smlD 1 1 0) ∧ decodeTableWord 8 0x02 = some .vz1 ∧
    decodeTableWord 14 0x0F = some (.v24to1047 0) := by decide

/-! ### The encoder -/

/-- P1's opcodes assembled (R105, R106). -/
theorem test_assemble_P1 :
    assemble [.smlL 3, .bytes [0x61, 0x62, 0x63], .smlD 0 8 3, .lit [0x58, 0x59], .smlM 4, .nop, .endBlock] =
      some [0xE3, 0x61, 0x62, 0x63, 0x28, 0x03, 0xE2, 0x58, 0x59, 0xF4, 0x0E, 6, 0, 0, 0, 0, 0, 0, 0] := by
  decide

/-- R105: out of its range a line does not assemble; R106: `copy` picks the form by the distance. -/
theorem test_assemble_forms :
    assembleLine (.smlD 0 3 1536) = none ∧ assembleLine (.preD 0 3) = none ∧
    assembleLine (.copy 0 8 67) = some [0x28, 0x43] ∧
    assembleLine (.copy 0 4 0x1234) = some [0xA0, 0xD1, 0x48] ∧
    assembleLine (.copy 0 4 0x4234) = some [0x0F, 0x34, 0x42] := by decide

/-! ### LZVN instructions, one step each -/

/-- Vector Z2. -/
theorem test_smlD : triple (nextOf (exec (.smlD 1 1 16) (lateBlock [0x48, 0x10, 0x41]))) =
    (1, 4, 16, 2, none) := by decide +kernel

/-- Vector Z4: a distance field of 0 keeps the held distance. -/
theorem test_smlD_keeps : triple (nextOf (step (lateBlock [0x00, 0x00]))) = (0, 3, 99, 2, none) := by
  decide +kernel

/-- Vector Z5. -/
theorem test_medD : triple (nextOf (step (lateBlock [0xA1, 0x0D, 0x01]))) = (0, 8, 67, 3, none) := by
  decide +kernel

/-- Vector Z7. -/
theorem test_lrgD : triple (nextOf (step (lateBlock [0x0F, 0x34, 0x12]))) = (0, 4, 0x1234, 3, none) := by
  decide +kernel

/-- Vector Z9, the literal after it. -/
theorem test_preD : triple (nextOf (step (lateBlock [0x4E, 0x41]))) = (1, 4, 99, 1, none) := by
  decide +kernel

/-- Vector Z10: F17 without a held distance. -/
theorem test_preD_first : (nextOf (step (lzvnBlock [0x46, 0x41] 9))).fault = some ⟨.format, .f17⟩ := by
  decide +kernel

/-- Vector Z11. -/
theorem test_smlL : triple (nextOf (step (lateBlock [0xE3, 0x61, 0x62, 0x63]))) = (3, 0, 99, 1, none) := by
  decide +kernel

/-- Vector Z31: F20 (c). -/
theorem test_smlL_overrun : (nextOf (step (lzvnBlock [0xE3, 0x41] 3))).fault = some ⟨.format, .f20⟩ := by
  decide +kernel

/-- Vector Z13: the largest literal run. -/
theorem test_lrgL :
    triple (nextOf (step (lateBlock ([0xE0, 0xFF] ++ List.replicate 271 0)))) = (271, 0, 99, 2, none) := by
  decide +kernel

/-- Vector Z14. -/
theorem test_smlM : triple (nextOf (step (lateBlock [0xF5]))) = (0, 5, 99, 1, none) := by decide +kernel

/-- Vector Z15. -/
theorem test_lrgM : triple (nextOf (step (lateBlock [0xF0, 0x04]))) = (0, 20, 99, 2, none) := by
  decide +kernel

/-- Vector Z16: the `smlD` after a `nop`, in one engine step. -/
theorem test_nop : triple (nextOf (engineStep (lateBlock [0x0E, 0x00, 0x05]))) = (0, 3, 5, 3, none) := by
  decide +kernel

/-- R251: the `nop` alone. -/
theorem test_nop_alone : triple (nextOf (exec (.nop 0x16) (lateBlock [0x16]))) = (0, 0, 99, 1, none) := by
  decide +kernel

/-- Vector Z18 and R252: the block ends, the cursor stays. -/
theorem test_eos : let t := nextOf (step (lzvnBlock [0x06, 0x00] 0))
    t.active = .noBlock ∧ t.lzvn.vpos = 0 ∧ t.fault = none := by decide +kernel

/-- Vector Z33: F18 at DONE. -/
theorem test_eos_count : (nextOf (exec .eos (lzvnBlock [0x06] 1))).fault = some ⟨.format, .f18⟩ := by
  decide +kernel

/-- Vector Z19. -/
theorem test_udef : let t := nextOf (step (lzvnBlock [0x70] 1))
    t.fault = some ⟨.format, .f09⟩ ∧ t.lzvn.vpos = 0 := by decide +kernel

/-! ### Frequency codes, one step each (vectors of 2.6) -/

/-- R190 to R193: the four short codes. -/
theorem test_short_codes :
    [[0b00], [0b10], [0b001], [0b101]].map
      (fun blob => ((nextOf (step (vlcState blob []))).vlc.weights, (nextOf (step (vlcState blob []))).vlc.nb)) =
    [([0], 6), ([1], 6), ([2], 5), ([3], 5)] := by decide +kernel

/-- R194 to R196: the smallest and the largest weight of each field. -/
theorem test_long_codes :
    [[0x03], [0x1B], [0x07], [0xF7], [0x0F, 0x00], [0xFF, 0x3F]].map
      (fun blob => ((nextOf (step (vlcState blob []))).vlc.weights, (nextOf (step (vlcState blob []))).vlc.nb)) =
    [([4], 3), ([7], 3), ([8], 0), ([23], 0), ([24], 2), ([1047], 2)] := by decide +kernel

/-- R184: F04 where the code is wider than the bits left. -/
theorem test_code_width :
    (nextOf (step (vlcState [0x0F] []))).fault = some ⟨.format, .f04⟩ ∧
    (nextOf (step (vlcState [] []))).fault = some ⟨.format, .f04⟩ := by decide +kernel

/-- Vector VL2: eight zero bits left are too many. -/
theorem test_vlcDecode_trailing : vlcDecode (List.replicate 91 0) = .error .f05 := by decide +kernel

/-! ### Block instructions -/

/-- P3's weights (95_test_vectors.md). -/
def weightsP3 : List Nat :=
  [20, 0, 0, 0, 40] ++ List.replicate 11 0 ++ [4] ++ List.replicate 6 0 ++ [16, 0, 16, 16] ++
  List.replicate 9 0 ++ [16] ++ List.replicate 3 0 ++ [128, 0, 0, 0, 64, 64] ++ List.replicate 155 0 ++
  [500, 300, 200, 24] ++ List.replicate 155 0

/-- P3's literal and LMD payloads. -/
def payloadsP3 : List Byte :=
  List.replicate 10 0 ++ [0x05] ++ List.replicate 8 0 ++ [0x10, 0x00]

/-- The V1 header of P4, after its magic, from its field list. -/
def headerP4 : RawV1 where
  nRawBytes := 22
  nPayloadBytes := 21
  nLiterals := 8
  nMatches := 3
  nLiteralPayloadBytes := 11
  nLmdPayloadBytes := 10
  literalBits := 0
  literalState0 := 262
  literalState1 := 656
  literalState2 := 856
  literalState3 := 1007
  lmdBits := 0
  lState := 22
  mState := 36
  dState := 176
  weights := weightsP3.map Int.ofNat

/-- P4's header bytes, the runs of its byte table between `nRawBytes` and `lFreq[0]` (offsets 4 to 51). -/
theorem test_v1_header_bytes :
    (v1HeaderBytes headerP4).take 48 =
      [0x16, 0, 0, 0, 0x15, 0, 0, 0, 0x08, 0, 0, 0, 0x03, 0, 0, 0, 0x0B, 0, 0, 0, 0x0A, 0, 0, 0,
       0, 0, 0, 0, 0x06, 0x01, 0x90, 0x02, 0x58, 0x03, 0xEF, 0x03, 0, 0, 0, 0,
       0x16, 0, 0x24, 0, 0xB0, 0, 0x14, 0] := by decide +kernel

/-- P4: the block starts; its literals are those of 2.4, its lane states the last row of each lane. -/
theorem test_bvx1 :
    let t := nextOf (exec .bvx1 (engine (v1HeaderBytes headerP4 ++ payloadsP3)))
    t.fault = none ∧ t.active = .v1 ∧ t.spos = 787 ∧ t.blk = ⟨22, 0⟩ ∧ t.lzfse.remaining = 3 ∧
    t.lit = Memory.ofBytes 0 [0x61, 0x62, 0x63, 0x64, 0x62, 0x63, 0x61, 0x64] ∧
    t.lzfse.lanes = ⟨176, 576, 976, 512⟩ := by decide +kernel

/-- Vectors H6, H7, H8: F19, F10, F02. -/
theorem test_bvx1_checks :
    parseV1 (v1HeaderBytes { headerP4 with nPayloadBytes := 20 }) = .error .f19 ∧
    parseV1 (v1HeaderBytes { headerP4 with literalBits := 1 }) = .error .f10 ∧
    parseV1 (v1HeaderBytes { headerP4 with weights := -32768 :: headerP4.weights.tail }) =
      .error .f02 := by decide +kernel

/-- P3's 32 header bytes, its 107-byte blob and the payloads: the bytes with P3's SHA-256 and weights. The
byte rows printed in 95_test_vectors.md have the group of seven one byte early. -/
def sourceP3 : List Byte :=
  [0x62, 0x76, 0x78, 0x32, 0x16, 0, 0, 0, 0x08, 0x00, 0xB0, 0x00, 0x00, 0x03, 0x00, 0x70,
   0x06, 0x41, 0x8A, 0xF5, 0xFB, 0x0A, 0x00, 0x70, 0x8B, 0x00, 0x00, 0x00, 0x16, 0x90, 0x00, 0x0B,
   0xC7, 0xC0, 0x43, 0x00, 0x00, 0x00, 0x0C, 0x00, 0x38, 0xE4, 0xF0, 0x10, 0x00, 0x80, 0x43, 0xE0,
   0xD1, 0x00, 0x1E, 0x85, 0x47, 0x01] ++ List.replicate 38 0 ++
  [0x78, 0xEE, 0x9E, 0xA2, 0x87, 0xE5, 0x01] ++ List.replicate 40 0 ++ payloadsP3

/-- P3: the header fields, and where the block stands before its frequency codes. -/
theorem test_bvx2 :
    let t := nextOf (step (engine sourceP3))
    t.fault = none ∧ t.spos = 139 ∧ t.phase = .vlc ∧ t.hdr.nRawBytes = 22 ∧ t.hdr.nLiterals = 8 ∧
    t.hdr.nMatches = 3 ∧ t.hdr.nLiteralPayloadBytes = 11 ∧ t.hdr.nLmdPayloadBytes = 10 ∧
    t.hdr.literalBits = 0 ∧ t.hdr.lmdBits = 0 ∧ t.hdr.literalState = ⟨262, 656, 856, 1007⟩ ∧
    t.hdr.lState = 22 ∧ t.hdr.mState = 36 ∧ t.hdr.dState = 176 := by decide +kernel

/-- Vector VL4: P3's blob gives P3's weights. -/
theorem test_bvx2_blob : vlcDecode ((sourceP3.drop 32).take 107) = .ok weightsP3 := by decide +kernel

/-- The R187 layout, vectors P1 and H9. -/
theorem test_bvxn :
    (let t := nextOf (exec .bvxn (engine ([17, 0, 0, 0, 2, 0, 0, 0] ++ [0xF4, 0x06, 0x62])))
     t.fault = none ∧ t.active = .lzvn ∧ t.spos = 10 ∧ t.blk = ⟨17, 0⟩ ∧ t.lzvn = ⟨[0xF4, 0x06], 0⟩) ∧
    (nextOf (exec .bvxn (engine [1, 0, 0, 0, 0xFF, 0xFF, 0xFF, 0xFF]))).fault =
      some ⟨.format, .f02⟩ := by decide +kernel

/-- Vectors P2, H1 and H2. -/
theorem test_bvxRaw :
    (let t := nextOf (step (engine [0x62, 0x76, 0x78, 0x2D, 2, 0, 0, 0, 0x41, 0x42]))
     t.fault = none ∧ t.active = .raw ∧ t.spos = 10 ∧ t.L = 2 ∧ t.raw = ⟨[0x41, 0x42], 0⟩) ∧
    (let t := nextOf (step (engine [0x62, 0x76, 0x78, 0x2D, 0xFF, 0xFF, 0xFF, 0xFF]))
     t.fault = some ⟨.format, .f02⟩ ∧ t.spos = 8) ∧
    (let t := nextOf (step (engine [0x62, 0x76, 0x78, 0x2D, 5, 0, 0, 0, 0x61]))
     t.fault = some ⟨.truncation, .t01⟩ ∧ t.spos = 8) := by decide +kernel

/-- Vector X7. -/
theorem test_bvxEnd :
    let t := nextOf (step (engine [0x62, 0x76, 0x78, 0x24, 0x67, 0x61, 0x72]))
    t.eos = true ∧ t.spos = 4 ∧ t.fault = none := by decide +kernel

/-- Vectors S1 to S3: F01 past the magic, T01 before it. -/
theorem test_magic_faults :
    (nextOf (step (engine [0x62, 0x76, 0x78, 0x33]))).fault = some ⟨.format, .f01⟩ ∧
    (nextOf (step (engine [0x62, 0x76, 0x78, 0x33]))).spos = 4 ∧
    (nextOf (step (engine [0x62, 0x76, 0x78]))).fault = some ⟨.truncation, .t01⟩ ∧
    (nextOf (step (engine [0x62, 0x76, 0x78]))).spos = 0 := by decide +kernel

/-- `withFetchWord` from reset: the word is the first instruction to run. -/
theorem test_withFetchWord :
    (nextOf (step (State.reset.withFetchWord 32 0x24787662))).eos = true ∧
    (nextOf (step (State.reset.withFetchWord 8 0x70))).fault = some ⟨.format, .f09⟩ ∧
    (nextOf (step (State.reset.withFetchWord 14 0x0F))).vlc.weights = [24] := by decide +kernel

/-! ### Bit reader and tANS -/

/-- The example buffer of R121. -/
def bufferB1 : List Byte := [0x11, 0x22, 0x33, 0x44, 0x55, 0x66, 0x77, 0x88, 0x99]

/-- Vectors B1 to B3. -/
theorem test_reader_examples :
    BitReader.init bufferB1 0 = .ok ⟨0x99887766554433, 56, 2⟩ ∧
    BitReader.run bufferB1 [.read 4, .read 8, .fill] ⟨0x99887766554433, 56, 2⟩ =
      .ok ([(4, 0x9), (8, 0x98)], ⟨0x877665544332211, 60, 0⟩) := by decide +kernel

/-- Vectors B4, B6 and B7. -/
theorem test_reader_offsets :
    BitReader.init [0x11, 0x22, 0x33, 0x44, 0x55, 0x66, 0x77, 0x1F] (-3) =
      .ok ⟨0x1F77665544332211, 61, 0⟩ ∧
    BitReader.init [0x11, 0x22, 0x33, 0x44, 0x55, 0x66, 0x77, 0x01] (-7) =
      .ok ⟨0x177665544332211, 57, 0⟩ ∧
    BitReader.init [0x11, 0x11, 0x11, 0x11, 0x11, 0x11, 0x11, 0xFF] (-3) = .error .f14 := by
  decide +kernel

/-- Vectors B9 and B10. -/
theorem test_reader_faults :
    BitReader.run (List.replicate 7 0) [.read 10, .fill] ⟨0, 56, 0⟩ = .error .f13 ∧
    BitReader.read ⟨0, 56, 0⟩ 57 = .error .t02 := by decide +kernel

/-- Vector T1. -/
theorem test_build_T1 :
    ((buildTable 64 [1, 3, 60]).toOption.getD []).take 8 =
      [(0, 6, 0), (1, 5, 32), (1, 4, 0), (1, 4, 16), (2, 1, 56), (2, 1, 58), (2, 1, 60), (2, 1, 62)].map
        (fun p => some ⟨p.1, p.2.1, p.2.2⟩) ∧
    ((buildTable 64 [1, 3, 60]).toOption.getD []).drop 62 =
      [some ⟨2, 0, 54⟩, some ⟨2, 0, 55⟩] := by decide +kernel

/-- Vector X5. -/
theorem test_build_faults :
    buildTable 64 [65] = .error .f07 ∧ buildTable 64 [64, 1] = .error .f07 ∧
    buildTable 64 (List.replicate 257 0) = .error .f08 ∧
    buildTable 64 (List.replicate 256 0) = .ok (List.replicate 64 none) := by decide +kernel

/-- Vectors T5 and T6. -/
theorem test_transition :
    transition 64 ((buildTable 64 [1, 3, 60]).toOption.getD []) 4 ⟨1, 1, 0⟩ =
      .ok (⟨2, 1, 56⟩, 57, ⟨0, 0, 0⟩) ∧
    lookup 64 ((buildTable 64 [32]).toOption.getD []) 40 = .error .f12 ∧
    lookup 64 ((buildTable 64 [32]).toOption.getD []) 64 = .error .f11 := by decide +kernel

/-- Vectors V3, V6 and V10: the largest L, M and D. -/
theorem test_value_tables :
    lBase 19 + 2 ^ lExtra 19 - 1 = 315 ∧ mBase 19 + 2 ^ mExtra 19 - 1 = 2359 ∧ dBase 63 = 229372 ∧
    dBase 63 + 2 ^ dExtra 63 - 1 = 262139 := by decide +kernel

/-- P3's tables. -/
def tablesP3 : TableSet :=
  ((buildTables weightsP3).toOption).getD ⟨[], [], [], []⟩

/-- P3's LZFSE registers after the block's start. -/
def lzfseP3 : Lzfse :=
  { Lzfse.zero with
    nLiterals := 8
    remaining := 3
    tl := tablesP3.tl
    tm := tablesP3.tm
    td := tablesP3.td
    sL := 22
    sM := 36
    sD := 176
    brLmd := ⟨0x00100000000000, 56, 3⟩
    lmdp := [0, 0, 0, 0, 0, 0, 0, 0, 0x10, 0] }

/-- An LZFSE block at P3's first fetch. -/
def fetchP3 : State :=
  { engine [] with active := .v2, lzfse := lzfseP3, blk := ⟨22, 0⟩ }

/-- P3's first triple, and the states after it. -/
theorem test_first_triple :
    let t := nextOf (step fetchP3)
    (t.L, t.M, t.D) = (4, 6, 4) ∧ (t.lzfse.sL, t.lzfse.sM, t.lzfse.sD) = (20, 16, 192) ∧
    t.lzfse.remaining = 2 ∧ t.fault = none := by decide +kernel

/-! ### Ring and host calls -/

/-- Vector M2, then M3. -/
theorem test_ring_wraps :
    let s := ringWriteAll [0x61, 0x62, 0x63, 0x64, 0x65] (State.initial 4 630 [])
    s.mb = [(0, 0x65), (1, 0x62), (2, 0x63), (3, 0x64)] ∧ s.mcur = 1 ∧ s.outTotal = 5 ∧
    (ringMatch 4 s).map (fun p => (p.1, p.2.mcur)) = some (0x62, 2) := by decide +kernel

/-- Vector M5: distance 3, length 10. -/
theorem test_bulk_match_overlaps :
    (ringMatchAll 3 10 (ringWriteAll [0x78, 0x79, 0x7A] (engine []))).map Prod.fst =
      some [0x78, 0x79, 0x7A, 0x78, 0x79, 0x7A, 0x78, 0x79, 0x7A, 0x78] := by decide +kernel

/-- Vectors S5 to S9. -/
theorem test_usage_faults :
    (bulkReadWith 1 [0, 0, 0, 0] 2 3 (engine [])).1 = .raised ⟨.usage, .u02⟩ ∧
    (bulkReadWith 1 [0] (-1) 1 (engine [])).1 = .raised ⟨.usage, .u02⟩ ∧
    construct 3 720 [] = .error ⟨.usage, .u01⟩ ∧ construct 1 720 [] = .error ⟨.usage, .u01⟩ ∧
    construct 262144 629 [] = .error ⟨.usage, .u01⟩ := by decide +kernel

/-! ### States of the invariant -/

theorem headerZero_ok : HeaderOk Header.zero := by
  constructor <;> simp [Header.zero]

theorem tablesZero_ok (n : Nat) : TablesOk { Lzfse.zero with nLiterals := n } := by
  constructor <;> simp [Lzfse.zero]

/-- A small state at a boundary, with no LZFSE tables, keeps the invariant if its memories, ring, block and
registers do. -/
theorem inv_small {s : State} {n : Nat} (hs : s.ringSize = 16 ∧ s.tableCapacity = 630)
    (hv : s.vlc = ⟨0, 0, 0, []⟩) (hp : s.phase = .idle) (hz : s.lzfse = { Lzfse.zero with nLiterals := n })
    (hm : MemoryOk s) (hr : RingOk s) (hb : BlockOk s) (hg : RangesOk s) : Inv s where
  parameters := by
    rw [ParametersOk, hs.1, hs.2]
    decide
  memory := hm
  ring := hr
  block := hb
  tables := hz ▸ tablesZero_ok n
  readers := by
    rw [hz]
    simp [ReadersOk, BitReader.Ok, Lzfse.zero]
  vlc := by constructor <;> simp [hv, hp]
  ranges := hg

theorem inv_engine (source : List Byte) : Inv (engine source) := by
  refine inv_small (n := 0) ⟨rfl, rfl⟩ rfl rfl rfl ⟨rfl, by simp [engine, State.initial],
    Nat.zero_lt_succ 15, rfl, by simp [engine, State.initial]⟩ ⟨rfl, rfl, fun d h1 h2 => ?_⟩ ?_ ?_
  · simp only [engine, State.initial] at h2
    omega
  · constructor <;> simp [engine, State.initial, BlockKind.isLzfse]
  · constructor <;> simp [engine, State.initial, Lzfse.zero, headerZero_ok]

/-- One literal of an LZVN block to emit. -/
def literalLzvn : State :=
  { engine [] with active := .lzvn, lzvn := ⟨[0x61], 0⟩, L := 1, blk := ⟨1, 0⟩ }

/-- One literal of a raw block to emit. -/
def literalRaw : State :=
  { engine [] with active := .raw, raw := ⟨[0x61], 0⟩, L := 1, blk := ⟨1, 0⟩ }

/-- One literal of an LZFSE block to emit. -/
def literalLzfse : State :=
  { engine [] with
    active := .v1
    lit := Memory.ofBytes 0 [0x61, 0x62, 0x63, 0x64]
    lzfse := { Lzfse.zero with nLiterals := 4 }
    L := 1
    blk := ⟨4, 0⟩ }

/-- One match byte to emit, at distance 1 after one byte. -/
def matchLzvn : State :=
  { ringWrite 0x61 (engine []) with active := .lzvn, M := 1, D := 1, blk := ⟨2, 1⟩ }

theorem inv_literalLzvn : Inv literalLzvn := by
  refine inv_small (n := 0) ⟨rfl, rfl⟩ rfl rfl rfl ⟨rfl, by decide, by decide, rfl, by decide⟩
    ⟨rfl, rfl, fun d h1 h2 => ?_⟩ ?_ ?_
  · simp only [literalLzvn, engine, State.initial] at h2
    omega
  · constructor <;> simp [literalLzvn, engine, State.initial, BlockKind.isLzfse]
  · constructor <;> simp [literalLzvn, engine, State.initial, Lzfse.zero, headerZero_ok]

theorem inv_literalRaw : Inv literalRaw := by
  refine inv_small (n := 0) ⟨rfl, rfl⟩ rfl rfl rfl ⟨rfl, by decide, by decide, rfl, by decide⟩
    ⟨rfl, rfl, fun d h1 h2 => ?_⟩ ?_ ?_
  · simp only [literalRaw, engine, State.initial] at h2
    omega
  · constructor <;> simp [literalRaw, engine, State.initial, BlockKind.isLzfse]
  · constructor <;> simp [literalRaw, engine, State.initial, Lzfse.zero, headerZero_ok]

theorem inv_literalLzfse : Inv literalLzfse := by
  refine inv_small (n := 4) ⟨rfl, rfl⟩ rfl rfl rfl ⟨rfl, by decide, by decide, rfl, by decide⟩
    ⟨rfl, rfl, fun d h1 h2 => ?_⟩ ?_ ?_
  · simp only [literalLzfse, engine, State.initial] at h2
    omega
  · constructor <;> simp [literalLzfse, engine, State.initial, Lzfse.zero]
    decide
  · constructor <;>
      simp [literalLzfse, engine, State.initial, Lzfse.zero, headerZero_ok, Config.literalsPerBlock]

theorem inv_matchLzvn : Inv matchLzvn := by
  refine inv_small (n := 0) ⟨rfl, rfl⟩ rfl rfl rfl ⟨rfl, by decide, by decide, rfl, by decide⟩
    ⟨rfl, rfl, fun d h1 h2 _ => ?_⟩ ?_ ?_
  · obtain rfl : d = 1 := by
      have : matchLzvn.outTotal = 1 := rfl
      omega
    rfl
  · constructor <;> simp [matchLzvn, ringWrite, emit, engine, State.initial, BlockKind.isLzfse]
  · constructor <;>
      simp [matchLzvn, ringWrite, emit, engine, State.initial, Lzfse.zero, headerZero_ok]

/-! ### Witnesses: states and operands that meet the statements' hypotheses -/

theorem test_witness_DecodeEncodeAgree :
    (Instr.smlD 3 1 1535).wellFormed = true ∧ (Instr.preD 1 5).wellFormed = true ∧
    (Instr.udef 0xDF).wellFormed = true ∧ (Instr.v24to1047 1023).wellFormed = true := by decide

theorem test_witness_EncodeDecodeAgree :
    Level.lzvn ≠ .vlc ∧ decode .lzvn [0xC0, 0xFF, 0x77] = .ok (.smlD 3 0 255) ∧
    Level.block ≠ .vlc ∧ decode .block [0x62, 0x76, 0x78, 0x24, 0x67] = .ok .bvxEnd := by decide

/-- A clause each: a magic that ends the source, an opcode at a boundary and after a `nop`, the last code. -/
theorem test_witness_StepRunsDecodedInstruction :
    (∃ s : State, s.fault = none ∧ s.eos = false ∧ s.phase = .idle ∧ s.active = .noBlock ∧
      s.spos + 4 = s.src.length ∧ decodeBlock (sourceBytes 4 s) = .ok .bvxEnd) ∧
    (∃ s : State, s.fault = none ∧ s.eos = false ∧ s.phase = .idle ∧ s.active = .lzvn ∧ s.L = 0 ∧ s.M = 0 ∧
      decodeLzvn (s.lzvn.vp.drop s.lzvn.vpos) = .ok .eos) ∧
    (∃ s : State, s.fault = none ∧ s.eos = false ∧ s.phase = .lzvnFetch ∧
      decodeLzvn (s.lzvn.vp.drop s.lzvn.vpos) = .ok .eos) ∧
    (∃ s : State, s.fault = none ∧ s.eos = false ∧ s.phase = .vlc ∧ s.vlc.weights.length = 359 ∧
      decodeVlc (vlcWindow (Vlc.refill (vlcBlob s) 4 s.vlc)) = .v3) :=
  ⟨⟨engine [0x62, 0x76, 0x78, 0x24], by decide +kernel⟩, ⟨lzvnBlock [0x06] 0, by decide +kernel⟩,
    ⟨{ lzvnBlock [0x0E, 0x06] 0 with phase := .lzvnFetch, lzvn := ⟨[0x0E, 0x06], 1⟩ }, by decide +kernel⟩,
    ⟨vlcState [0x05] (List.replicate 359 0), by decide +kernel⟩⟩

theorem test_witness_FaultedEngineTakesNoStep :
    (raise (engine []) .f01).fault = some ⟨.format, .f01⟩ := rfl

/-- With `len` 1 and with `len` 0; an engine that is not at end of stream. -/
theorem test_witness_EndOfStreamIsFinal :
    let s := setEos (engine [])
    s.fault = none ∧ s.eos = true ∧ s.phase = .idle ∧ 1 ≤ 1 ∧ badReadArgs [0] 0 1 = false ∧
    badReadArgs [0] 1 0 = false ∧ (engine []).fault = none ∧ (engine []).eos = false := by decide

/-- Three bytes of a magic; four that are none. -/
theorem test_witness_MagicFaults :
    (∃ s : State, Ready s ∧ s.active = .noBlock ∧ s.src.length + 1 = s.spos + 4) ∧
    (∃ s : State, Ready s ∧ s.active = .noBlock ∧ s.spos + 4 = s.src.length ∧
      ∀ i, leNat (sourceBytes 4 s) ≠ leNat (encode i) ∨ i.level ≠ .block) := by
  refine ⟨⟨engine [0x62, 0x76, 0x78], ⟨rfl, rfl, rfl⟩, rfl, rfl⟩,
    engine [0x62, 0x76, 0x78, 0x33], ⟨rfl, rfl, rfl⟩, rfl, rfl, fun i => ?_⟩
  cases i <;> first | exact .inl (by decide) | exact .inr (by simp [Instr.level])

/-- The V1 header of an empty block with two payloads of seven bytes, the fewest `init` takes. -/
def emptyV1 : RawV1 :=
  { headerP4 with
    nRawBytes := 0
    nPayloadBytes := 14
    nLiterals := 0
    nMatches := 0
    nLiteralPayloadBytes := 7
    nLmdPayloadBytes := 7
    weights := List.replicate 360 0 }

/-- The tables of zero weights. -/
def emptyTables : TableSet :=
  ⟨Lzfse.zero.tl, Lzfse.zero.tm, Lzfse.zero.td, Lzfse.zero.tlit⟩

/-- A header one byte short; `nRawBytes` -1; a header that passes, its payloads missing; an empty block. -/
theorem test_witness_Bvx1ParsesAndStarts :
    (∃ s : State, s.src.length + 1 = s.spos + 766) ∧
    (∃ (s : State) (r : Reason), s.spos + 766 = s.src.length ∧ parseV1 (sourceBytes 766 s) = .error r) ∧
    (∃ (s : State) (h : Header), s.spos + 766 = s.src.length ∧ parseV1 (sourceBytes 766 s) = .ok h) ∧
    (∃ (s : State) (h : Header) (lanes : Lanes) (a b : BitReader),
      s.spos + 766 + h.nLiteralPayloadBytes + h.nLmdPayloadBytes = s.src.length ∧
      parseV1 (sourceBytes 766 s) = .ok h ∧ h.nLiterals ≤ 40000 ∧ h.nLiterals % 4 = 0 ∧
      buildTables h.weights = .ok emptyTables ∧
      literalDecode emptyTables.tlit ((s.src.drop (s.spos + 766)).take h.nLiteralPayloadBytes)
        h.literalBits h.nLiterals h.literalState = .ok ([], lanes, a) ∧
      BitReader.init ((s.src.drop (s.spos + 766 + h.nLiteralPayloadBytes)).take h.nLmdPayloadBytes)
        h.lmdBits = .ok b) :=
  ⟨⟨engine (List.replicate 765 0), by decide +kernel⟩,
    ⟨engine (v1HeaderBytes { emptyV1 with nRawBytes := -1 }), .f02, by decide +kernel⟩,
    ⟨engine (v1HeaderBytes emptyV1), emptyV1.header, by decide +kernel⟩,
    ⟨engine (v1HeaderBytes emptyV1 ++ List.replicate 14 0), emptyV1.header, ⟨262, 656, 856, 1007⟩,
      ⟨0, 56, 0⟩, ⟨0, 56, 0⟩, by decide +kernel⟩⟩

/-- The header of vector L10's kind with payloads of eight bytes. -/
def emptyV2 : Header :=
  { emptyV1.header with nPayloadBytes := 16, nLiteralPayloadBytes := 8, nLmdPayloadBytes := 8 }

/-- A prefix one byte short; `headerSize` 31; 33 without and with its blob byte; 32. -/
theorem test_witness_Bvx2ParsesAndStarts :
    (∃ s : State, s.src.length + 1 = s.spos + 28) ∧
    (∃ s : State, s.spos + 28 = s.src.length ∧
      parseV2Prefix s.tableCapacity (sourceBytes 28 s) = .error .f02) ∧
    (∃ s : State, s.src.length + 1 = s.spos + 28 + 1 ∧
      parseV2Prefix s.tableCapacity (sourceBytes 28 s) = .ok (emptyV2, 1)) ∧
    (∃ s : State, s.spos + 28 + 1 = s.src.length ∧
      parseV2Prefix s.tableCapacity (sourceBytes 28 s) = .ok (emptyV2, 1)) ∧
    (∃ s : State, s.spos + 28 = s.src.length ∧
      parseV2Prefix s.tableCapacity (sourceBytes 28 s) = .ok (emptyV2, 0)) :=
  ⟨⟨engine (List.replicate 27 0), by decide +kernel⟩,
    ⟨engine (v2PrefixBytes emptyV2 31), by decide +kernel⟩,
    ⟨engine (v2PrefixBytes emptyV2 33), by decide +kernel⟩,
    ⟨engine (v2PrefixBytes emptyV2 33 ++ [0]), by decide +kernel⟩,
    ⟨engine (v2PrefixBytes emptyV2 32), by decide +kernel⟩⟩

/-- The premises of the four clauses of an LZVN header, its counts `nRaw` and `nPay` in the source. -/
abbrev LzvnHeaderIs (s : State) (nRaw nPay : Int) : Prop :=
  s.spos + 8 ≤ s.src.length ∧ nRaw = sext 32 (memRead (sourceBytes 8 s) 0 4) ∧
  nPay = sext 32 (memRead (sourceBytes 8 s) 4 4)

/-- A header one byte short; a negative count; a payload one byte short; an exact one. -/
theorem test_witness_BvxnStartsBlock :
    (∃ s : State, s.src.length + 1 = s.spos + 8) ∧
    (∃ s nRaw nPay, LzvnHeaderIs s nRaw nPay ∧ nRaw < 0) ∧
    (∃ s nRaw nPay, LzvnHeaderIs s nRaw nPay ∧ 0 ≤ nRaw ∧ nPay < 0) ∧
    (∃ s nRaw nPay, LzvnHeaderIs s nRaw nPay ∧ 0 ≤ nRaw ∧ 0 ≤ nPay ∧
      (s.src.length : Int) + 1 = s.spos + 8 + nPay) ∧
    (∃ s nRaw nPay, LzvnHeaderIs s nRaw nPay ∧ 0 ≤ nRaw ∧ 0 ≤ nPay ∧
      (s.spos : Int) + 8 + nPay = s.src.length) :=
  ⟨⟨engine (List.replicate 7 0), rfl⟩,
    ⟨engine [0xFF, 0xFF, 0xFF, 0xFF, 0, 0, 0, 0], -1, 0, by decide⟩,
    ⟨engine [0, 0, 0, 0, 0, 0, 0, 0x80], 0, -2 ^ 31, by decide⟩,
    ⟨engine [0, 0, 0, 0, 2, 0, 0, 0, 0x06], 0, 2, by decide⟩,
    ⟨engine [0, 0, 0, 0, 1, 0, 0, 0, 0x06], 0, 1, by decide⟩⟩

/-- The premise of the clauses of a raw header. -/
abbrev RawHeaderIs (s : State) (nRaw : Int) : Prop :=
  s.spos + 4 ≤ s.src.length ∧ nRaw = sext 32 (memRead (sourceBytes 4 s) 0 4)

/-- A header one byte short; `nRawBytes` -1; a payload one byte short; an exact one. -/
theorem test_witness_BvxRawStartsBlock :
    (∃ s : State, s.src.length + 1 = s.spos + 4) ∧
    (∃ s nRaw, RawHeaderIs s nRaw ∧ nRaw < 0) ∧
    (∃ s nRaw, RawHeaderIs s nRaw ∧ 0 ≤ nRaw ∧ (s.src.length : Int) + 1 = s.spos + 4 + nRaw) ∧
    (∃ s nRaw, RawHeaderIs s nRaw ∧ 0 ≤ nRaw ∧ (s.spos : Int) + 4 + nRaw = s.src.length) :=
  ⟨⟨engine [0, 0, 0], rfl⟩, ⟨engine [0xFF, 0xFF, 0xFF, 0xFF], -1, by decide⟩,
    ⟨engine [2, 0, 0, 0, 0x41], 2, by decide⟩, ⟨engine [0, 0, 0, 0], 0, by decide⟩⟩

theorem test_witness_BvxEndSetsEos :
    ∃ s : State, Ready s ∧ s.active = .noBlock ∧ sourceBytes 4 s = [0x62, 0x76, 0x78, 0x24] :=
  ⟨engine [0x62, 0x76, 0x78, 0x24], ⟨rfl, rfl, rfl⟩, rfl, by decide⟩

/-- An engine whose header record says what `initLzfse` is to read. -/
def initState (h : Header) (source : List Byte) : State :=
  { engine source with hdr := h }

/-- The first three checks of R217: the literal count (40004 and 2), the weights (65 of 64), the payloads one
byte short. -/
theorem test_witness_LzfseInitInOrder_checks :
    (∃ s : State, 40000 < s.hdr.nLiterals) ∧ (∃ s : State, s.hdr.nLiterals % 4 ≠ 0) ∧
    (∃ s : State, s.hdr.nLiterals ≤ 40000 ∧ s.hdr.nLiterals % 4 = 0 ∧
      buildTables s.hdr.weights = .error .f07) ∧
    (∃ s : State, s.hdr.nLiterals = 40000 ∧ s.hdr.nLiterals % 4 = 0 ∧
      buildTables s.hdr.weights = .ok emptyTables ∧
      s.src.length + 1 = s.spos + s.hdr.nLiteralPayloadBytes) ∧
    (∃ s : State, s.hdr.nLiterals ≤ 40000 ∧ s.hdr.nLiterals % 4 = 0 ∧
      buildTables s.hdr.weights = .ok emptyTables ∧
      s.spos + s.hdr.nLiteralPayloadBytes ≤ s.src.length ∧
      s.src.length + 1 = s.spos + s.hdr.nLiteralPayloadBytes + s.hdr.nLmdPayloadBytes) :=
  ⟨⟨initState { emptyV2 with nLiterals := 40004 } [], by decide⟩,
    ⟨initState { emptyV2 with nLiterals := 2 } [], by decide⟩,
    ⟨initState { emptyV2 with weights := 65 :: List.replicate 359 0 } [], by decide +kernel⟩,
    ⟨initState { emptyV2 with nLiterals := 40000 } (List.replicate 7 0), by decide +kernel⟩,
    ⟨initState emptyV2 (List.replicate 15 0), by decide +kernel⟩⟩

/-- The two readers of R217: an empty literal payload and an empty LMD payload (F13, vector L11), and both
with the fewest bytes. -/
theorem test_witness_LzfseInitInOrder_readers :
    (∃ s : State, s.hdr.nLiterals ≤ 40000 ∧ s.hdr.nLiterals % 4 = 0 ∧
      buildTables s.hdr.weights = .ok emptyTables ∧
      s.spos + s.hdr.nLiteralPayloadBytes + s.hdr.nLmdPayloadBytes ≤ s.src.length ∧
      literalDecode emptyTables.tlit ((s.src.drop s.spos).take s.hdr.nLiteralPayloadBytes)
        s.hdr.literalBits s.hdr.nLiterals s.hdr.literalState = .error .f13) ∧
    (∃ s : State, s.hdr.nLiterals ≤ 40000 ∧ s.hdr.nLiterals % 4 = 0 ∧
      buildTables s.hdr.weights = .ok emptyTables ∧
      s.spos + s.hdr.nLiteralPayloadBytes + s.hdr.nLmdPayloadBytes ≤ s.src.length ∧
      literalDecode emptyTables.tlit ((s.src.drop s.spos).take s.hdr.nLiteralPayloadBytes)
        s.hdr.literalBits s.hdr.nLiterals s.hdr.literalState =
        .ok ([], s.hdr.literalState, ⟨0, 56, 0⟩) ∧
      BitReader.init ((s.src.drop (s.spos + s.hdr.nLiteralPayloadBytes)).take s.hdr.nLmdPayloadBytes)
        s.hdr.lmdBits = .error .f13) ∧
    (∃ s : State, s.hdr.nLiterals ≤ 40000 ∧ s.hdr.nLiterals % 4 = 0 ∧
      buildTables s.hdr.weights = .ok emptyTables ∧
      s.spos + s.hdr.nLiteralPayloadBytes + s.hdr.nLmdPayloadBytes = s.src.length ∧
      literalDecode emptyTables.tlit ((s.src.drop s.spos).take s.hdr.nLiteralPayloadBytes)
        s.hdr.literalBits s.hdr.nLiterals s.hdr.literalState =
        .ok ([], s.hdr.literalState, ⟨0, 56, 0⟩) ∧
      BitReader.init ((s.src.drop (s.spos + s.hdr.nLiteralPayloadBytes)).take s.hdr.nLmdPayloadBytes)
        s.hdr.lmdBits = .ok ⟨0, 56, 0⟩) :=
  ⟨⟨initState { emptyV2 with nLiteralPayloadBytes := 0 } (List.replicate 8 0), by decide +kernel⟩,
    ⟨initState { emptyV1.header with nLmdPayloadBytes := 0 } (List.replicate 7 0), by decide +kernel⟩,
    ⟨initState emptyV1.header (List.replicate 14 0), by decide +kernel⟩⟩

/-- Two quads of ten-bit symbols: too short a payload; over seven bytes, the reader's start, the first quad, and the
second quad's fill, which fails (R140). -/
theorem test_witness_LzfseInitInOrder_literals :
    let t : List (Option Entry) := [some ⟨0x41, 10, 0⟩]
    let lp : List Byte := List.replicate 7 0
    let z : Lanes := ⟨0, 0, 0, 0⟩
    BitReader.init [] 0 = .error .f13 ∧ BitReader.init lp 0 = .ok ⟨0, 56, 0⟩ ∧
    literalDecode t [] 0 (4 * 0) z = .error .f13 ∧
    literalDecode t lp 0 (4 * 0) z = .ok ([], z, ⟨0, 56, 0⟩) ∧
    literalDecode t lp 0 (4 * 1) z = .ok ([0x41, 0x41, 0x41, 0x41], z, ⟨0, 16, 0⟩) ∧
    (⟨0, 56, 0⟩ : BitReader).fill lp = .ok ⟨0, 56, 0⟩ ∧
    (⟨0, 16, 0⟩ : BitReader).fill lp = .error .f13 := by decide +kernel

/-- The four lanes of that first quad, and each with its state out of the table. -/
theorem test_witness_LzfseInitInOrder_lanes :
    let t : List (Option Entry) := [some ⟨0x41, 10, 0⟩]
    transition 1024 t 0 ⟨0, 56, 0⟩ = .ok (⟨0x41, 10, 0⟩, 0, ⟨0, 46, 0⟩) ∧
    transition 1024 t 0 ⟨0, 46, 0⟩ = .ok (⟨0x41, 10, 0⟩, 0, ⟨0, 36, 0⟩) ∧
    transition 1024 t 0 ⟨0, 36, 0⟩ = .ok (⟨0x41, 10, 0⟩, 0, ⟨0, 26, 0⟩) ∧
    transition 1024 t 0 ⟨0, 26, 0⟩ = .ok (⟨0x41, 10, 0⟩, 0, ⟨0, 16, 0⟩) ∧
    ∀ cnt ∈ [56, 46, 36, 26], transition 1024 t 1024 ⟨0, cnt, 0⟩ = .error .f11 := by decide +kernel

/-- 360 weights decoded: a bit left that is set; eight bits left; a blob byte unread; seven zero bits left. -/
theorem test_witness_V2EngineStepDecodesBlob_end :
    let s := vlcState [0] (List.replicate 360 0)
    s.fault = none ∧ s.eos = false ∧ s.phase = .vlc ∧ s.vlc.weights.length = 360 ∧
    (∃ v : Vlc, v.weights = s.vlc.weights ∧ v.acc ≠ 0 ∧ v.nb < 8) ∧
    (∃ v : Vlc, v.weights = s.vlc.weights ∧ v.acc = 0 ∧ 8 = v.nb) ∧
    (∃ v : Vlc, v.weights = s.vlc.weights ∧ v.acc = 0 ∧ v.nb < 8 ∧ v.p ≠ (vlcBlob s).length) ∧
    ∃ v : Vlc, v.weights = s.vlc.weights ∧ v.acc = 0 ∧ v.nb + 1 = 8 ∧ v.p = (vlcBlob s).length :=
  ⟨rfl, rfl, rfl, List.length_replicate, ⟨⟨1, 7, 1, _⟩, rfl, by decide, by decide⟩, ⟨⟨0, 8, 1, _⟩, rfl, rfl, rfl⟩,
    ⟨⟨0, 7, 0, _⟩, rfl, rfl, by decide, by decide⟩, ⟨0, 7, 1, _⟩, rfl, rfl, rfl, rfl⟩

/-- The step that enters P3's frequency codes. -/
theorem test_witness_V2EngineStepDecodesBlob_entry :
    let s := engine sourceP3
    step s = .next (nextOf (step s)) ∧ (nextOf (step s)).phase = .vlc ∧
    (nextOf (step s)).vlc = { acc := 0, nb := 0, p := 0, weights := [] } :=
  ⟨eq_next (by decide +kernel), by decide +kernel, by decide +kernel⟩

/-- A blob of 90 zero bytes decodes (vector VL1); an empty one faults. -/
theorem test_witness_V2EngineStepDecodesBlob :
    let a := vlcState (List.replicate 90 0) []
    let b := vlcState [] []
    (a.fault = none ∧ a.eos = false ∧ a.phase = .vlc ∧ a.vlc = { acc := 0, nb := 0, p := 0, weights := [] } ∧
      361 ≤ 361 ∧ vlcDecode (vlcBlob a) = .ok (List.replicate 360 0)) ∧
    (b.fault = none ∧ b.eos = false ∧ b.phase = .vlc ∧ b.vlc = { acc := 0, nb := 0, p := 0, weights := [] } ∧
      361 ≤ 361 ∧ vlcDecode (vlcBlob b) = .error .f04) := by decide +kernel

/-- A key for each form, and the bit counts one short of a form's width and equal to it. -/
theorem test_witness_FrequencyCodes :
    (BitVec.toNat (0b11100 : BitVec 14)) % 4 = 0b00 ∧ (BitVec.toNat (0b11110 : BitVec 14)) % 4 = 0b10 ∧
    (BitVec.toNat (0b11001 : BitVec 14)) % 8 = 0b001 ∧ (BitVec.toNat (0b11101 : BitVec 14)) % 8 = 0b101 ∧
    (BitVec.toNat (0b11011 : BitVec 14)) % 8 = 0b011 ∧ (BitVec.toNat (0b10111 : BitVec 14)) % 16 = 0b0111 ∧
    (BitVec.toNat (0b11111 : BitVec 14)) % 16 = 0b1111 ∧
    (∀ width ∈ [2, 3, 5, 8, 14], ∃ s t : State, s.vlc.nb < width ∧ s.vlc.nb + 1 = width ∧
      width ≤ t.vlc.nb ∧ t.vlc.nb = width) := by
  refine ⟨by decide, by decide, by decide, by decide, by decide, by decide, by decide, fun width hw => ?_⟩
  have hpos : 1 ≤ width := by
    simp only [List.mem_cons, List.not_mem_nil, or_false] at hw
    omega
  exact ⟨{ engine [] with vlc := ⟨0, width - 1, 0, []⟩ }, { engine [] with vlc := ⟨0, width, 0, []⟩ },
    by show width - 1 < width; omega, by show width - 1 + 1 = width; omega, Nat.le_refl _, rfl⟩

theorem test_witness_FrequencyTableRoundTrip :
    ∃ ws : List Nat, ws.length = 360 ∧ ∀ w ∈ ws, w ≤ 1047 :=
  ⟨List.replicate 360 1047, List.length_replicate, fun _ hw => (List.eq_of_mem_replicate hw).le⟩

theorem test_witness_FrequencyCodesFrame :
    ∃ s t : State, Instr.vz1.level = .vlc ∧ s.fault = none ∧ exec .vz1 s = .next t ∧ t.fault = none :=
  ⟨{ engine [] with vlc := ⟨0b10, 2, 0, []⟩ }, _, rfl, rfl, rfl, rfl⟩

/-- A state for each clause of `LzvnOpcodeDoes` for an opcode of `n` bytes with the triple
`(l, m, newD)`: the payload one byte short; exact, with the block one byte short; room, with a distance that is
bad where there is a match; and every check passed. -/
def OpcodeClausesMet (n l m newD : Nat) : Prop :=
  (∃ s : State, s.active = .lzvn ∧ s.lzvn.vp.length + 1 = s.lzvn.vpos + n + l) ∧
  (∃ s : State, s.active = .lzvn ∧ s.lzvn.vpos + n + l = s.lzvn.vp.length ∧
    s.blk.nRaw + 1 = s.blk.out + l + m) ∧
  (0 < m → ∃ s : State, s.active = .lzvn ∧ s.lzvn.vpos + n + l ≤ s.lzvn.vp.length ∧
    s.blk.out + l + m ≤ s.blk.nRaw ∧ BadDistance l m newD s) ∧
  ∃ s : State, s.active = .lzvn ∧ s.lzvn.vpos + n + l = s.lzvn.vp.length ∧
    s.blk.out + l + m = s.blk.nRaw ∧ ¬ BadDistance l m newD s

theorem opcodeClauses_met {n l m newD : Nat} (hn : 1 ≤ n) (hlm : 1 ≤ l + m) :
    OpcodeClausesMet n l m newD := by
  refine ⟨⟨lzvnBlock (List.replicate (n + l - 1) 0) 0, rfl, ?_⟩,
    ⟨lzvnBlock (List.replicate (n + l) 0) (l + m - 1), rfl, ?_, ?_⟩,
    fun hm => ⟨{ lzvnBlock (List.replicate (n + l) 0) (l + m) with D := 0, ringSize := 0 }, rfl, ?_, ?_, hm, ?_⟩,
    ⟨{ lzvnBlock (List.replicate (n + l) 0) (l + m) with
        D := 1, outTotal := newD + 1, ringSize := newD + 1 }, rfl, ?_, ?_, ?_⟩⟩
  all_goals simp only [lzvnBlock, List.length_replicate, BadDistance, heldAfter]
  all_goals first | omega | (split <;> omega)

theorem test_witness_SmlDEffect :
    OpcodeClausesMet 2 3 10 1535 ∧ OpcodeClausesMet 2 0 3 0 ∧ lzvnClass 0x48 = .smlD :=
  ⟨opcodeClauses_met (by decide) (by decide), opcodeClauses_met (by decide) (by decide), by decide⟩

theorem test_witness_MedDEffect :
    OpcodeClausesMet 3 3 34 16383 ∧ OpcodeClausesMet 3 0 3 0 ∧ lzvnClass 0xA0 = .medD ∧
    lzvnClass 0xBF = .medD :=
  ⟨opcodeClauses_met (by decide) (by decide), opcodeClauses_met (by decide) (by decide), by decide, by decide⟩

theorem test_witness_LrgDEffect :
    OpcodeClausesMet 3 3 10 65535 ∧ OpcodeClausesMet 3 0 3 0 ∧ lzvnClass 0x0F = .lrgD :=
  ⟨opcodeClauses_met (by decide) (by decide), opcodeClauses_met (by decide) (by decide), by decide⟩

theorem test_witness_PreDEffect : OpcodeClausesMet 1 1 3 0 ∧ lzvnClass 0x46 = .preD :=
  ⟨opcodeClauses_met (by decide) (by decide), by decide⟩

theorem test_witness_SmlLEffect : OpcodeClausesMet 1 15 0 0 ∧ lzvnClass 0xE1 = .smlL :=
  ⟨opcodeClauses_met (by decide) (by decide), by decide⟩

theorem test_witness_LrgLEffect : OpcodeClausesMet 2 271 0 0 ∧ lzvnClass 0xE0 = .lrgL :=
  ⟨opcodeClauses_met (by decide) (by decide), by decide⟩

theorem test_witness_SmlMEffect : OpcodeClausesMet 1 0 15 0 ∧ lzvnClass 0xFF = .smlM :=
  ⟨opcodeClauses_met (by decide) (by decide), by decide⟩

theorem test_witness_LrgMEffect : OpcodeClausesMet 2 0 271 0 ∧ lzvnClass 0xF0 = .lrgM :=
  ⟨opcodeClauses_met (by decide) (by decide), by decide⟩

/-- No `nop` and a run of two at an engine step's boundary, and two inside it, before an `eos` and at the payload's
end. -/
theorem test_witness_LzvnControlOpcodes_run :
    (∀ b ∈ [(0x0E : Byte), 0x16], b = 0x0E ∨ b = 0x16) ∧
    (∀ nops ∈ [[], [0x0E, 0x16]], ∀ rest ∈ [[0x06], []],
      FetchesOpcode (lzvnBlock (nops ++ rest) 0) ∧
      FetchesOpcode { lzvnBlock (nops ++ rest) 0 with phase := .lzvnFetch } ∧
      (lzvnBlock (nops ++ rest) 0).lzvn.vp.drop (lzvnBlock (nops ++ rest) 0).lzvn.vpos = nops ++ rest) ∧
    decodeLzvn [0x06] = .ok .eos ∧ (∀ op, Instr.eos ≠ .nop op) ∧ decodeLzvn [] = .error .missingOpcode :=
  ⟨by decide, fun _ _ _ _ => ⟨⟨rfl, rfl, .inr ⟨rfl, rfl, rfl, rfl⟩⟩, ⟨rfl, rfl, .inl rfl⟩, rfl⟩, rfl,
    fun _ => Instr.noConfusion, rfl⟩

/-- R241: one fetch consumes two `nop` opcodes and takes the triple after them. -/
theorem test_engine_step_nops :
    triple (nextOf (engineStep (lzvnBlock [0x0E, 0x16, 0xE1, 0x41] 1))) = (1, 0, 0, 3, none) := by decide +kernel

/-- `eos` with the byte count met, and short of it; an opcode after a `nop`. -/
theorem test_witness_LzvnControlOpcodes :
    (∃ s : State, s.blk.out = s.blk.nRaw) ∧ (∃ s : State, s.blk.out ≠ s.blk.nRaw) ∧
    ∃ s : State, s.fault = none ∧ s.eos = false ∧
      decodeLzvn (s.lzvn.vp.drop (s.lzvn.vpos + 1)) = .ok .eos :=
  ⟨⟨lzvnBlock [0x06] 0, rfl⟩, ⟨lzvnBlock [0x06] 1, by decide⟩, lzvnBlock [0x0E, 0x06] 0, rfl, rfl, by decide⟩

/-- Vectors Z29, Z30 and Z31, and the payload's end after a `nop`. -/
theorem test_witness_LzvnOverrunFaults :
    (∃ s : State, FetchesOpcode s ∧ s.phase = .idle ∧ s.lzvn.vp.length = s.lzvn.vpos) ∧
    (∃ s : State, FetchesOpcode s ∧ s.phase = .lzvnFetch ∧ s.lzvn.vp.length = s.lzvn.vpos) ∧
    (∃ (s : State) (op : Byte) (rest : List Byte), FetchesOpcode s ∧
      s.lzvn.vp.drop s.lzvn.vpos = op :: rest ∧ lzvnClass op ≠ .udef ∧ lzvnClass op ≠ .eos ∧
      rest.length + 1 < lzvnLen (lzvnClass op)) ∧
    (∃ s : State, FetchesOpcode s ∧ decodeLzvn (s.lzvn.vp.drop s.lzvn.vpos) = .ok (.smlL 3) ∧
      s.lzvn.vp.length < s.lzvn.vpos + encodedLength (.smlL 3) + announcedLiterals (.smlL 3)) :=
  ⟨⟨lzvnBlock [] 1, ⟨rfl, rfl, .inr ⟨rfl, rfl, rfl, rfl⟩⟩, rfl, rfl⟩,
    ⟨{ lzvnBlock [0x0E] 1 with phase := .lzvnFetch, lzvn := ⟨[0x0E], 1⟩ }, ⟨rfl, rfl, .inl rfl⟩, rfl, rfl⟩,
    ⟨lzvnBlock [0x00] 3, 0x00, [], ⟨rfl, rfl, .inr ⟨rfl, rfl, rfl, rfl⟩⟩, rfl, by decide, by decide, by decide⟩,
    ⟨lzvnBlock [0xE3, 0x41] 3, ⟨rfl, rfl, .inr ⟨rfl, rfl, rfl, rfl⟩⟩, by decide, by decide⟩⟩

theorem test_witness_LzvnInstructionsFrame :
    ∃ s t : State, (Instr.nop 0x0E).level = .lzvn ∧ s.fault = none ∧ exec (.nop 0x0E) s = .next t ∧
      t.fault = none :=
  ⟨lzvnBlock [0x0E] 0, _, rfl, rfl, rfl, rfl⟩

theorem test_witness_BlockInstructionsFrame :
    ∃ s t : State, Instr.bvxEnd.level = .block ∧ s.fault = none ∧ exec .bvxEnd s = .next t ∧ t.fault = none :=
  ⟨engine [], _, rfl, rfl, rfl, rfl⟩

/-! ### Witnesses: ring, LMD loop, entropy engine -/

/-- A ring of 16, its last cell, which is not the cursor's; a step. -/
theorem test_witness_RingWriteEffect :
    isPowerOfTwo (engine []).ringSize = true ∧ 15 ≠ (engine []).mcur ∧ hasNext (step (engine [])) = true := by
  decide

/-- The ring law holds where no byte is out yet. -/
theorem ringOk_engine : RingOk (engine []) :=
  (inv_engine []).ring

/-- A ring with one byte out: the distance 1 is its only one. -/
theorem ringOk_matchLzvn : RingOk matchLzvn ∧ 1 ≤ matchLzvn.D ∧ matchLzvn.D ≤ matchLzvn.ringSize ∧
    matchLzvn.D = matchLzvn.outTotal :=
  ⟨inv_matchLzvn.ring, by decide, by decide, rfl⟩

/-- Seventeen bytes into a ring of 16: distances 1 and 16. -/
theorem test_witness_BulkWriteKeepsLastBytes :
    RingOk (engine []) ∧ ∀ d ∈ [1, 16], 1 ≤ d ∧ d ≤ (engine []).ringSize ∧
      d ≤ (engine []).out.length + (List.replicate 17 (0x41 : Byte)).length :=
  ⟨ringOk_engine, by decide⟩

theorem test_witness_MatchCopiesOutput :
    ∃ (s : State) (d : Nat), RingOk s ∧ 1 ≤ d ∧ d ≤ s.ringSize ∧ d = s.outTotal :=
  ⟨matchLzvn, 1, ringOk_matchLzvn⟩

theorem test_witness_BulkMatchOverlaps :
    ∃ (s : State) (d : Nat), RingOk s ∧ 1 ≤ d ∧ d ≤ s.ringSize ∧ d = s.outTotal ∧
      (∃ k, d ≤ k ∧ k < 10) ∧ ∃ k, k < d ∧ k < 10 :=
  ⟨matchLzvn, 1, ringOk_matchLzvn.1, by decide, by decide, rfl, ⟨9, by decide⟩, 0, by decide⟩

/-- A literal of each strategy, and a match byte. -/
theorem test_witness_LmdStepEmitsOneByte :
    (∃ s : State, Ready s ∧ Inv s ∧ s.active.isLzfse = true ∧ s.L = 1) ∧
    (∃ s : State, Ready s ∧ Inv s ∧ s.active = .lzvn ∧ s.L = 1) ∧
    (∃ s : State, Ready s ∧ Inv s ∧ s.active = .raw ∧ s.L = 1) ∧
    (∃ s : State, Ready s ∧ Inv s ∧ s.active ≠ .noBlock ∧ s.L = 0 ∧ s.M = 1) :=
  ⟨⟨literalLzfse, ⟨rfl, rfl, rfl⟩, inv_literalLzfse, rfl, rfl⟩,
    ⟨literalLzvn, ⟨rfl, rfl, rfl⟩, inv_literalLzvn, rfl, rfl⟩,
    ⟨literalRaw, ⟨rfl, rfl, rfl⟩, inv_literalRaw, rfl, rfl⟩,
    ⟨matchLzvn, ⟨rfl, rfl, rfl⟩, inv_matchLzvn, by decide, rfl, rfl⟩⟩

/-- The triple `decodeTriple` gives, and the registers after it. -/
def decoded (z : Lzfse) : Triple × Lzfse :=
  (decodeTriple z).toOption.getD (⟨0, 0, 0⟩, z)

theorem decoded_eq {z : Lzfse} (h : (decodeTriple z).toOption.isSome = true) :
    decodeTriple z = .ok ((decoded z).1, (decoded z).2) := by
  unfold decoded
  cases hd : decodeTriple z with
  | error r => rw [hd] at h; cases h
  | ok p => rfl

/-- No triple left; state 64 of 64 (F11, as vector L4); P3's first triple with one literal too few, with one
byte too little room, with a distance beyond what is out, and as it is. -/
theorem test_witness_LzfseFetchInOrder :
    (∃ s : State, Ready s ∧ s.active.isLzfse = true ∧ s.L = 0 ∧ s.M = 0 ∧ s.lzfse.remaining = 0) ∧
    (∃ s : State, Ready s ∧ s.active.isLzfse = true ∧ s.L = 0 ∧ s.M = 0 ∧ 0 < s.lzfse.remaining ∧
      decodeTriple s.lzfse = .error .f11) ∧
    ∃ tr z, decodeTriple lzfseP3 = .ok (tr, z) ∧
      (∃ s : State, Ready s ∧ s.active.isLzfse = true ∧ s.L = 0 ∧ s.M = 0 ∧ 0 < s.lzfse.remaining ∧
        s.lzfse = lzfseP3 ∧ s.lzfse.litPos + tr.l ≤ s.lzfse.nLiterals ∧
        s.blk.nRaw + 1 = s.blk.out + tr.l + tr.m) ∧
      (∃ s : State, s.lzfse = lzfseP3 ∧ s.blk.out + tr.l + tr.m = s.blk.nRaw ∧
        BadDistance tr.l tr.m tr.newD s) ∧
      (∃ s : State, s.lzfse = lzfseP3 ∧ s.blk.out + tr.l + tr.m = s.blk.nRaw ∧
        ¬ BadDistance tr.l tr.m tr.newD s) ∧
      decodeTriple { lzfseP3 with litPos := 5 } = .ok (tr, { z with litPos := 5 }) ∧
      lzfseP3.nLiterals + 1 = 5 + tr.l := by
  refine ⟨⟨{ fetchP3 with lzfse := Lzfse.zero }, ⟨rfl, rfl, rfl⟩, rfl, rfl, rfl, rfl⟩,
    ⟨{ fetchP3 with lzfse := { lzfseP3 with sL := 64 } }, ⟨rfl, rfl, rfl⟩, rfl, rfl, rfl,
      Nat.succ_pos 2, by decide +kernel⟩,
    (decoded lzfseP3).1, (decoded lzfseP3).2, decoded_eq (by decide +kernel),
    ⟨{ fetchP3 with blk := ⟨9, 0⟩ }, ⟨rfl, rfl, rfl⟩, rfl, rfl, rfl, Nat.succ_pos 2, rfl,
      by decide +kernel, by decide +kernel⟩,
    ⟨{ fetchP3 with blk := ⟨10, 0⟩, ringSize := 2 }, rfl, by decide +kernel, ?_⟩,
    ⟨{ fetchP3 with blk := ⟨10, 0⟩ }, rfl, by decide +kernel, ?_⟩, by decide +kernel, by decide +kernel⟩ <;>
  · unfold BadDistance
    decide +kernel

/-- A block short of its count; one at it; a raw block with nothing left, and the end of an empty one (vector
L12). -/
theorem test_witness_BlockEndsAtItsByteCount :
    (∃ s : State, s.blk.out ≠ s.blk.nRaw) ∧ (∃ s : State, s.blk.out = s.blk.nRaw) ∧
    (∃ s : State, Ready s ∧ s.active = .raw ∧ s.L = 0 ∧ s.M = 0) ∧
    ∃ s t : State, s.fault = none ∧ s.active ≠ .noBlock ∧ step s = .next t ∧ t.active = .noBlock ∧
      s.phase ≠ .vlc :=
  ⟨⟨lzvnBlock [] 1, by decide⟩, ⟨lzvnBlock [] 0, rfl⟩,
    ⟨{ engine [] with active := .raw }, ⟨rfl, rfl, rfl⟩, rfl, rfl, rfl⟩,
    { engine [] with active := .raw }, nextOf (step { engine [] with active := .raw }), rfl, by decide,
      eq_next rfl, rfl, by decide⟩

/-- The offsets -8, 1, 0, -1 and -7 at the buffer lengths where the clauses meet; pad bits set and clear. -/
theorem test_witness_BitReaderInit :
    (-8 : Int) < -7 ∧ (0 : Int) < 1 ∧ (List.replicate 6 (0 : Byte)).length < 7 ∧
    7 ≤ (List.replicate 7 (0 : Byte)).length ∧ (-7 : Int) ≤ -1 ∧ (-1 : Int) < 0 ∧
    (List.replicate 7 (0 : Byte)).length < 8 ∧ 8 ≤ (List.replicate 8 (0xFF : Byte)).length ∧
    2 ^ (64 + (-1) : Int).toNat ≤
      leNat ((List.replicate 8 (0xFF : Byte)).drop ((List.replicate 8 (0xFF : Byte)).length - 8)) ∧
    leNat ([0, 0, 0, 0, 0, 0, 0, (0x7F : Byte)].drop 0) < 2 ^ (64 + (-1) : Int).toNat ∧
    leNat ([0, 0, 0, 0, 0, 0, 0, (0x01 : Byte)].drop 0) < 2 ^ (64 + (-7) : Int).toNat ∧
    2 ^ (64 + (-7) : Int).toNat ≤ leNat ([0, 0, 0, 0, 0, 0, 0, (0x02 : Byte)].drop 0) := by decide

/-- 56 and 55 valid bits, with no byte and with one byte below; a field one bit too wide, and the widest. -/
theorem test_witness_BitReaderFillRead :
    (∃ br : BitReader, br.Ok [] ∧ br.cnt = 56) ∧
    (∃ br : BitReader, br.Ok [] ∧ br.cnt < 56 ∧ br.pos + 1 = (63 - br.cnt) / 8) ∧
    (∃ br : BitReader, br.Ok [0] ∧ br.cnt < 56 ∧ (63 - br.cnt) / 8 = br.pos) ∧
    (∃ (br : BitReader) (w v : Nat), br.Ok [] ∧ br.cnt + 1 = w ∧ v = br.cnt) := by
  refine ⟨⟨⟨0, 56, 0⟩, ?_⟩, ⟨⟨0, 55, 0⟩, ?_⟩, ⟨⟨0, 55, 1⟩, ?_⟩, ⟨⟨0, 56, 0⟩, 57, 56, ?_⟩⟩ <;>
  · unfold BitReader.Ok
    decide

/-- Vectors B1 to B3, and B4 with B5. -/
theorem test_witness_ReadOrderLaw :
    (BitReader.init bufferB1 0 = .ok ⟨0x99887766554433, 56, 2⟩ ∧
      BitReader.run bufferB1 [.read 4, .read 8, .fill] ⟨0x99887766554433, 56, 2⟩ =
        .ok ([(4, 0x9), (8, 0x98)], ⟨0x877665544332211, 60, 0⟩)) ∧
    (BitReader.init [0x11, 0x22, 0x33, 0x44, 0x55, 0x66, 0x77, 0x1F] (-3) =
        .ok ⟨0x1F77665544332211, 61, 0⟩ ∧
      BitReader.run [0x11, 0x22, 0x33, 0x44, 0x55, 0x66, 0x77, 0x1F] [.read 5]
        ⟨0x1F77665544332211, 61, 0⟩ = .ok ([(5, 0x1F)], ⟨0x77665544332211, 56, 0⟩)) := by decide +kernel

/-- 257 weights; a sum of 65, of 64 and of 4 in 64 states; the first and the last slot of a symbol. -/
theorem test_witness_BuildFillsSlots :
    256 < (List.replicate 257 0).length ∧ (List.replicate 256 0).length ≤ 256 ∧ [64, 1].length ≤ 256 ∧
    64 < [64, 1].sum ∧ [1, 3, 60].sum ≤ 64 ∧ [1, 3].sum ≤ 4 ∧ [1, 3, 60][2]? = some 60 ∧ 0 < 60 ∧ 59 < 60 := by
  decide +kernel

/-- A build that faults and one that does not; a header weight one too large at both ends of the L, M, D and
literal weights, the builds before it passing; 360 zeros. -/
theorem test_witness_BuildFillsSlots_tables :
    let w (i v : Nat) := (List.replicate 360 0).set i v
    buildTable 64 [65] = .error .f07 ∧
    (buildTable 64 [1, 3]).toOption.isSome = true ∧
    ((buildTable 64 [1, 3]).toOption.getD [])[40]? = some none ∧
    ((buildTable 64 [1, 3]).toOption.getD [])[0]? = some (some ⟨0, 6, 0⟩) ∧
    (∀ i ∈ [0, 19], buildValueTable .L 64 ((w i 65).take 20) = .error .f07) ∧
    (∀ i ∈ [20, 39], buildValueTable .L 64 ((w i 65).take 20) = .ok emptyTables.tl ∧
      buildValueTable .M 64 (((w i 65).drop 20).take 20) = .error .f07) ∧
    (∀ i ∈ [40, 103], buildValueTable .M 64 (((w i 257).drop 20).take 20) = .ok emptyTables.tm ∧
      buildValueTable .D 256 (((w i 257).drop 40).take 64) = .error .f07) ∧
    (∀ i ∈ [104, 359], buildValueTable .D 256 (((w i 1025).drop 40).take 64) = .ok emptyTables.td ∧
      buildTable 1024 (((w i 1025).drop 104).take 256) = .error .f07) ∧
    buildTable 1024 (((w 0 0).drop 104).take 256) = .ok emptyTables.tlit := by decide +kernel

/-- Vector T1 in its 64 states: the slot of symbol 0, and the first of symbol 1. -/
theorem test_witness_BuiltTablesLeadBack :
    6 ≤ 10 ∧
    buildTable (2 ^ 6) [1, 3, 60] = .ok ((buildTable (2 ^ 6) [1, 3, 60]).toOption.getD []) ∧
    some ⟨0, 6, 0⟩ ∈ (buildTable (2 ^ 6) [1, 3, 60]).toOption.getD [] ∧ 2 < [1, 3, 60].length ∧ 63 < 2 ^ 6 := by
  decide +kernel

/-- State 64 of 64; an empty slot; an entry with too few bits left, and with just enough (vectors T5, T6). -/
theorem test_witness_TransitionEffect :
    let t := (buildTable 64 [1, 3]).toOption.getD []
    t.length = 64 ∧ 64 ≤ 64 ∧ t[40]? = some none ∧ t[0]? = some (some ⟨0, 6, 0⟩) ∧
    lookup 64 t 64 = .error .f11 ∧ lookup 64 t 0 = .ok ⟨0, 6, 0⟩ ∧ (⟨0, 5, 0⟩ : BitReader).cnt < 6 ∧
    (⟨0b100001, 6, 0⟩ : BitReader).read 6 = .ok (0b100001, ⟨0, 0, 0⟩) := by decide +kernel

/-- The ends of the distances, and the largest of a symbol with the next symbol's base (vector V10). -/
theorem test_witness_DistanceSymbolsPartition :
    0 ≤ 262139 ∧ 262139 ≤ 262139 ∧ (63 < 64 ∧ 32767 < 2 ^ dExtra 63 ∧ dBase 63 + 32767 = 262139) ∧
    (62 < 64 ∧ 32767 < 2 ^ dExtra 62 ∧ dBase 62 + 32767 + 1 = dBase 63) := by decide +kernel

/-- `ValueEntryOk` of every written entry, as a check. -/
def valueEntriesOk (x : Stream) (n : Nat) (t : List (Option ValueEntry)) : Bool :=
  t.all fun o =>
    match o with
    | none => true
    | some e =>
      decide (e.nBits ≤ Nat.log2 n) && decide (e.nBase + 2 ^ e.nBits ≤ n) &&
      decide (e.symbol.toNat < x.symbols) && decide (e.vBits = x.extra e.symbol.toNat) &&
      decide (e.vBase = x.base e.symbol.toNat)

theorem valueEntriesOk_spec {x : Stream} {n : Nat} {t : List (Option ValueEntry)}
    (h : valueEntriesOk x n t = true) : ∀ e, some e ∈ t → ValueEntryOk x n e := by
  intro e he
  have := List.all_eq_true.mp h _ he
  simp only [Bool.and_eq_true, decide_eq_true_eq] at this
  exact ⟨⟨this.1.1.1.1, this.1.1.1.2⟩, this.1.1.2, this.1.2, this.2⟩

/-- R138's example, D symbol 5 with extra bit 1 behind six state bits: a state out of the table, the state bits not
there, the extra bit not there, and all there. -/
theorem test_witness_LzfseTripleInRange_value :
    let e : ValueEntry := { symbol := 5, nBits := 6, nBase := 10, vBits := 1, vBase := 6 }
    lookup 64 [some e] 64 = .error .f11 ∧ lookup 64 [some e] 0 = .ok e ∧
    (⟨0, 5, 0⟩ : BitReader).read e.nBits = .error .t02 ∧
    (⟨0b100001, 6, 0⟩ : BitReader).read e.nBits = .ok (33, ⟨0, 0, 0⟩) ∧
    (⟨0, 0, 0⟩ : BitReader).read e.vBits = .error .t02 ∧
    (⟨0b1000011, 7, 0⟩ : BitReader).read e.nBits = .ok (33, ⟨1, 1, 0⟩) ∧
    (⟨1, 1, 0⟩ : BitReader).read e.vBits = .ok (1, ⟨0, 0, 0⟩) ∧
    valueDecode 64 [some e] 0 ⟨0b1000011, 7, 0⟩ = .ok (7, 43, ⟨0, 0, 0⟩) := by decide +kernel

/-- The value a decode of P3's first triple gives, its new state and the reader after it. -/
def valueOf (x : Except Reason (Nat × Nat × BitReader)) : Nat × Nat × BitReader :=
  x.toOption.getD (0, 0, ⟨0, 0, 0⟩)

/-- A fill with no payload; P3's first triple: its L, M and D decodes, and each with its state out of the table. -/
theorem test_witness_LzfseTripleInRange_order :
    let b0 := (lzfseP3.brLmd.fill lzfseP3.lmdp).toOption.getD ⟨0, 0, 0⟩
    let l := valueOf (valueDecode 64 lzfseP3.tl lzfseP3.sL b0)
    let m := valueOf (valueDecode 64 lzfseP3.tm lzfseP3.sM l.2.2)
    let d := valueOf (valueDecode 256 lzfseP3.td lzfseP3.sD m.2.2)
    (⟨0, 0, 0⟩ : BitReader).fill [] = .error .f13 ∧ lzfseP3.brLmd.fill lzfseP3.lmdp = .ok b0 ∧
    valueDecode 64 lzfseP3.tl lzfseP3.sL b0 = .ok l ∧ valueDecode 64 lzfseP3.tm lzfseP3.sM l.2.2 = .ok m ∧
    valueDecode 256 lzfseP3.td lzfseP3.sD m.2.2 = .ok d ∧ (l.1, m.1, d.1) = (4, 6, 4) ∧
    valueDecode 64 lzfseP3.tl 64 b0 = .error .f11 ∧ valueDecode 64 lzfseP3.tm 64 l.2.2 = .error .f11 ∧
    valueDecode 256 lzfseP3.td 256 m.2.2 = .error .f11 := by decide +kernel

/-- P3's registers at its first fetch. -/
theorem test_witness_LzfseTripleInRange :
    TablesOk lzfseP3 ∧ ReadersOk lzfseP3 ∧ ∃ tr z, decodeTriple lzfseP3 = .ok (tr, z) :=
  ⟨{  tlLength := by decide +kernel
      tmLength := by decide +kernel
      tdLength := by decide +kernel
      tlitLength := by decide +kernel
      tlEntries := valueEntriesOk_spec (by decide +kernel)
      tmEntries := valueEntriesOk_spec (by decide +kernel)
      tdEntries := valueEntriesOk_spec (by decide +kernel)
      tlitEntries := fun e he => by
        simp [lzfseP3, Lzfse.zero] at he },
    by unfold ReadersOk BitReader.Ok; decide +kernel,
    (decoded lzfseP3).1, (decoded lzfseP3).2, decoded_eq (by decide +kernel)⟩

/-! ### Witnesses: headers, invariants, host calls -/

/-- R176's fields, one of them negative. -/
abbrev V1Negative (r : RawV1) : Prop :=
  r.nRawBytes < 0 ∨ r.nPayloadBytes < 0 ∨ r.nLiterals < 0 ∨ r.nMatches < 0 ∨
  r.nLiteralPayloadBytes < 0 ∨ r.nLmdPayloadBytes < 0 ∨ r.literalState0 < 0 ∨ r.literalState1 < 0 ∨
  r.literalState2 < 0 ∨ r.literalState3 < 0 ∨ r.lState < 0 ∨ r.mState < 0 ∨ r.dState < 0 ∨
  ∃ w ∈ r.weights, w < 0

/-- R177's range. -/
abbrev V1BitsInRange (r : RawV1) : Prop :=
  -7 ≤ r.literalBits ∧ r.literalBits ≤ 0 ∧ -7 ≤ r.lmdBits ∧ r.lmdBits ≤ 0

/-- The last weight -1; bit offsets 1 and -8; a payload sum one too small; P4's header. -/
theorem test_witness_V1HeaderRoundTrip_checks :
    V1Negative { headerP4 with weights := (List.replicate 360 0).set 359 (-1) } ∧
    (∀ r ∈ [{ headerP4 with literalBits := 1 }, { headerP4 with lmdBits := -8 }],
      ¬ V1Negative r ∧ ¬ V1BitsInRange r) ∧
    (let r := { headerP4 with nPayloadBytes := 20 }
     ¬ V1Negative r ∧ V1BitsInRange r ∧ r.nPayloadBytes + 1 = r.nLiteralPayloadBytes + r.nLmdPayloadBytes) ∧
    ¬ V1Negative headerP4 ∧ V1BitsInRange headerP4 ∧
    headerP4.nPayloadBytes = headerP4.nLiteralPayloadBytes + headerP4.nLmdPayloadBytes :=
  ⟨by decide +kernel, by decide +kernel, ⟨by decide +kernel, by decide, rfl⟩, by decide +kernel, by decide, rfl⟩

/-- The ends of the int32 and int16 ranges. -/
theorem test_witness_V1HeaderRoundTrip :
    let r : RawV1 := { headerP4 with
      nRawBytes := 2 ^ 31 - 1
      nPayloadBytes := -2 ^ 31
      literalState0 := 2 ^ 15 - 1
      weights := List.replicate 360 (-2 ^ 15) }
    (∀ v ∈ [r.nRawBytes, r.nPayloadBytes, r.nLiterals, r.nMatches, r.nLiteralPayloadBytes,
      r.nLmdPayloadBytes, r.literalBits, r.lmdBits], -2 ^ 31 ≤ v ∧ v < 2 ^ 31) ∧
    (∀ v ∈ [r.literalState0, r.literalState1, r.literalState2, r.literalState3, r.lState, r.mState,
      r.dState] ++ r.weights, -2 ^ 15 ≤ v ∧ v < 2 ^ 15) ∧
    r.weights.length = 360 := by decide +kernel

/-- `nRawBytes` -2^31 and 0; with capacity 720, `headerSize` 31, 753, 32 and 752. -/
theorem test_witness_V2HeaderRoundTrip_checks :
    let size (lo hi : Byte) : List Byte := List.replicate 20 0 ++ [lo, hi, 0, 0, 0, 0, 0, 0]
    sext 32 (memRead ([0, 0, 0, 0x80] ++ List.replicate 24 0) 0 4) = -2 ^ 31 ∧
    (∀ p ∈ [((31 : Byte), (0 : Byte), 31), (0xF1, 2, 753), (32, 0, 32), (0xF0, 2, 752)],
      sext 32 (memRead (size p.1 p.2.1) 0 4) = 0 ∧ bitField (memRead (size p.1 p.2.1) 20 8) 0 32 = p.2.2) ∧
    31 < 32 ∧ 720 + 32 < 753 ∧ 752 ≤ 720 + 32 := by decide +kernel

/-- Every field at the largest value its bits hold, both bit offsets at an end. -/
theorem test_witness_V2HeaderRoundTrip :
    let h : Header := { Header.zero with
      nRawBytes := 2 ^ 31 - 1
      nPayloadBytes := 2 ^ 20 - 1 + (2 ^ 20 - 1)
      nLiterals := 2 ^ 20 - 1
      nMatches := 2 ^ 20 - 1
      nLiteralPayloadBytes := 2 ^ 20 - 1
      nLmdPayloadBytes := 2 ^ 20 - 1
      literalBits := -7
      literalState := ⟨1023, 1023, 1023, 1023⟩
      lState := 1023
      mState := 1023
      dState := 1023 }
    h.nRawBytes < 2 ^ 31 ∧ h.nLiterals < 2 ^ 20 ∧ h.nLiteralPayloadBytes < 2 ^ 20 ∧
    h.nMatches < 2 ^ 20 ∧ h.nLmdPayloadBytes < 2 ^ 20 ∧
    -7 ≤ h.literalBits ∧ h.literalBits ≤ 0 ∧ -7 ≤ h.lmdBits ∧ h.lmdBits ≤ 0 ∧
    h.literalState.s0 < 2 ^ 10 ∧ h.literalState.s1 < 2 ^ 10 ∧ h.literalState.s2 < 2 ^ 10 ∧
    h.literalState.s3 < 2 ^ 10 ∧ h.lState < 2 ^ 10 ∧ h.mState < 2 ^ 10 ∧ h.dState < 2 ^ 10 ∧
    h.nPayloadBytes = h.nLiteralPayloadBytes + h.nLmdPayloadBytes ∧
    h.weights = List.replicate 360 0 ∧ 32 ≤ 752 ∧ 752 < 2 ^ 32 ∧ 752 ≤ 720 + 32 := by decide +kernel

/-- Two prefixes that differ in all four unused bits. -/
theorem test_witness_V2UnusedBitsIgnored :
    let a := v2PrefixBytes emptyV2 32
    let b := a.set 11 0xF0 |>.set 19 0xF0 |>.set 27 0xCB
    a ≠ b ∧ memRead a 0 4 = memRead b 0 4 ∧ memRead a 4 8 % 2 ^ 63 = memRead b 4 8 % 2 ^ 63 ∧
    memRead a 12 8 % 2 ^ 63 = memRead b 12 8 % 2 ^ 63 ∧
    memRead a 20 8 % 2 ^ 62 = memRead b 20 8 % 2 ^ 62 := by decide +kernel

/-- Sizes 1, 3 and 2; capacities 629 and 630. -/
theorem test_witness_ConstructionOk :
    (¬ ∃ k, 1 ≤ k ∧ 1 = 2 ^ k) ∧ (¬ ∃ k, 1 ≤ k ∧ 3 = 2 ^ k) ∧ 629 < 630 ∧ (∃ k, 1 ≤ k ∧ 2 = 2 ^ k) ∧
    630 ≤ 630 := by
  refine ⟨?_, ?_, by decide, ⟨1, by decide⟩, by decide⟩ <;>
  · rintro ⟨k, hk, he⟩
    obtain ⟨j, rfl⟩ : ∃ j, k = j + 1 := ⟨k - 1, by omega⟩
    have : 1 ≤ 2 ^ j := Nat.one_le_two_pow
    rw [pow_succ] at he
    omega

theorem test_witness_MemoryFormKept :
    ∃ s t : State, MemoryOk s ∧ 1 ≤ s.ringSize ∧ step s = .next t ∧ t.out ≠ s.out :=
  ⟨literalLzvn, nextOf (step literalLzvn), inv_literalLzvn.memory, by decide, eq_next rfl, by decide +kernel⟩

theorem test_witness_RingLawKept : ∃ s t : State, RingOk s ∧ step s = .next t ∧ t.out ≠ s.out :=
  ⟨matchLzvn, nextOf (step matchLzvn), inv_matchLzvn.ring, eq_next rfl, by decide +kernel⟩

theorem test_witness_InvariantKept : ∃ s t : State, Inv s ∧ step s = .next t ∧ t.out ≠ s.out :=
  ⟨matchLzvn, nextOf (step matchLzvn), inv_matchLzvn, eq_next rfl, by decide +kernel⟩

theorem test_witness_NoStepReadsMissingValue : ∃ s : State, Inv s ∧ s.fault = none ∧ 0 < s.M :=
  ⟨matchLzvn, inv_matchLzvn, rfl, by decide⟩

theorem test_witness_UnreachableFaults :
    ∃ s t : State, Inv s ∧ step s = .next t ∧ t.fault = some ⟨.truncation, .t01⟩ :=
  ⟨engine [], nextOf (step (engine [])), inv_engine [], eq_next rfl, rfl⟩

/-- A step that emits, and one that faults. -/
theorem test_witness_OutputGrowsByOneByte :
    (∃ s t : State, step s = .next t ∧ t.out ≠ s.out) ∧ ∃ s t : State, step s = .next t ∧ t.fault ≠ none :=
  ⟨⟨literalRaw, nextOf (step literalRaw), eq_next rfl, by decide +kernel⟩,
    engine [], nextOf (step (engine [])), eq_next rfl, by decide⟩

/-- A step at end of stream, and the step that sets it. -/
theorem test_witness_SourceOnlyAdvances :
    (∃ s t : State, step s = .next t ∧ s.eos = true ∧ s.spos ≤ s.src.length) ∧
    ∃ s t : State, step s = .next t ∧ s.eos = false ∧ t.eos = true :=
  ⟨⟨setEos (engine []), _, rfl, rfl, Nat.le_refl _⟩,
    engine [0x62, 0x76, 0x78, 0x24], nextOf (step (engine [0x62, 0x76, 0x78, 0x24])), eq_next rfl, rfl, rfl⟩

/-- A bulk read with arguments in range and a byte wanted: a count, the end, a fault. -/
theorem test_witness_EveryReadAnswers_bulk :
    Inv literalRaw ∧ Inv (engine [0x62, 0x76, 0x78, 0x24]) ∧ Inv (engine []) ∧ badReadArgs [0, 0] 0 2 = false ∧
    (2 : Int) ≠ 0 ∧ 1 ≤ 1 ∧ (bulkReadWith 1 [0, 0] 0 2 literalRaw).1 = .count 1 ∧
    (bulkReadWith 1 [0, 0] 0 2 (engine [0x62, 0x76, 0x78, 0x24])).1 = .endOfStream ∧
    (bulkReadWith 1 [0, 0] 0 2 (engine [])).1 = .raised ⟨.truncation, .t01⟩ :=
  ⟨inv_literalRaw, inv_engine _, inv_engine _, by decide, by decide, by decide, by decide +kernel,
    by decide +kernel, by decide +kernel⟩

/-- An internal engine step: the start of an empty raw block. -/
theorem test_witness_EveryReadAnswers :
    let s := engine [0x62, 0x76, 0x78, 0x2D, 0, 0, 0, 0]
    Inv s ∧ engineStep s = .next (nextOf (engineStep s)) ∧ resultOf s (nextOf (engineStep s)) = .internal :=
  ⟨inv_engine _, eq_next rfl, by decide +kernel⟩

/-- A byte, the end of the stream, and a fault. -/
theorem test_witness_ReadDeliversNextByte :
    literalRaw.fault = none ∧ (read literalRaw).1 = .byte 0x61 ∧
    (engine [0x62, 0x76, 0x78, 0x24]).fault = none ∧ (read (engine [0x62, 0x76, 0x78, 0x24])).1 = .endOfStream ∧
    (engine []).fault = none ∧ (read (engine [])).1 = .raised ⟨.truncation, .t01⟩ := by decide +kernel

/-- Arguments just out of range and just in it, a zero length, the draws 1 and `len`; a count, the end, and a fault
after one byte (vector S13). -/
theorem test_witness_BulkReadDelivers :
    badReadArgs [0, 0, 0, 0] 2 3 = true ∧ badReadArgs [0, 0, 0, 0] 2 2 = false ∧
    badReadArgs [0, 0, 0, 0] 4 0 = false ∧ (bulkReadWith 1 [0] 1 0 literalRaw).1 = .count 0 ∧ 1 ≤ 1 ∧ (2 : Int) ≤ 2 ∧
    literalRaw.fault = none ∧ (bulkReadWith 1 [0, 0] 1 1 literalRaw).1 = .count 1 ∧
    (bulkReadWith 2 [0, 0] 0 2 (engine [0x62, 0x76, 0x78, 0x24])).1 = .endOfStream ∧
    (bulkReadWith 2 [0, 0] 0 2 (lzvnBlock [0xE1, 0x41, 0x06] 2)).1 =
      .raised ⟨.format, .f18⟩ ∧
    (bulkReadWith 2 [0, 0] 0 2 (lzvnBlock [0xE1, 0x41, 0x06] 2)).2.1 = [0x41, 0] := by
  decide +kernel

end Sys2Proof.Tests
end

/-! SUPPORT. The bit reader keeps R120's invariant. -/

namespace Sys2Proof.Machine

/-- Loading a byte at the bottom of the cache (R126). -/
theorem loadByte_lt {acc : BitVec 64} {c : Nat} (b : Byte) (h : acc.toNat < 2 ^ c) :
    ((acc <<< 8) ||| b.setWidth 64).toNat < 2 ^ (c + 8) := by
  have hacc : (acc <<< 8).toNat < 2 ^ (c + 8) := by
    rw [BitVec.toNat_shiftLeft, Nat.shiftLeft_eq, pow_add]
    exact (Nat.mod_le _ _).trans_lt (Nat.mul_lt_mul_of_pos_right h (by norm_num))
  have hb : (b.setWidth 64).toNat < 2 ^ (c + 8) := by
    rw [BitVec.toNat_setWidth]
    exact (Nat.mod_le _ _).trans_lt (b.isLt.trans_le (Nat.pow_le_pow_right (by norm_num) (by omega)))
  rw [BitVec.toNat_or]
  exact Nat.or_lt_two_pow hacc hb

theorem BitReader.load_ok (buf : List Byte) (k : Nat) (br : BitReader) (h : br.Ok buf)
    (hk : br.cnt + 8 * k ≤ 63) : (BitReader.load buf k br).Ok buf := by
  induction k generalizing br with
  | zero => exact h
  | succ k ih =>
    obtain ⟨_, hacc, hpos⟩ := h
    have hcnt : br.cnt + 8 + 8 * k ≤ 63 := by omega
    exact ih _ ⟨(Nat.le_add_right _ _).trans hcnt, loadByte_lt _ hacc, (Nat.sub_le _ _).trans hpos⟩ hcnt

/-- `fill` keeps R120. -/
theorem BitReader.fill_ok {buf : List Byte} {br br' : BitReader} (h : br.Ok buf)
    (hf : br.fill buf = .ok br') : br'.Ok buf := by
  unfold BitReader.fill at hf
  split at hf
  · simp only at hf
    split at hf
    · cases hf
    · cases hf; exact br.load_ok buf _ h (by omega)
  · cases hf; exact h

/-- `read` gives a field of its width and keeps R120. -/
theorem BitReader.read_ok {buf : List Byte} {br br' : BitReader} {w v : Nat} (h : br.Ok buf)
    (hr : br.read w = .ok (v, br')) : v < 2 ^ w ∧ br'.Ok buf := by
  obtain ⟨hcnt, hacc, hpos⟩ := h
  unfold BitReader.read at hr
  split at hr
  · cases hr
  · cases hr
    have hmask : (br.acc &&& BitVec.ofNat 64 (2 ^ (br.cnt - w) - 1)).toNat < 2 ^ (br.cnt - w) := by
      have hp := Nat.two_pow_pos (br.cnt - w)
      have hle := (Nat.and_le_right (n := br.acc.toNat)).trans (Nat.mod_le (2 ^ (br.cnt - w) - 1) (2 ^ 64))
      rw [BitVec.toNat_and, BitVec.toNat_ofNat]
      omega
    refine ⟨?_, by simp only; omega, hmask, hpos⟩
    rw [BitVec.toNat_ushiftRight, Nat.shiftRight_eq_div_pow, Nat.div_lt_iff_lt_mul (Nat.two_pow_pos _),
      ← pow_add]
    exact hacc.trans_le (Nat.pow_le_pow_right (by norm_num) (by omega))

/-- `init` starts a reader of R120 (R121 to R125). -/
theorem BitReader.init_ok {buf : List Byte} {n : Int} {br : BitReader}
    (h : BitReader.init buf n = .ok br) : br.Ok buf := by
  unfold BitReader.init at h
  split at h
  · cases h
  split at h
  · unfold BitReader.init0 at h
    split at h
    · cases h
    · cases h
      refine ⟨by simp, ?_, Nat.sub_le _ _⟩
      rw [BitVec.toNat_ofNat]
      exact (Nat.mod_le _ _).trans_lt ((memRead_lt _ _ 7).trans_eq (by norm_num))
  · unfold BitReader.initNeg at h
    split at h
    · cases h
    simp only at h
    split at h
    · cases h
    · rename_i hpad
      cases h
      refine ⟨by simp only; omega, ?_, Nat.sub_le _ _⟩
      have hz := congrArg BitVec.toNat (not_not.mp hpad)
      rw [BitVec.toNat_ushiftRight, Nat.shiftRight_eq_div_pow] at hz
      exact (Nat.div_eq_zero_iff_lt (Nat.two_pow_pos _)).mp hz

end Sys2Proof.Machine

/-! SUPPORT. A built table leads back into itself (R134), its value entries carry their stream's fields (R137),
and what a decode over such tables gives (R138, R140). -/

namespace Sys2Proof.Machine

/-! ### The split-radix slots -/

theorem log2_le_of_le_two_pow {m w : Nat} (h0 : w ≠ 0) (hw : w ≤ 2 ^ m) : Nat.log2 w ≤ m :=
  (Nat.pow_le_pow_iff_right (by norm_num)).mp ((Nat.log2_self_le h0).trans hw)

/-- The shift of a weight in a table of `2 ^ m` states (R131). -/
theorem radix_two_pow {m w : Nat} (hm : m ≤ 31) (h0 : w ≠ 0) (hw : w ≤ 2 ^ m) :
    radix (2 ^ m) w = m - Nat.log2 w := by
  have hlog := log2_le_of_le_two_pow h0 hw
  simp only [radix, lzc32, h0, if_false, (Nat.two_pow_pos m).ne', Nat.log2_two_pow]
  omega

/-- The split point of a weight in a table of `2 ^ m` states (R131). -/
theorem splitPoint_two_pow {m w : Nat} (hm : m ≤ 31) (h0 : w ≠ 0) (hw : w ≤ 2 ^ m) :
    splitPoint (2 ^ m) w = 2 ^ (Nat.log2 w + 1) - w := by
  have hlog := log2_le_of_le_two_pow h0 hw
  have hsplit : 2 * 2 ^ m = 2 ^ (Nat.log2 w + 1) * 2 ^ (m - Nat.log2 w) := by
    rw [← pow_add, mul_comm, ← pow_succ]
    congr 1
    omega
  rw [splitPoint, radix_two_pow hm h0 hw, hsplit, Nat.mul_div_cancel _ (Nat.two_pow_pos _)]

/-- Every slot of a symbol leads back into the table (R134). -/
theorem slot_ok {m w i : Nat} (sym : Nat) (hm : m ≤ 31) (hw : w ≤ 2 ^ m) (hi : i < w) :
    EntryOk (2 ^ m) (slot (2 ^ m) sym w i) := by
  have h0 : w ≠ 0 := by omega
  have hlo : 2 ^ Nat.log2 w ≤ w := Nat.log2_self_le h0
  have hhi : w < 2 ^ (Nat.log2 w + 1) := Nat.lt_log2_self
  have hlog := log2_le_of_le_two_pow h0 hw
  obtain ⟨k, rfl⟩ := Nat.exists_eq_add_of_le hlog
  rw [slot, splitPoint_two_pow hm h0 hw, radix_two_pow hm h0 hw, EntryOk, Nat.log2_two_pow,
    Nat.add_sub_cancel_left]
  generalize Nat.log2 w = j at *
  split
  · have hblock : (w + i + 1) * 2 ^ k ≤ 2 ^ (j + 1) * 2 ^ k := Nat.mul_le_mul_right _ (by omega)
    have hsmall : 2 ^ k ≤ 2 ^ (j + k) := Nat.pow_le_pow_right (by norm_num) (by omega)
    have htotal : 2 ^ (j + 1) * 2 ^ k = 2 * 2 ^ (j + k) := by rw [← pow_add]; ring
    rw [add_one_mul, htotal] at hblock
    refine ⟨by simp only; omega, ?_⟩
    simp only
    omega
  · rename_i hx
    cases k with
    | zero =>
      have hpow : 2 ^ (j + 1) = 2 * 2 ^ j := pow_succ' 2 j
      rw [add_zero] at hw
      omega
    | succ k =>
      have hblock : (i - (2 ^ (j + 1) - w) + 1) * 2 ^ k ≤ 2 ^ (j + 1) * 2 ^ k :=
        Nat.mul_le_mul_right _ (by omega)
      rw [add_one_mul, ← pow_add, show j + 1 + k = j + (k + 1) by omega] at hblock
      exact ⟨by simp only; omega, hblock⟩

/-- What `build`'s loop writes from symbol `sym` on (R131): as many slots as there is room for, each a slot of
one of the weights. -/
theorem buildSlots_ok {n : Nat} (ws : List Nat) {sym total : Nat} {es : List Entry} (ht : total ≤ n)
    (h : buildSlots n sym total ws = .ok es) :
    total + es.length ≤ n ∧
    ∀ e ∈ es, ∃ s w i, e = slot n s w i ∧ s < sym + ws.length ∧ w ≤ n ∧ i < w := by
  induction ws generalizing sym total es with
  | nil => cases h; simpa using ht
  | cons w ws ih =>
    unfold buildSlots at h
    split at h
    · obtain ⟨hlen, hmem⟩ := ih ht h
      refine ⟨hlen, fun e he => ?_⟩
      obtain ⟨s, w, i, rfl, hs, hw⟩ := hmem e he
      exact ⟨s, w, i, rfl, by simp only [List.length_cons]; omega, hw⟩
    split at h
    · cases h
    split at h
    · cases h
    rename_i hroom _ es' hes
    cases h
    obtain ⟨hlen, hmem⟩ := ih (by omega) hes
    refine ⟨by simp only [List.length_append, List.length_map, List.length_range]; omega, fun e he => ?_⟩
    rcases List.mem_append.mp he with he | he
    · obtain ⟨i, hi, rfl⟩ := List.mem_map.mp he
      exact ⟨sym, w, i, rfl, by simp, by omega, List.mem_range.mp hi⟩
    · obtain ⟨s, w, i, rfl, hs, hw⟩ := hmem e he
      exact ⟨s, w, i, rfl, by simp only [List.length_cons]; omega, hw⟩

/-! ### Built tables -/

/-- A built table has one place for each state, and its entries lead back into it and name a symbol that has
a weight (R131, R134). -/
theorem buildTable_ok {m : Nat} {weights : List Nat} {t : List (Option Entry)} (hm : m ≤ 31)
    (h : buildTable (2 ^ m) weights = .ok t) :
    t.length = 2 ^ m ∧ ∀ e, some e ∈ t → EntryOk (2 ^ m) e ∧ e.symbol.toNat < weights.length := by
  unfold buildTable at h
  split at h
  · cases h
  split at h
  · cases h
  rename_i es hes
  cases h
  obtain ⟨hlen, hmem⟩ := buildSlots_ok _ (Nat.zero_le _) hes
  refine ⟨by rw [List.length_append, List.length_map, List.length_replicate]; omega, fun e he => ?_⟩
  have he : e ∈ es := by simpa [List.mem_replicate] using he
  obtain ⟨s, w, i, rfl, hs, hw, hi⟩ := hmem e he
  refine ⟨slot_ok s hm hw hi, ?_⟩
  have hsym : (slot (2 ^ m) s w i).symbol = BitVec.ofNat 8 s := by unfold slot; split <;> rfl
  rw [hsym, BitVec.toNat_ofNat]
  exact (Nat.mod_le _ _).trans_lt (by omega)

/-- A built value table: besides, each entry has its symbol's value fields (R137). -/
theorem buildValueTable_ok {x : Stream} {m : Nat} {weights : List Nat} {t : List (Option ValueEntry)}
    (hm : m ≤ 31) (hx : weights.length ≤ x.symbols) (h : buildValueTable x (2 ^ m) weights = .ok t) :
    t.length = 2 ^ m ∧ ∀ e, some e ∈ t → ValueEntryOk x (2 ^ m) e := by
  unfold buildValueTable at h
  split at h
  · cases h
  rename_i t' ht
  cases h
  obtain ⟨hlen, hmem⟩ := buildTable_ok hm ht
  refine ⟨by simpa using hlen, fun e he => ?_⟩
  obtain ⟨e', he', rfl⟩ : ∃ e', some e' ∈ t' ∧ addValue x e' = e := by simpa using he
  obtain ⟨hok, hsym⟩ := hmem e' he'
  exact ⟨hok, hsym.trans_le hx, rfl, rfl⟩

/-- The four tables of a block init are well-formed (R35, R36, R134). -/
theorem buildTables_ok {weights : List Nat} {t : TableSet} (h : buildTables weights = .ok t) {z : Lzfse}
    (htl : z.tl = t.tl) (htm : z.tm = t.tm) (htd : z.td = t.td) (htlit : z.tlit = t.tlit) :
    TablesOk z := by
  unfold buildTables at h
  split at h
  · cases h
  rename_i tl hl
  split at h
  · cases h
  rename_i tm hm
  split at h
  · cases h
  rename_i td hd
  split at h
  · cases h
  rename_i tlit hlit
  cases h
  obtain ⟨hl, hle⟩ := buildValueTable_ok (m := 6) (by norm_num) (List.length_take_le _ _) hl
  obtain ⟨hm, hme⟩ := buildValueTable_ok (m := 6) (by norm_num) (List.length_take_le _ _) hm
  obtain ⟨hd, hde⟩ := buildValueTable_ok (m := 8) (by norm_num) (List.length_take_le _ _) hd
  obtain ⟨hlit, hlite⟩ := buildTable_ok (m := 10) (by norm_num) hlit
  exact ⟨htl ▸ hl, htm ▸ hm, htd ▸ hd, htlit ▸ hlit, htl ▸ hle, htm ▸ hme, htd ▸ hde,
    htlit ▸ fun e he => (hlite e he).1⟩

/-! ### Decodes -/

/-- The bound of a stream's values: its last symbol's base and extra bits (R135, R136). -/
def Stream.limit : Stream → Nat
  | .L => 316
  | .M => 2360
  | .D => 262140

/-- `D_BASE` rises (R136). -/
theorem dBase_mono : Monotone dBase :=
  monotone_nat_of_le_succ fun _ => Nat.le_add_right _ _

theorem Stream.base_add_extra_le (x : Stream) {sym : Nat} (h : sym < x.symbols) :
    x.base sym + 2 ^ x.extra sym ≤ x.limit := by
  cases x with
  | L =>
    have hall : ∀ s < 20, lBase s + 2 ^ lExtra s ≤ 316 := by decide
    exact hall sym h
  | M =>
    have hall : ∀ s < 20, mBase s + 2 ^ mExtra s ≤ 2360 := by decide
    exact hall sym h
  | D =>
    have hlast : dBase 64 = 262140 := by decide
    exact (dBase_mono (Nat.succ_le_of_lt h)).trans_eq hlast

/-- A looked-up entry is one of the table's (R132). -/
theorem lookup_mem {α : Type} {n st : Nat} {t : List (Option α)} {e : α} (h : lookup n t st = .ok e) :
    some e ∈ t := by
  unfold lookup at h
  split at h
  · cases h
  split at h
  · cases h; exact List.mem_of_getElem? ‹_›
  · cases h

/-- A well-formed entry's next state is in the table, and its reader in R120 (R133, R134). -/
theorem nextState_ok {n st : Nat} {e : Entry} {buf : List Byte} {br br' : BitReader} (he : EntryOk n e)
    (hb : br.Ok buf) (h : nextState e br = .ok (st, br')) : st < n ∧ br'.Ok buf := by
  unfold nextState at h
  split at h
  · cases h
  cases h
  obtain ⟨hv, hok⟩ := BitReader.read_ok hb ‹_›
  exact ⟨by have := he.2; omega, hok⟩

theorem transition_ok {n st st' : Nat} {t : List (Option Entry)} {e : Entry} {buf : List Byte}
    {br br' : BitReader} (ht : ∀ e, some e ∈ t → EntryOk n e) (hb : br.Ok buf)
    (h : transition n t st br = .ok (e, st', br')) : st' < n ∧ br'.Ok buf := by
  unfold transition at h
  split at h
  · cases h
  split at h
  · cases h
  cases h
  exact nextState_ok (ht _ (lookup_mem ‹_›)) hb ‹_›

/-- A value decoded over a well-formed table is below its stream's limit (R138). -/
theorem valueDecode_ok {x : Stream} {n st st' v : Nat} {t : List (Option ValueEntry)} {buf : List Byte}
    {br br' : BitReader} (ht : ∀ e, some e ∈ t → ValueEntryOk x n e) (hb : br.Ok buf)
    (h : valueDecode n t st br = .ok (v, st', br')) : v < x.limit ∧ st' < n ∧ br'.Ok buf := by
  unfold valueDecode at h
  split at h
  · cases h
  rename_i e he
  split at h
  · cases h
  rename_i st1 br1 hst
  split at h
  · cases h
  rename_i v1 br2 hv
  cases h
  obtain ⟨hentry, hsym, hbits, hbase⟩ := ht e (lookup_mem he)
  obtain ⟨hst, hbr1⟩ := nextState_ok hentry hb hst
  obtain ⟨hv, hbr2⟩ := BitReader.read_ok hbr1 hv
  have hlimit := x.base_add_extra_le hsym
  rw [hbits] at hv
  exact ⟨by omega, hst, hbr2⟩

/-- A triple no larger than the LZFSE streams can give (R135, R136); LZVN's are smaller (R101). -/
structure Triple.InRange (tr : Triple) : Prop where
  l : tr.l < 316
  m : tr.m < 2360
  newD : tr.newD < 262140

/-- What a triple decode changes and the ranges of what it gives (R138, R220). -/
structure TripleDecoded (z : Lzfse) (tr : Triple) (z' : Lzfse) : Prop where
  triple : tr.InRange
  states : z'.sL < 64 ∧ z'.sM < 64 ∧ z'.sD < 256
  reader : z'.brLmd.Ok z.lmdp
  frame : z' = { z with
    sL := z'.sL, sM := z'.sM, sD := z'.sD, brLmd := z'.brLmd, remaining := z.remaining - 1 }

theorem decodeTriple_ok {z z' : Lzfse} {tr : Triple} (ht : TablesOk z) (hr : z.brLmd.Ok z.lmdp)
    (h : decodeTriple z = .ok (tr, z')) : TripleDecoded z tr z' := by
  unfold decodeTriple at h
  split at h
  · cases h
  rename_i b0 hfill
  split at h
  · cases h
  rename_i lv sL b1 hl
  split at h
  · cases h
  rename_i mv sM b2 hm
  split at h
  · cases h
  rename_i dv sD b3 hd
  cases h
  obtain ⟨hl, hsL, hb1⟩ := valueDecode_ok ht.tlEntries (BitReader.fill_ok hr hfill) hl
  obtain ⟨hm, hsM, hb2⟩ := valueDecode_ok ht.tmEntries hb1 hm
  obtain ⟨hd, hsD, hb3⟩ := valueDecode_ok ht.tdEntries hb2 hd
  exact ⟨⟨hl, hm, hd⟩, ⟨hsL, hsM, hsD⟩, hb3, rfl⟩

/-- Every lane is below `n`. -/
def Lanes.Below (n : Nat) (z : Lanes) : Prop :=
  z.s0 < n ∧ z.s1 < n ∧ z.s2 < n ∧ z.s3 < n

/-- A literal quad leaves the lanes inside the table (R140). -/
theorem literalQuad_ok {tlit : List (Option Entry)} {lp bs : List Byte} {z z' : Lanes}
    {br br' : BitReader} (ht : ∀ e, some e ∈ tlit → EntryOk Config.nStatesLit e) (hb : br.Ok lp)
    (h : literalQuad tlit lp z br = .ok (bs, z', br')) : z'.Below Config.nStatesLit ∧ br'.Ok lp := by
  unfold literalQuad at h
  split at h
  · cases h
  rename_i b hfill
  split at h
  · cases h
  rename_i h0
  split at h
  · cases h
  rename_i h1
  split at h
  · cases h
  rename_i h2
  split at h
  · cases h
  rename_i h3
  cases h
  obtain ⟨h0, hb0⟩ := transition_ok ht (BitReader.fill_ok hb hfill) h0
  obtain ⟨h1, hb1⟩ := transition_ok ht hb0 h1
  obtain ⟨h2, hb2⟩ := transition_ok ht hb1 h2
  obtain ⟨h3, hb3⟩ := transition_ok ht hb2 h3
  exact ⟨⟨h0, h1, h2, h3⟩, hb3⟩

/-- Lanes that start below a bound of at least the table's size stay below it (R140). -/
theorem literalQuads_ok {tlit : List (Option Entry)} {lp : List Byte} {n : Nat}
    (ht : ∀ e, some e ∈ tlit → EntryOk Config.nStatesLit e) (hn : Config.nStatesLit ≤ n) (q : Nat)
    {bs : List Byte} {z z' : Lanes} {br br' : BitReader} (hz : z.Below n) (hb : br.Ok lp)
    (h : literalQuads tlit lp q z br = .ok (bs, z', br')) : z'.Below n ∧ br'.Ok lp := by
  induction q generalizing bs z z' br br' with
  | zero => cases h; exact ⟨hz, hb⟩
  | succ q ih =>
    unfold literalQuads at h
    split at h
    · cases h
    rename_i hquad
    split at h
    · cases h
    rename_i hrest
    cases h
    obtain ⟨⟨h0, h1, h2, h3⟩, hb'⟩ := literalQuad_ok ht hb hquad
    exact ih ⟨h0.trans_le hn, h1.trans_le hn, h2.trans_le hn, h3.trans_le hn⟩ hb' hrest

theorem literalDecode_ok {tlit : List (Option Entry)} {lp bs : List Byte} {bits : Int} {n count : Nat}
    {z z' : Lanes} {br' : BitReader} (ht : ∀ e, some e ∈ tlit → EntryOk Config.nStatesLit e)
    (hn : Config.nStatesLit ≤ n) (hz : z.Below n)
    (h : literalDecode tlit lp bits count z = .ok (bs, z', br')) : z'.Below n ∧ br'.Ok lp := by
  unfold literalDecode at h
  split at h
  · cases h
  · exact literalQuads_ok ht hn _ hz (BitReader.init_ok ‹_›) h

end Sys2Proof.Machine

/-! SUPPORT. A parsed header record is inside R189's ranges, and so are `vlcDecode`'s registers (R182). -/

namespace Sys2Proof.Machine

/-! ### Headers -/

theorem int32At_lt (hs : List Byte) (off : Nat) : int32At hs off < 2 ^ 31 := by
  have h := memRead_lt hs off 4
  unfold int32At sext
  split <;> omega

theorem sext16_lt (v : Nat) (h : v < 256 ^ 2) : sext 16 v < 2 ^ 15 := by
  unfold sext
  split <;> omega

theorem int16At_lt (hs : List Byte) (off : Nat) : int16At hs off < 2 ^ 15 :=
  sext16_lt _ (memRead_lt hs off 2)

theorem int16s_lt (bs : List Byte) : ∀ w ∈ int16s bs, w < 2 ^ 15 := by
  induction bs using int16s.induct with
  | case1 b0 b1 rest ih =>
    intro w hw
    rcases List.mem_cons.mp hw with rfl | hw
    · exact sext16_lt _ (leNat_lt [b0, b1])
    · exact ih w hw
  | case2 bs h =>
    intro w hw
    rw [int16s] at hw
    · cases hw
    · exact h

theorem int16s_length (bs : List Byte) : (int16s bs).length = bs.length / 2 := by
  induction bs using int16s.induct with
  | case1 b0 b1 rest ih => simp only [int16s, List.length_cons, ih]; omega
  | case2 bs h =>
    rw [int16s]
    · match bs, h with
      | [], _ => rfl
      | [_], _ => simp
      | b0 :: b1 :: rest, h => exact absurd rfl (h b0 b1 rest)
    · exact h

theorem bitField_lt (v lo width : Nat) : bitField v lo width < 2 ^ width :=
  Nat.mod_lt _ (Nat.two_pow_pos _)

/-- A bit offset that passes R177. -/
theorem bitsOutOfRange_false {n : Int} (h : bitsOutOfRange n = false) : -7 ≤ n ∧ n ≤ 0 := by
  simp only [bitsOutOfRange, Bool.or_eq_false_iff, decide_eq_false_iff_not, not_lt] at h
  exact h

/-- The header of a 766-byte V1 scratch that passes the checks (R175 to R178). -/
theorem parseV1_ok {hs : List Byte} {h : Header} (hlen : hs.length = 766) (hp : parseV1 hs = .ok h) :
    HeaderOk h := by
  unfold parseV1 checkV1 at hp
  split at hp
  · cases hp
  split at hp
  · cases hp
  rename_i hbits
  split at hp
  · cases hp
  cases hp
  obtain ⟨hlit, hlmd⟩ : bitsOutOfRange (readV1 hs).literalBits = false ∧
      bitsOutOfRange (readV1 hs).lmdBits = false := by simpa using hbits
  have h32 : ∀ off, (int32At hs off).toNat < 2 ^ 31 := fun off => by have := int32At_lt hs off; omega
  have h16 : ∀ off, (int16At hs off).toNat < 2 ^ 15 := fun off => by have := int16At_lt hs off; omega
  exact {
    nRawBytes := h32 0
    nPayloadBytes := h32 4
    nLiterals := h32 8
    nMatches := h32 12
    nLiteralPayloadBytes := h32 16
    nLmdPayloadBytes := h32 20
    literalBits := bitsOutOfRange_false hlit
    lmdBits := bitsOutOfRange_false hlmd
    literalState := ⟨h16 28, h16 30, h16 32, h16 34⟩
    lmdState := ⟨h16 40, h16 42, h16 44⟩
    weightCount := by simp [RawV1.header, readV1, int16s_length, hlen, Config.nWeights]
    weights := fun w hw => by
      obtain ⟨v, hv, rfl⟩ := List.mem_map.mp hw
      have := int16s_lt _ v hv
      omega }

/-- The header in the first 28 bytes of a V2 scratch (R179). -/
theorem readV2_ok (hs : List Byte) : HeaderOk (readV2 hs) := by
  have hf := bitField_lt
  have hw : ∀ v lo, bitField v lo 20 < 2 ^ 31 := fun v lo => (hf v lo 20).trans (by norm_num)
  have hst : ∀ v lo, bitField v lo 10 < 2 ^ 15 := fun v lo => (hf v lo 10).trans (by norm_num)
  have hbits : ∀ v lo, -7 ≤ (bitField v lo 3 : Int) - 7 ∧ (bitField v lo 3 : Int) - 7 ≤ 0 := by
    intro v lo
    have := hf v lo 3
    omega
  exact {
    nRawBytes := by have := int32At_lt hs 0; simp only [readV2]; omega
    nPayloadBytes := by
      have h0 := hf (memRead hs 4 8) 20 20
      have h1 := hf (memRead hs 12 8) 40 20
      simp only [readV2]
      omega
    nLiterals := hw _ _
    nMatches := hw _ _
    nLiteralPayloadBytes := hw _ _
    nLmdPayloadBytes := hw _ _
    literalBits := hbits _ _
    lmdBits := hbits _ _
    literalState := ⟨hst _ _, hst _ _, hst _ _, hst _ _⟩
    lmdState := ⟨hst _ _, hst _ _, hst _ _⟩
    weightCount := List.length_replicate
    weights := fun w hw => by rw [List.eq_of_mem_replicate hw]; norm_num }

theorem parseV2Prefix_ok {cap : Nat} {hs : List Byte} {h : Header} {n : Nat}
    (hp : parseV2Prefix cap hs = .ok (h, n)) : HeaderOk h := by
  unfold parseV2Prefix at hp
  split at hp
  · cases hp
  split at hp
  · cases hp
  split at hp
  · cases hp
  cases hp
  exact readV2_ok hs

theorem parseLzvn_ok {hs : List Byte} {nRaw nPayload : Nat} (h : parseLzvn hs = .ok (nRaw, nPayload)) :
    nRaw < 2 ^ 31 ∧ nPayload < 2 ^ 31 := by
  have h0 := int32At_lt hs 0
  have h4 := int32At_lt hs 4
  unfold parseLzvn at h
  split at h
  · cases h
  cases h
  omega

theorem parseRaw_ok {hs : List Byte} {nRaw : Nat} (h : parseRaw hs = .ok nRaw) : nRaw < 2 ^ 31 := by
  have h0 := int32At_lt hs 0
  unfold parseRaw at h
  split at h
  · cases h
  cases h
  omega

/-! ### The frequency codes -/

/-- The registers of `vlcDecode` over a blob (R182): `VlcOk` without its clause on the bits left. -/
structure Vlc.Held (blob : List Byte) (v : Vlc) : Prop where
  nb : v.nb ≤ 32
  acc : v.acc < 2 ^ v.nb
  p : v.p ≤ blob.length

/-- The refill keeps the held bits inside their count, leaves the weights, and holds at least 25 bits where blob
bytes remain (R182). -/
theorem Vlc.refill_ok (blob : List Byte) (n : Nat) (v : Vlc) (h : v.Held blob) (hn : 32 ≤ v.nb + 8 * n) :
    (Vlc.refill blob n v).Held blob ∧ (Vlc.refill blob n v).weights = v.weights ∧
    ((Vlc.refill blob n v).p < blob.length → 25 ≤ (Vlc.refill blob n v).nb) := by
  induction n generalizing v with
  | zero => exact ⟨h, rfl, fun _ => by simp only [Vlc.refill]; omega⟩
  | succ n ih =>
    unfold Vlc.refill
    split
    · rename_i hroom
      split
      · rename_i b hb
        have hacc : v.acc ||| b.toNat <<< v.nb < 2 ^ (v.nb + 8) := by
          refine Nat.or_lt_two_pow (h.acc.trans_le (Nat.pow_le_pow_right (by norm_num) (by omega))) ?_
          rw [Nat.shiftLeft_eq, pow_add, mul_comm]
          exact Nat.mul_lt_mul_of_pos_left b.isLt (Nat.two_pow_pos _)
        exact ih _ ⟨hroom, hacc, (List.getElem?_eq_some_iff.mp hb).1⟩ (by simp only; omega)
      · rename_i hend
        have hp := List.getElem?_eq_none_iff.mp hend
        exact ⟨h, rfl, fun hlt => by omega⟩
    · exact ⟨h, rfl, fun _ => by omega⟩

/-- A code has at most 14 bits and a weight of at most 1047 (R183). -/
theorem vlc_bounds (i : Instr) : vlcWidth i ≤ 14 ∧ vlcValue i ≤ 1047 := by
  cases i with
  | v4to7 x => exact ⟨by simp [vlcWidth], by have := x.isLt; simp only [vlcValue, weightV4to7]; omega⟩
  | v8to23 x => exact ⟨by simp [vlcWidth], by have := x.isLt; simp only [vlcValue, weightV8to23]; omega⟩
  | v24to1047 x =>
    exact ⟨by simp [vlcWidth], by have := x.isLt; simp only [vlcValue, weightV24to1047]; omega⟩
  | _ => exact ⟨by simp [vlcWidth], by simp [vlcValue]⟩

end Sys2Proof.Machine

/-! SUPPORT. The ring law and the memories' form after a ring write (R160, R164). -/

namespace Sys2Proof.Machine

/-- The cell `d` back from a cursor that counts to `n` (R162). -/
theorem ringAddr_sub {size n d : Nat} (h : d ≤ n) :
    ringAddr size (((n % size : Nat) : Int) - d) = (n - d) % size := by
  have hsub : (((n % size : Nat) : Int) - d) % size = (((n - d) % size : Nat) : Int) := by
    push_cast [h]
    rw [Int.emod_sub_emod]
  rw [ringAddr, hsub, Int.toNat_natCast]

/-- The cursor after a write (R160). -/
theorem ringAddr_succ (size n : Nat) :
    ringAddr size (((n % size : Nat) : Int) + 1) = (n + 1) % size := by
  have hcast : ((n % size : Nat) : Int) + 1 = ((n % size + 1 : Nat) : Int) := by push_cast; rfl
  rw [hcast, ringAddr_natCast, Nat.mod_add_mod]

/-- The retention law over a write: byte 1 back is the one written, and byte `e + 1` back is the old byte `e`
back, whose cell is another one (R164). -/
theorem ringOk_ringWrite {s : State} (b : Byte) (h : RingOk s) : RingOk (ringWrite b s) := by
  obtain ⟨htotal, hcur, hlaw⟩ := h
  have hcur' : (ringWrite b s).mcur = (s.outTotal + 1) % s.ringSize := by
    rw [ringWrite_mcur, hcur, ringAddr_succ]
  refine ⟨by simp [htotal], hcur', fun d h1 hd hsize => ?_⟩
  rw [ringWrite_outTotal] at hd
  rw [ringWrite_ringSize] at hsize
  have hread : matchByte d (ringWrite b s) =
      if (s.outTotal + 1 - d) % s.ringSize = s.outTotal % s.ringSize then some b
      else s.mb.read ((s.outTotal + 1 - d) % s.ringSize) := by
    rw [matchByte, hcur', ringWrite_ringSize, ringAddr_sub hd, ringWrite_mb, Memory.read_write, hcur]
  rw [hread, ringWrite_out, ringWrite_outTotal]
  obtain ⟨e, rfl⟩ : ∃ e, d = e + 1 := ⟨d - 1, by omega⟩
  rw [Nat.add_sub_add_right]
  cases e with
  | zero => simp [htotal]
  | succ e =>
    have hother : (s.outTotal - (e + 1)) % s.ringSize ≠ s.outTotal % s.ringSize := fun heq => by
      have hdvd := (Nat.modEq_iff_dvd' (Nat.sub_le _ _)).mp heq
      rw [Nat.sub_sub_self (by omega)] at hdvd
      exact absurd (Nat.le_of_dvd (by omega) hdvd) (by omega)
    have hold := hlaw (e + 1) (by omega) (by omega) (by omega)
    rw [matchByte, hcur, ringAddr_sub (by omega)] at hold
    rw [if_neg hother, hold, List.getElem?_append_left (by omega)]

theorem memoryOk_ringWrite {s : State} (b : Byte) (hsize : 1 ≤ s.ringSize) (h : MemoryOk s) :
    MemoryOk (ringWrite b s) := by
  obtain ⟨hwf, hmb, hcur, hlit⟩ := h
  have hcur' : (ringWrite b s).mcur < s.ringSize := by
    rw [ringWrite_mcur]
    exact ringAddr_lt hsize _
  exact ⟨s.mb.wf_write _ b hwf, s.mb.bounded_write _ _ b hcur hmb, hcur', hlit⟩

end Sys2Proof.Machine

/-! SUPPORT. The operations that make up a step keep the invariant: one rule for each. -/

namespace Sys2Proof.Machine

/-! ### Register updates -/

theorem inv_raise {s : State} (h : Inv s) (r : Reason) : Inv (raise s r) :=
  { h with
    block := { h.block with fetching := nofun, parsing := nofun }
    vlc := { h.vlc with cursor := nofun, ahead := nofun }
    ranges := { h.ranges with } }

theorem inv_sourceRead {s : State} {n : Nat} (h : Inv s) (hn : s.spos + n ≤ s.src.length) :
    Inv { s with spos := s.spos + n } :=
  { h with
    block := { h.block with }
    vlc := { h.vlc with }
    ranges := { h.ranges with spos := hn } }

theorem inv_scratchRead {s : State} {n : Nat} (h : Inv s) (hs : List Byte) (hp : s.phase = .idle)
    (hn : s.spos + n ≤ s.src.length) : Inv { s with spos := s.spos + n, hs := hs } :=
  { h with
    block := { h.block with }
    vlc := { h.vlc with
      cursor := fun hv => absurd (hp.symm.trans hv) nofun
      ahead := fun hv => absurd (hp.symm.trans hv) nofun }
    ranges := { h.ranges with spos := hn } }

theorem inv_setHeader {s : State} {hdr : Header} (h : Inv s) (hh : HeaderOk hdr) :
    Inv { s with hdr := hdr } :=
  { h with
    block := { h.block with }
    vlc := { h.vlc with }
    ranges := { h.ranges with hdr := hh } }

theorem inv_setEos {s : State} (h : Inv s) : Inv (setEos s) :=
  { h with
    block := { h.block with }
    vlc := { h.vlc with }
    ranges := { h.ranges with } }

theorem inv_updateD {s : State} {d : Nat} (h : Inv s) (hm : s.M = 0) (hd : d < 262140) :
    Inv (updateD d s) := by
  unfold updateD
  split
  · exact h
  · exact { h with
      block := { h.block with distance := fun _ hpos => absurd hm hpos.ne' }
      vlc := { h.vlc with }
      ranges := { h.ranges with D := Nat.le_of_lt_succ hd } }

/-! ### The LMD loop -/

theorem inv_blockDone {s : State} (h : Inv s) : Inv (blockDone s) := by
  rcases blockDone_cases s with ⟨_, he⟩ | ⟨_, he⟩ <;> rw [he]
  · exact inv_raise h _
  · exact { h with
      block := {
        counted := h.block.counted
        room := fun ha => absurd rfl ha
        distance := fun ha => absurd rfl ha
        literals := nofun
        payload := nofun
        rawPayload := nofun
        fetching := nofun
        parsing := nofun }
      vlc := { h.vlc with cursor := nofun, ahead := nofun }
      ranges := { h.ranges with } }

/-- A triple taken at a boundary leaves what the bytes still to emit need (R165, R216, R221, R254). -/
theorem inv_acceptTriple {s : State} {tr : Triple} (h : Inv s) (hp : s.phase = .idle) (ha : s.active ≠ .raw)
    (hm : s.M = 0) (htr : tr.InRange)
    (hv : s.active = .lzvn → s.lzvn.vpos + tr.l ≤ s.lzvn.vp.length) : Inv (acceptTriple tr s) := by
  have hD := inv_updateD h hm htr.newD
  rcases acceptTriple_cases tr s with ⟨r, _, he⟩ | ⟨hok, he⟩ <;> rw [he]
  · exact inv_raise hD r
  obtain ⟨hlit, hroom, hdist⟩ := tripleFault_none hok
  have hlmax := htr.l
  have hmmax := htr.m
  exact { hD with
    block := { hD.block with
      room := fun _ => hroom
      distance := fun _ => hdist
      literals := fun hz => ⟨hlit hz, (hD.block.literals hz).2⟩
      payload := fun he => by simpa using hv (by simpa using he)
      rawPayload := fun he => absurd (by simpa using he) ha
      fetching := fun hf => by simp [hp] at hf
      parsing := fun hf => by simp [hp] at hf }
    vlc := { hD.vlc with }
    ranges := { hD.ranges with
      L := by simp only; omega
      M := by simp only; omega } }

/-- The LZVN cursor passes an opcode inside the payload, with no literal pending (R241, R254). -/
theorem inv_lzvnAdvance {s : State} {n : Nat} {p : Phase} (h : Inv s) (hl : s.L = 0)
    (hn : s.lzvn.vpos + n ≤ s.lzvn.vp.length) (hp : p ≠ .vlc)
    (hf : p = .lzvnFetch → s.active = .lzvn ∧ s.L = 0 ∧ s.M = 0) :
    Inv { s with lzvn := { s.lzvn with vpos := s.lzvn.vpos + n }, phase := p } :=
  { h with
    block := { h.block with
      payload := fun _ => by simpa [hl] using hn
      fetching := hf
      parsing := fun hv => absurd hv hp }
    vlc := { h.vlc with cursor := fun hv => absurd hv hp, ahead := fun hv => absurd hv hp }
    ranges := { h.ranges with vpos := hn } }

/-- The LZFSE registers after a triple decode (R220). -/
theorem inv_tripleDecoded {s : State} {tr : Triple} {z : Lzfse} (h : Inv s)
    (hz : TripleDecoded s.lzfse tr z) : Inv { s with lzfse := z } := by
  obtain ⟨_, ⟨hsL, hsM, hsD⟩, hreader, hframe⟩ := hz
  generalize z.sL = sL, z.sM = sM, z.sD = sD, z.brLmd = br at *
  subst hframe
  have hrem := h.ranges.remaining
  exact { h with
    block := { h.block with }
    tables := { h.tables with }
    readers := ⟨hreader, h.readers.2⟩
    vlc := { h.vlc with }
    ranges := { h.ranges with
      remaining := by simp only; omega
      lmdStates := by simp only; omega } }

theorem inv_fetchLzfse {s : State} (h : Inv s) (hp : s.phase = .idle) (ha : s.active.isLzfse = true)
    (hm : s.M = 0) : Inv (fetchLzfse s) := by
  unfold fetchLzfse
  split
  · exact inv_blockDone h
  split
  · exact inv_raise h _
  · rename_i tr z hd
    have hz := decodeTriple_ok h.tables h.readers.1 hd
    refine inv_acceptTriple (inv_tripleDecoded h hz) hp (fun he => ?_) hm hz.triple (fun he => ?_)
    · rw [show s.active = .raw from he] at ha; cases ha
    · rw [show s.active = .lzvn from he] at ha; cases ha

/-! ### Emission -/

theorem ringSize_pos {s : State} (h : Inv s) : 1 ≤ s.ringSize :=
  one_le_two.trans h.parameters.2.1

/-- A literal written: the run drops by one as the strategy's cursor moves on (R211, R219, R224, R255). The
cursors are given, so that the rule serves every strategy. -/
theorem inv_literalWritten {s : State} {litPos vpos rpos : Nat} (h : Inv s) (b : Byte)
    (hp : s.phase = .idle) (ha : s.active ≠ .noBlock) (hl : 0 < s.L)
    (hlit : litPos ≤ s.lzfse.nLiterals ∧
      (s.active.isLzfse = true → litPos + (s.L - 1) ≤ s.lzfse.nLiterals))
    (hvpos : vpos ≤ s.lzvn.vp.length ∧ (s.active = .lzvn → vpos + (s.L - 1) ≤ s.lzvn.vp.length))
    (hrpos : rpos ≤ s.raw.rp.length ∧ (s.active = .raw → rpos + (s.L - 1) = s.raw.rp.length)) :
    Inv { ringWrite b s with
      L := s.L - 1
      lzfse := { s.lzfse with litPos := litPos }
      lzvn := { s.lzvn with vpos := vpos }
      raw := { s.raw with rpos := rpos } } := by
  have hroom := h.block.room ha
  have hdist := h.block.distance ha
  have hL := h.ranges.L
  exact { h with
    memory := memoryOk_ringWrite b (ringSize_pos h) h.memory
    ring := ringOk_ringWrite b h.ring
    block := {
      counted := by simp only [ringWrite_blk]; omega
      room := fun _ => by simp only [ringWrite_blk, ringWrite_M]; omega
      distance := fun _ hm => by
        have := hdist hm
        simp only [ringWrite_D, ringWrite_outTotal, ringWrite_ringSize]
        omega
      literals := fun hz => ⟨hlit.2 hz, (h.block.literals hz).2⟩
      payload := hvpos.2
      rawPayload := fun hr => ⟨hrpos.2 hr, (h.block.rawPayload hr).2⟩
      fetching := fun hf => absurd (hp.symm.trans hf) nofun
      parsing := fun hf => absurd (hp.symm.trans hf) nofun }
    tables := { h.tables with }
    vlc := { h.vlc with }
    ranges := { h.ranges with
      L := (Nat.sub_le _ _).trans_lt hL
      litPos := hlit.1
      vpos := hvpos.1
      rpos := hrpos.1 } }

theorem inv_emitLiteral {s t : State} (h : Inv s) (hp : s.phase = .idle) (ha : s.active ≠ .noBlock)
    (hl : 0 < s.L) (he : emitLiteral s = .ok t) : Inv t := by
  obtain ⟨b, s', hn, rfl⟩ := emitLiteral_cases he
  have hlit : s.active.isLzfse = true → s.lzfse.litPos + (s.L - 1) + 1 ≤ s.lzfse.nLiterals := fun hz => by
    have := (h.block.literals hz).1
    omega
  have hvpos : s.active = .lzvn → s.lzvn.vpos + (s.L - 1) + 1 ≤ s.lzvn.vp.length := fun hz => by
    have := h.block.payload hz
    omega
  have hlit' := fun hz => Nat.le_of_succ_le (hlit hz)
  have hvpos' := fun hz => Nat.le_of_succ_le (hvpos hz)
  rcases nextLiteral_cases hn with ⟨hz, _, rfl⟩ | ⟨hz, _, rfl⟩ | ⟨hz, _, rfl⟩
  · have := hlit hz
    have hnot : s.active ≠ .raw := fun hr => by rw [hr] at hz; cases hz
    exact inv_literalWritten h b hp ha hl ⟨by omega, fun _ => by omega⟩
      ⟨h.ranges.vpos, hvpos'⟩ ⟨h.ranges.rpos, fun hr => absurd hr hnot⟩
  · have := hvpos hz
    exact inv_literalWritten h b hp ha hl ⟨h.ranges.litPos, hlit'⟩
      ⟨by omega, fun _ => by omega⟩ ⟨h.ranges.rpos, fun hr => absurd (hz.symm.trans hr) nofun⟩
  · have := (h.block.rawPayload hz).1
    exact inv_literalWritten h b hp ha hl ⟨h.ranges.litPos, hlit'⟩
      ⟨h.ranges.vpos, hvpos'⟩ ⟨by omega, fun _ => by omega⟩

/-- A match byte written (R212). -/
theorem inv_emitMatch {s t : State} (h : Inv s) (hp : s.phase = .idle) (ha : s.active ≠ .noBlock)
    (hm : 0 < s.M) (he : emitMatch s = .ok t) : Inv t := by
  obtain ⟨b, _, rfl⟩ := emitMatch_cases he
  have hroom := h.block.room ha
  have hdist := h.block.distance ha hm
  have hM := h.ranges.M
  exact { h with
    memory := memoryOk_ringWrite b (ringSize_pos h) h.memory
    ring := ringOk_ringWrite b h.ring
    block := { h.block with
      counted := by simp only [ringWrite_blk]; omega
      room := fun _ => by simp only [ringWrite_blk, ringWrite_L]; omega
      distance := fun _ _ => by
        simp only [ringWrite_D, ringWrite_outTotal, ringWrite_ringSize, ringWrite_L]
        omega
      rawPayload := fun hr => absurd (h.block.rawPayload hr).2 hm.ne'
      fetching := fun hf => absurd (hp.symm.trans hf) nofun }
    vlc := { h.vlc with }
    ranges := { h.ranges with M := (Nat.sub_le _ _).trans hM } }

/-! ### Block starts -/

/-- `initLZFSE` (R217): a fault keeps the registers, and a started block has its buffer, tables and readers. -/
theorem inv_initLzfse {s : State} {kind : BlockKind} (h : Inv s) (hk : kind.isLzfse = true) :
    AllNext Inv (initLzfse kind s) := by
  intro t ht
  have hh := h.ranges.hdr
  rcases initLzfse_cases ht with ⟨r, n, rfl, hn⟩ |
    ⟨tabs, lp, lmdp, bytes, lanes, brLit, brLmd, hc, hb, hs, hlp, hlmdp, hl, hi, rfl⟩
  · refine inv_raise (inv_sourceRead h ?_) r
    have := h.ranges.spos
    split at hn <;> omega
  obtain ⟨hcount, hquads⟩ := checkLiteralCount_ok hc
  have htables : TablesOk (lzfseAtInit s.hdr tabs lp lmdp lanes brLit brLmd) :=
    buildTables_ok hb rfl rfl rfl rfl
  have hstates : s.hdr.literalState.Below (2 ^ 16) := by
    have := hh.literalState
    simp only [Lanes.Below]
    omega
  obtain ⟨hlanes, hbrLit⟩ := literalDecode_ok htables.tlitEntries (by simp [Config.nStatesLit]) hstates hl
  have hlen : bytes.length = s.hdr.nLiterals := by rw [literalDecode_length hl]; omega
  have hlpLen : lp.length < 2 ^ 31 := by
    rw [hlp]
    exact (List.length_take_le _ _).trans_lt hh.nLiteralPayloadBytes
  have hlmdpLen : lmdp.length < 2 ^ 31 := by
    rw [hlmdp]
    exact (List.length_take_le _ _).trans_lt hh.nLmdPayloadBytes
  have hcells : ∀ i < s.hdr.nLiterals, ((Memory.ofBytes 0 bytes).read i).isSome = true := fun i hi => by
    simp [Memory.read_ofBytes, hlen, hi]
  have hbound : ∀ c ∈ Memory.ofBytes 0 bytes, c.1 < Config.literalBufferSize := fun c hc => by
    have := (Memory.bounded_ofBytes bytes 0 c hc).2
    simp only [Config.literalBufferSize]
    omega
  obtain ⟨hmb, hcellsMb, hcur, _, _⟩ := h.memory
  exact { h with
    memory := ⟨hmb, hcellsMb, hcur, Memory.wf_ofBytes 0 bytes, hbound⟩
    block := {
      counted := Nat.zero_le _
      room := fun _ => Nat.zero_le _
      distance := fun _ hm => absurd hm (Nat.lt_irrefl 0)
      literals := fun _ => ⟨Nat.zero_le _, hcells⟩
      payload := fun he => by rw [show kind = .lzvn from he] at hk; cases hk
      rawPayload := fun he => by rw [show kind = .raw from he] at hk; cases hk
      fetching := nofun
      parsing := nofun }
    tables := htables
    readers := ⟨BitReader.init_ok hi, hbrLit⟩
    vlc := { h.vlc with cursor := nofun, ahead := nofun }
    ranges := { h.ranges with
      spos := hs
      nRaw := hh.nRawBytes
      L := Nat.two_pow_pos 31
      M := Nat.zero_le _
      D := Nat.zero_le _
      nLiterals := ⟨hcount, hquads⟩
      litPos := Nat.zero_le _
      remaining := hh.nMatches
      lmdStates := by have := hh.lmdState; simp only [lzfseAtInit]; omega
      lanes := hlanes
      payloads := ⟨hlpLen, hlmdpLen, h.ranges.payloads.2.2⟩ } }

theorem inv_lzvnStarted {s : State} {vp : List Byte} (h : Inv s) (hvp : vp.length < 2 ^ 31) :
    Inv (lzvnStarted vp s) := by
  obtain ⟨hlp, hlmdp, _, hrp⟩ := h.ranges.payloads
  exact { h with
    block := {
      counted := Nat.zero_le _
      room := fun _ => Nat.zero_le _
      distance := fun _ hm => absurd hm (Nat.lt_irrefl 0)
      literals := nofun
      payload := fun _ => Nat.zero_le _
      rawPayload := nofun
      fetching := nofun
      parsing := nofun }
    vlc := { h.vlc with cursor := nofun, ahead := nofun }
    ranges := { h.ranges with
      nRaw := h.ranges.hdr.nRawBytes
      L := Nat.two_pow_pos 31
      M := Nat.zero_le _
      D := Nat.zero_le _
      payloads := ⟨hlp, hlmdp, hvp, hrp⟩
      vpos := Nat.zero_le _ } }

theorem inv_rawStarted {s : State} {rp : List Byte} (h : Inv s) (hrp : rp.length = s.hdr.nRawBytes) :
    Inv (rawStarted rp s) := by
  obtain ⟨hlp, hlmdp, hvp, _⟩ := h.ranges.payloads
  have hraw := h.ranges.hdr.nRawBytes
  exact { h with
    block := {
      counted := Nat.zero_le _
      room := fun _ => by simp
      distance := fun _ hm => absurd hm (Nat.lt_irrefl 0)
      literals := nofun
      payload := nofun
      rawPayload := fun _ => by simp [hrp]
      fetching := nofun
      parsing := nofun }
    vlc := { h.vlc with cursor := nofun, ahead := nofun }
    ranges := { h.ranges with
      nRaw := hraw
      L := hraw
      M := Nat.zero_le _
      D := Nat.zero_le _
      payloads := ⟨hlp, hlmdp, hvp, hrp.trans_lt hraw⟩
      rpos := Nat.zero_le _ } }

/-! ### The frequency codes -/

/-- `vlcDecode` starts on an empty accumulator (R182). -/
theorem inv_vlcStarted {s : State} (h : Inv s) (hs : List Byte) (ha : s.active = .noBlock) :
    Inv { s with hs := hs, vlc := ⟨0, 0, 0, []⟩, phase := .vlc } :=
  { h with
    block := { h.block with fetching := nofun, parsing := fun _ => ha }
    vlc := {
      held := Nat.zero_le _
      acc := Nat.one_pos
      count := Nat.zero_le _
      values := nofun
      cursor := fun _ => Nat.zero_le _
      ahead := fun _ hw => absurd rfl hw }
    ranges := { h.ranges with } }

/-- The registers between two codes are held over the blob (R182). -/
theorem vlc_held {s : State} (hp : s.phase = .vlc) (h : VlcOk s) : s.vlc.Held (vlcBlob s) :=
  ⟨h.held, h.acc, h.cursor hp⟩

theorem inv_vlcRefilled {s : State} (h : Inv s) (hp : s.phase = .vlc) : Inv (vlcRefilled s) := by
  obtain ⟨hheld, hweights, hfull⟩ := Vlc.refill_ok (vlcBlob s) 4 s.vlc (vlc_held hp h.vlc) (by omega)
  exact { h with
    block := { h.block with }
    vlc := {
      held := hheld.nb
      acc := hheld.acc
      count := by rw [vlcRefilled_vlc, hweights]; exact h.vlc.count
      values := by rw [vlcRefilled_vlc, hweights]; exact h.vlc.values
      cursor := fun _ => hheld.p
      ahead := fun _ _ hlt => (hfull hlt).trans' (by norm_num) }
    ranges := { h.ranges with } }

/-- One code taken (R182, R184): at most 14 of at least 25 bits go where blob bytes remain. -/
theorem inv_takeCode {s : State} {width value : Nat} (h : Inv s)
    (hn : s.vlc.weights.length < Config.nWeights) (hw : width ≤ 14) (hv : value ≤ 1047)
    (hfull : s.vlc.p < (vlcBlob s).length → 25 ≤ s.vlc.nb) : AllNext Inv (takeCode width value s) := by
  rcases takeCode_cases width value s with ⟨_, he⟩ | ⟨hnb, he⟩ <;> rw [he] <;> refine allNext_next ?_
  · exact inv_raise h _
  have hacc : s.vlc.acc >>> width < 2 ^ (s.vlc.nb - width) := by
    rw [Nat.shiftRight_eq_div_pow, Nat.div_lt_iff_lt_mul (Nat.two_pow_pos _), ← pow_add,
      Nat.sub_add_cancel hnb]
    exact h.vlc.acc
  exact { h with
    block := { h.block with }
    vlc := {
      held := (Nat.sub_le _ _).trans h.vlc.held
      acc := hacc
      count := by simp only [List.length_append, List.length_singleton]; omega
      values := fun w hmem => by
        rcases List.mem_append.mp hmem with hmem | hmem
        · exact h.vlc.values w hmem
        · rwa [List.mem_singleton.mp hmem]
      cursor := h.vlc.cursor
      ahead := fun _ _ hlt => by have := hfull hlt; simp only; omega }
    ranges := { h.ranges with } }

end Sys2Proof.Machine

/-! SUPPORT. Every step keeps the invariant, and none stops on a value that does not exist. -/

namespace Sys2Proof.Machine

/-! ### Instructions of a level -/

/-- An LZVN instruction takes a triple no larger than its fields allow, is a `nop`, ends the block or faults
(R241 to R253). -/
theorem exec_lzvn_inRange {i : Instr} (hi : i.level = .lzvn) (s : State) :
    (∃ n tr, Triple.InRange tr ∧ exec i s = lzvnTriple n tr s) ∨
    exec i s = .next { s with
      lzvn := { s.lzvn with vpos := s.lzvn.vpos + 1 }, phase := .lzvnFetch } ∨
    exec i s = .next (blockDone s) ∨ exec i s = .next (raise s .f09) := by
  cases i with
  | smlD l m d | medD l m d | lrgD l m d =>
    exact .inl ⟨_, ⟨l.toNat, m.toNat + 3, d.toNat⟩, by constructor <;> simp only <;> omega, rfl⟩
  | preD l m => exact .inl ⟨_, ⟨l.toNat, m.toNat + 3, 0⟩, by constructor <;> simp only <;> omega, rfl⟩
  | smlL l => exact .inl ⟨_, ⟨l.toNat, 0, 0⟩, by constructor <;> simp only <;> omega, rfl⟩
  | lrgL l => exact .inl ⟨_, ⟨l.toNat + 16, 0, 0⟩, by constructor <;> simp only <;> omega, rfl⟩
  | smlM m => exact .inl ⟨_, ⟨0, m.toNat, 0⟩, by constructor <;> simp only <;> omega, rfl⟩
  | lrgM m => exact .inl ⟨_, ⟨0, m.toNat + 16, 0⟩, by constructor <;> simp only <;> omega, rfl⟩
  | nop op => exact .inr (.inl rfl)
  | eos => exact .inr (.inr (.inl rfl))
  | udef op => exact .inr (.inr (.inr rfl))
  | _ => cases hi

theorem inv_exec_lzvn {i : Instr} {s : State} (h : Inv s) (hi : i.level = .lzvn) (ha : s.active = .lzvn)
    (hl : s.L = 0) (hm : s.M = 0) (hv : s.lzvn.vpos < s.lzvn.vp.length) : AllNext Inv (exec i s) := by
  rcases exec_lzvn_inRange hi s with ⟨n, tr, htr, he⟩ | he | he | he <;> rw [he]
  · rcases lzvnTriple_cases n tr s with ⟨_, he⟩ | ⟨hn, he⟩ <;> rw [he] <;> refine allNext_next ?_
    · exact inv_raise h _
    · have hpast := inv_lzvnAdvance (n := n) (p := .idle) h hl (by omega) nofun nofun
      exact inv_acceptTriple hpast rfl (fun hr => absurd (ha.symm.trans hr) nofun) hm htr fun _ => hn
  · exact allNext_next (inv_lzvnAdvance h hl hv nofun fun _ => ⟨ha, hl, hm⟩)
  · exact allNext_next (inv_blockDone h)
  · exact allNext_next (inv_raise h _)

/-- The bytes of a source read that succeeds (R61). -/
theorem srcBytes_length {s : State} {n : Nat} (h : s.spos + n ≤ s.src.length) :
    ((s.src.drop s.spos).take n).length = n := by
  simp only [List.length_take, List.length_drop]
  omega

theorem inv_exec_block {i : Instr} {s : State} (h : Inv s) (hi : i.level = .block) (hp : s.phase = .idle)
    (ha : s.active = .noBlock) : AllNext Inv (exec i s) := by
  have hshort := inv_raise h .t01
  cases i with
  | bvx1 =>
    unfold exec execBvx1
    refine allNext_readingHeader (fun _ => hshort) fun hn => ?_
    have hread := inv_scratchRead h ((s.src.drop s.spos).take 766) hp hn
    refine allNext_raising (fun r _ => inv_raise hread r) fun hdr hh => ?_
    exact inv_initLzfse (inv_setHeader hread (parseV1_ok (srcBytes_length hn) hh)) rfl
  | bvx2 =>
    unfold exec execBvx2
    refine allNext_readingHeader (fun _ => hshort) fun hn => ?_
    have hread := inv_scratchRead h ((s.src.drop s.spos).take 28) hp hn
    refine allNext_raising (fun r _ => inv_raise hread r) fun (hdr, tableLen) hh => ?_
    refine allNext_reading (fun _ => inv_raise hread _) fun hblob => ?_
    have hparsed := inv_setHeader (inv_sourceRead hread hblob) (parseV2Prefix_ok hh)
    split
    · exact inv_initLzfse hparsed rfl
    · exact allNext_next (inv_vlcStarted hparsed _ ha)
  | bvxn =>
    unfold exec execBvxn
    refine allNext_readingHeader (fun _ => hshort) fun hn => ?_
    have hread := inv_scratchRead h ((s.src.drop s.spos).take 8) hp hn
    refine allNext_raising (fun r _ => inv_raise hread r) fun (nRaw, nPayload) hh => ?_
    obtain ⟨hraw, hpayload⟩ := parseLzvn_ok hh
    have hparsed := inv_setHeader (hdr := { s.hdr with nRawBytes := nRaw, nPayloadBytes := nPayload }) hread
      { h.ranges.hdr with nRawBytes := hraw, nPayloadBytes := hpayload }
    refine allNext_reading (fun _ => inv_raise hparsed _) fun hvp => allNext_next ?_
    exact inv_lzvnStarted (inv_sourceRead hparsed hvp) ((srcBytes_length hvp).trans_lt hpayload)
  | bvxRaw =>
    unfold exec execBvxRaw
    refine allNext_readingHeader (fun _ => hshort) fun hn => ?_
    have hread := inv_scratchRead h ((s.src.drop s.spos).take 4) hp hn
    refine allNext_raising (fun r _ => inv_raise hread r) fun nRaw hh => ?_
    have hparsed := inv_setHeader (hdr := { s.hdr with nRawBytes := nRaw }) hread
      { h.ranges.hdr with nRawBytes := parseRaw_ok hh }
    refine allNext_reading (fun _ => inv_raise hparsed _) fun hrp => allNext_next ?_
    exact inv_rawStarted (inv_sourceRead hparsed hrp) (srcBytes_length hrp)
  | bvxEnd => exact allNext_next (inv_setEos h)
  | _ => cases hi

/-- A frequency code with its refill (R182). -/
theorem inv_code {s : State} (h : Inv s) (hp : s.phase = .vlc)
    (hn : s.vlc.weights.length < Config.nWeights) :
    AllNext Inv (exec (decodeVlc (vlcWindow (vlcRefilled s).vlc)) (vlcRefilled s)) := by
  obtain ⟨_, hweights, hfull⟩ := Vlc.refill_ok (vlcBlob s) 4 s.vlc (vlc_held hp h.vlc) (by omega)
  obtain ⟨hwidth, hvalue⟩ := vlc_bounds (decodeVlc (vlcWindow (vlcRefilled s).vlc))
  rw [exec_vlc (decodeVlc_level _)]
  exact inv_takeCode (inv_vlcRefilled h hp) (by rwa [vlcRefilled_vlc, hweights]) hwidth hvalue hfull

/-- The end of a `bvx2` writes 360 weights of at most 1047 into the header (R185). -/
theorem inv_finishV2 {s : State} (h : Inv s) (hn : Config.nWeights ≤ s.vlc.weights.length) :
    AllNext Inv (finishV2 s) := by
  refine allNext_raising (fun r _ => inv_raise h r) fun ws hws => ?_
  obtain ⟨_, _, _, rfl⟩ := Vlc.finish_ok hws
  have hparsed := inv_setHeader (hdr := { s.hdr with weights := s.vlc.weights }) h
    { h.ranges.hdr with
      weightCount := Nat.le_antisymm h.vlc.count hn
      weights := fun w hw => (h.vlc.values w hw).trans_lt (by norm_num) }
  exact inv_initLzfse hparsed rfl

/-- An opcode is decoded only from a payload byte (R254 a). -/
theorem vpos_lt_of_decode {vp : List Byte} {vpos : Nat} {i : Instr} (h : decodeLzvn (vp.drop vpos) = .ok i) :
    vpos < vp.length := by
  by_contra hle
  rw [List.drop_eq_nil_of_le (by omega)] at h
  cases h

/-! ### The step -/

theorem inv_step {s t : State} (h : Inv s) (hstep : step s = .next t) : Inv t := by
  obtain ⟨_, ⟨_, rfl⟩ | ⟨_, hc⟩⟩ := step_cases hstep
  · exact h
  cases hc with
  | code hp hn he => exact inv_code h hp hn _ he
  | finish hp hn he => exact inv_finishV2 h hn _ he
  | overrun _ _ _ he => exact he ▸ inv_raise h _
  | opcode hp i hd he =>
    obtain ⟨ha, hl, hm⟩ : s.active = .lzvn ∧ s.L = 0 ∧ s.M = 0 := hp.elim h.block.fetching And.right
    exact inv_exec_lzvn h (decodeLzvn_level hd) ha hl hm (vpos_lt_of_decode hd) _ he
  | shortMagic _ _ _ he => exact he ▸ inv_raise h _
  | badMagic hp _ hs _ _ he => exact he ▸ inv_raise (inv_scratchRead h _ hp hs) _
  | magic hp ha hs i hd he =>
    exact inv_exec_block (inv_scratchRead h _ hp hs) (decodeBlock_level hd) hp ha _ he
  | literal hp ha hl he => exact inv_emitLiteral h hp ha hl he
  | matched hp ha _ hm he => exact inv_emitMatch h hp ha hm he
  | lzfse hp ha _ hm he => exact he ▸ inv_fetchLzfse h hp ha hm
  | rawDone _ _ _ _ he => exact he ▸ inv_blockDone h

/-- Settles O53: each operation of a step keeps the invariant, by its own rule. -/
theorem invariantKept : Obligations.InvariantKept := fun _ _ => inv_step

/-! ### Values that a step reads -/

/-- The action ends in a next state: an instruction always does (R302). -/
def Action.HasNext : Action → Prop
  | .run _ _ => True
  | .done o => ∃ t, o = .next t

theorem step_isNext {s : State} (h : (fetch s).HasNext) : ∃ t, step s = .next t := by
  unfold step
  generalize fetch s = a at h
  cases a with
  | run i u => exact exec_isNext i u
  | done o => exact h

theorem runDecoded_hasNext (x : Except DecodeError Instr) (s : State) : (runDecoded x s).HasNext := by
  cases x with
  | error e => exact ⟨_, rfl⟩
  | ok i => trivial

theorem fetchMagic_hasNext (s : State) : (fetchMagic s).HasNext := by
  unfold fetchMagic
  split
  · exact ⟨_, rfl⟩
  · exact runDecoded_hasNext _ _

theorem fetchCode_hasNext (s : State) : (fetchCode s).HasNext := by
  unfold fetchCode
  split
  · trivial
  · exact raising_isNext fun _ => initLzfse_isNext _ _

theorem fetchNext_hasNext (s : State) : (fetchNext s).HasNext := by
  unfold fetchNext
  split
  · exact ⟨_, rfl⟩
  · exact ⟨_, rfl⟩
  · exact runDecoded_hasNext _ _
  · exact ⟨_, rfl⟩
  · exact fetchMagic_hasNext s

/-- The literal to emit is in its buffer or payload (R219, R221, R224, R254). -/
theorem nextLiteral_isOk {s : State} (ha : s.active ≠ .noBlock) (hl : 0 < s.L) (h : BlockOk s) :
    ∃ p, nextLiteral s = .ok p := by
  have hlit : s.active.isLzfse = true → ∃ b, s.lit.read s.lzfse.litPos = some b := fun hz => by
    obtain ⟨hpos, hcells⟩ := h.literals hz
    exact Option.isSome_iff_exists.mp (hcells _ (by omega))
  unfold nextLiteral
  split
  · obtain ⟨b, hb⟩ := hlit (by simp [BlockKind.isLzfse, *])
    exact ⟨_, by rw [hb]⟩
  · obtain ⟨b, hb⟩ := hlit (by simp [BlockKind.isLzfse, *])
    exact ⟨_, by rw [hb]⟩
  · have hpos := h.payload ‹_›
    exact ⟨_, by rw [List.getElem?_eq_getElem (by omega)]⟩
  · have hpos := (h.rawPayload ‹_›).1
    exact ⟨_, by rw [List.getElem?_eq_getElem (by omega)]⟩
  · exact absurd ‹_› ha

theorem emitLiteral_hasNext {s : State} (ha : s.active ≠ .noBlock) (hl : 0 < s.L) (h : BlockOk s) :
    (emitted (emitLiteral s)).HasNext := by
  obtain ⟨p, hp⟩ := nextLiteral_isOk ha hl h
  rw [emitLiteral, hp]
  exact ⟨_, rfl⟩

/-- The match byte is one the ring still holds (R164, R165). -/
theorem emitMatch_hasNext {s : State} (ha : s.active ≠ .noBlock) (hl : s.L = 0) (hm : 0 < s.M) (h : BlockOk s)
    (hr : RingOk s) : (emitted (emitMatch s)).HasNext := by
  obtain ⟨htotal, _, hlaw⟩ := hr
  obtain ⟨h1, hd, hsize⟩ := h.distance ha hm
  have hbyte : matchByte s.D s = some s.out[s.outTotal - s.D] := by
    rw [hlaw _ h1 (by omega) hsize, List.getElem?_eq_getElem]
  rw [emitMatch, ringMatch, hbyte]
  exact ⟨_, rfl⟩

/-- The choice of a live block: a byte left to emit, or the next triple (R210). -/
theorem live_hasNext {s : State} (ha : s.active ≠ .noBlock) (h : Inv s) :
    (if 0 < s.L then emitted (emitLiteral s)
      else if 0 < s.M then emitted (emitMatch s) else fetchNext s).HasNext := by
  split
  · exact emitLiteral_hasNext ha ‹_› h.block
  split
  · exact emitMatch_hasNext ha (by omega) ‹_› h.block h.ring
  · exact fetchNext_hasNext s

theorem fetch_hasNext {s : State} (hf : s.fault = none) (h : Inv s) : (fetch s).HasNext := by
  unfold fetch
  rw [hf]
  simp only
  split
  · exact ⟨_, rfl⟩
  split
  · exact fetchCode_hasNext s
  · exact runDecoded_hasNext _ _
  · cases ha : s.active with
    | noBlock => exact fetchMagic_hasNext s
    | v1 => exact live_hasNext (ha ▸ nofun) h
    | v2 => exact live_hasNext (ha ▸ nofun) h
    | lzvn => exact live_hasNext (ha ▸ nofun) h
    | raw => exact live_hasNext (ha ▸ nofun) h

/-- Settles O54: the invariant's account places each byte still to emit in its payload, in `LIT` or in the ring, and
every other step has a next state whatever it reads. -/
theorem noStepReadsMissingValue : Obligations.NoStepReadsMissingValue := by
  intro s h
  have hnext : s.fault = none → ∃ t, step s = .next t := fun hf => step_isNext (fetch_hasNext hf h)
  refine ⟨?_, hnext⟩
  cases hf : s.fault with
  | none =>
    obtain ⟨t, ht⟩ := hnext hf
    rw [ht]
    rfl
  | some f => simp [step, fetch, hf, safeOutcome]

end Sys2Proof.Machine

/-! SUPPORT. What a step does to the source, the end-of-stream flag and the literal buffer: it reads on, and only
`bvx$` ends the stream. -/

namespace Sys2Proof.Machine

/-- The literal buffer is in canonical form and inside its space (R32). -/
def LiteralsOk (m : Memory) : Prop :=
  m.wf = true ∧ ∀ c ∈ m, c.1 < Config.literalBufferSize

/-- From `s` to `t` the source is read on, the end-of-stream flag stays, and the literal buffer is kept or filled
anew. -/
structure ReadsOn (s t : State) : Prop where
  src : t.src = s.src
  spos : s.spos ≤ t.spos
  inside : s.spos ≤ s.src.length → t.spos ≤ s.src.length
  eos : t.eos = s.eos
  lit : t.lit = s.lit ∨ LiteralsOk t.lit

theorem ReadsOn.refl (s : State) : ReadsOn s s := ⟨rfl, le_rfl, id, rfl, .inl rfl⟩

/-- An update of registers that none of this is about; the equations of a record update hold by `rfl`. -/
theorem ReadsOn.update {s u t : State} (h : ReadsOn s u) (hsrc : t.src = u.src := by rfl)
    (hspos : t.spos = u.spos := by rfl) (heos : t.eos = u.eos := by rfl) (hlit : t.lit = u.lit := by rfl) :
    ReadsOn s t :=
  ⟨hsrc ▸ h.src, hspos ▸ h.spos, hspos ▸ h.inside, heos ▸ h.eos, hlit ▸ h.lit⟩

/-- A source read that succeeds (R61). -/
theorem ReadsOn.read {s u : State} {n : Nat} (h : ReadsOn s u) (hn : u.spos + n ≤ u.src.length) :
    ReadsOn s { u with spos := u.spos + n } :=
  { h with spos := h.spos.trans (Nat.le_add_right _ _), inside := fun _ => h.src ▸ hn }

/-- A literal decode fills the buffer from its start (R140). -/
theorem ReadsOn.fill {s u : State} {bytes : List Byte} (h : ReadsOn s u)
    (hn : bytes.length ≤ Config.literalBufferSize) : ReadsOn s { u with lit := Memory.ofBytes 0 bytes } :=
  { h with lit := .inr ⟨Memory.wf_ofBytes 0 bytes, fun c hc =>
      (Memory.bounded_ofBytes bytes 0 c hc).2.trans_le ((Nat.zero_add _).trans_le hn)⟩ }

/-! ### The LMD loop -/

theorem readsOn_acceptTriple {s u : State} (tr : Triple) (h : ReadsOn s u) : ReadsOn s (acceptTriple tr u) := by
  have hD : ReadsOn s (updateD tr.newD u) := h.update (by simp) (by simp) (by simp) (by simp)
  rcases acceptTriple_cases tr u with ⟨_, _, he⟩ | ⟨_, he⟩ <;> rw [he] <;> exact hD.update

theorem readsOn_blockDone {s u : State} (h : ReadsOn s u) : ReadsOn s (blockDone u) := by
  rcases blockDone_cases u with ⟨_, he⟩ | ⟨_, he⟩ <;> rw [he] <;> exact h.update

theorem readsOn_fetchLzfse (s : State) : ReadsOn s (fetchLzfse s) := by
  have hs := ReadsOn.refl s
  unfold fetchLzfse
  split
  · exact readsOn_blockDone hs
  split
  · exact hs.update
  · exact readsOn_acceptTriple _ hs.update

theorem readsOn_emitLiteral {s t : State} (h : emitLiteral s = .ok t) : ReadsOn s t := by
  obtain ⟨b, u, hn, rfl⟩ := emitLiteral_cases h
  rcases nextLiteral_cases hn with ⟨_, _, rfl⟩ | ⟨_, _, rfl⟩ | ⟨_, _, rfl⟩ <;> exact (ReadsOn.refl s).update

theorem readsOn_emitMatch {s t : State} (h : emitMatch s = .ok t) : ReadsOn s t := by
  obtain ⟨b, _, rfl⟩ := emitMatch_cases h
  exact (ReadsOn.refl s).update

/-! ### Instructions -/

/-- `initLZFSE` reads its two payloads and fills the literal buffer with at most 40000 bytes (R217, R218). -/
theorem readsOn_initLzfse {s u : State} (kind : BlockKind) (h : ReadsOn s u) :
    AllNext (ReadsOn s) (initLzfse kind u) := by
  intro t ht
  rcases initLzfse_cases ht with ⟨r, n, rfl, hn⟩ |
    ⟨tabs, lp, lmdp, bytes, lanes, brLit, brLmd, hc, _, hs, _, _, hl, _, rfl⟩
  · split at hn
    · next h0 => subst h0; exact h.update
    · exact (h.read hn).update
  · have hcount := (checkLiteralCount_ok hc).1
    have hlen : bytes.length ≤ Config.literalBufferSize := by
      rw [literalDecode_length hl, Config.literalBufferSize]
      omega
    exact ((h.read (by omega)).fill hlen).update (hspos := Nat.add_assoc _ _ _)

theorem readsOn_finishV2 (s : State) : AllNext (ReadsOn s) (finishV2 s) :=
  allNext_raising (fun _ _ => (ReadsOn.refl s).update) fun _ _ => readsOn_initLzfse _ (ReadsOn.refl s).update

theorem readsOn_exec_lzvn {s : State} {i : Instr} (hi : i.level = .lzvn) : AllNext (ReadsOn s) (exec i s) := by
  have hs := ReadsOn.refl s
  rcases exec_lzvn hi s with ⟨n, tr, he⟩ | he | he | he <;> rw [he]
  · rcases lzvnTriple_cases n tr s with ⟨_, he⟩ | ⟨_, he⟩ <;> rw [he] <;> refine allNext_next ?_
    · exact hs.update
    · exact readsOn_acceptTriple _ hs.update
  · exact allNext_next hs.update
  · exact allNext_next (readsOn_blockDone hs)
  · exact allNext_next hs.update

theorem readsOn_exec_vlc {s u : State} {i : Instr} (hi : i.level = .vlc) (h : ReadsOn s u) :
    AllNext (ReadsOn s) (exec i u) := by
  rw [exec_vlc hi]
  rcases takeCode_cases (vlcWidth i) (vlcValue i) u with ⟨_, he⟩ | ⟨_, he⟩ <;> rw [he] <;>
    exact allNext_next h.update

/-- The block instructions but `bvx$` (R271 to R274). -/
theorem readsOn_exec_block {s u : State} {i : Instr} (hi : i.level = .block) (hend : i ≠ .bvxEnd)
    (h : ReadsOn s u) : AllNext (ReadsOn s) (exec i u) := by
  cases i with
  | bvx1 =>
    unfold exec execBvx1
    refine allNext_readingHeader (fun _ => h.update) fun hn => ?_
    exact allNext_raising (fun _ _ => (h.read hn).update) fun _ _ => readsOn_initLzfse _ (h.read hn).update
  | bvx2 =>
    unfold exec execBvx2
    refine allNext_readingHeader (fun _ => h.update) fun hn => ?_
    refine allNext_raising (fun _ _ => (h.read hn).update) fun _ _ => ?_
    refine allNext_reading (fun _ => (h.read hn).update) fun hblob => ?_
    have hread := (h.read hn).update.read hblob
    split
    · exact readsOn_initLzfse _ hread.update
    · exact allNext_next hread.update
  | bvxn =>
    unfold exec execBvxn
    refine allNext_readingHeader (fun _ => h.update) fun hn => ?_
    refine allNext_raising (fun _ _ => (h.read hn).update) fun _ _ => ?_
    refine allNext_reading (fun _ => (h.read hn).update) fun hvp => ?_
    exact allNext_next ((h.read hn).update.read hvp).update
  | bvxRaw =>
    unfold exec execBvxRaw
    refine allNext_readingHeader (fun _ => h.update) fun hn => ?_
    refine allNext_raising (fun _ _ => (h.read hn).update) fun _ _ => ?_
    refine allNext_reading (fun _ => (h.read hn).update) fun hrp => ?_
    exact allNext_next ((h.read hn).update.read hrp).update
  | bvxEnd => exact absurd rfl hend
  | _ => cases hi

end Sys2Proof.Machine

/-! SUPPORT. The step's frame: the source, the configuration, the end-of-stream flag and the byte memories. -/

namespace Sys2Proof.Machine

/-- The four bytes of the end-of-stream magic (R81). -/
theorem bytes_of_decodeBlock_bvxEnd {bs : List Byte} (hlen : bs.length = 4)
    (h : decodeBlock bs = .ok .bvxEnd) : bs = [0x62, 0x76, 0x78, 0x24] := by
  obtain ⟨b0, b1, b2, b3, rfl⟩ := List.length_eq_four.mp hlen
  have hmagic : leNat [b0, b1, b2, b3] = 0x24787662 := by
    simp only [decodeBlock, magicInstr] at h
    split_ifs at h <;> first | assumption | cases h
  simp only [leNat] at hmagic
  have hb0 : b0 = 0x62 := by bv_omega
  have hb1 : b1 = 0x76 := by bv_omega
  have hb2 : b2 = 0x78 := by bv_omega
  have hb3 : b3 = 0x24 := by bv_omega
  rw [hb0, hb1, hb2, hb3]

/-- The state after `bvx$` (R275): past its magic, at end of stream. -/
def afterBvxEnd (s : State) : State :=
  setEos { s with spos := s.spos + 4, hs := sourceBytes 4 s }

/-- A step reads on, or it is `bvx$`. -/
theorem step_source {s t : State} (h : step s = .next t) :
    ReadsOn s t ∨ s.spos + 4 ≤ s.src.length ∧ sourceBytes 4 s = [0x62, 0x76, 0x78, 0x24] ∧ t = afterBvxEnd s := by
  have hs := ReadsOn.refl s
  obtain ⟨_, ⟨_, rfl⟩ | ⟨_, hc⟩⟩ := step_cases h
  · exact .inl hs
  cases hc with
  | code _ _ he => exact .inl (readsOn_exec_vlc (decodeVlc_level _) hs.update _ he)
  | finish _ _ he => exact .inl (readsOn_finishV2 s _ he)
  | overrun _ _ _ he => exact .inl (he ▸ hs.update)
  | opcode _ i hd he => exact .inl (readsOn_exec_lzvn (decodeLzvn_level hd) _ he)
  | shortMagic _ _ _ he => exact .inl (he ▸ hs.update)
  | badMagic _ _ hn _ _ he => exact .inl (he ▸ (hs.read hn).update)
  | magic _ _ hn i hd he =>
    by_cases hend : i = .bvxEnd
    · subst hend
      cases he
      exact .inr ⟨hn, bytes_of_decodeBlock_bvxEnd (srcBytes_length hn) hd, rfl⟩
    · exact .inl (readsOn_exec_block (decodeBlock_level hd) hend (hs.read hn).update _ he)
  | literal _ _ _ he => exact .inl (readsOn_emitLiteral he)
  | matched _ _ _ _ he => exact .inl (readsOn_emitMatch he)
  | lzfse _ _ _ _ he => exact .inl (he ▸ readsOn_fetchLzfse s)
  | rawDone _ _ _ _ he => exact .inl (he ▸ readsOn_blockDone hs)

/-- What every step fixes (R46, R62). -/
theorem step_configuration {s t : State} (h : step s = .next t) :
    t.src = s.src ∧ t.ringSize = s.ringSize ∧ t.tableCapacity = s.tableCapacity := by
  rcases step_ring h with hr | ⟨_, hr⟩ <;> exact ⟨hr.src, hr.ringSize, hr.tableCapacity⟩

/-- A step at end of stream changes nothing (log 16). -/
theorem step_at_eos {s t : State} (h : step s = .next t) (he : s.eos = true) : t = s := by
  obtain ⟨_, ⟨_, rfl⟩ | ⟨hn, _⟩⟩ := step_cases h
  · rfl
  · exact absurd (he.symm.trans hn) nofun

/-- A step leaves the literal buffer, or a block init fills it anew. -/
theorem step_lit {s t : State} (h : step s = .next t) : t.lit = s.lit ∨ LiteralsOk t.lit := by
  rcases step_source h with hr | ⟨_, _, rfl⟩
  · exact hr.lit
  · exact .inl rfl

/-! ### The byte memories and the source -/

/-- `MemoryOk` is about the ring, its cursor and the literal buffer. -/
theorem MemoryOk.transfer {s t : State} (h : MemoryOk s) (hmb : t.mb = s.mb) (hcur : t.mcur = s.mcur)
    (hsize : t.ringSize = s.ringSize) (hlit : t.lit = s.lit ∨ LiteralsOk t.lit) : MemoryOk t := by
  obtain ⟨hwf, hcells, hin, hl⟩ := h
  have hlitOk : LiteralsOk t.lit := hlit.elim (fun he => he ▸ hl) id
  rw [MemoryOk, hmb, hcur, hsize]
  exact ⟨hwf, hcells, hin, hlitOk⟩

/-- Settles O51: a step leaves the ring or makes one ring write, and leaves the literal buffer or fills it from its
start with at most 40000 bytes. -/
theorem memoryFormKept : Obligations.MemoryFormKept := by
  intro s t hm hsize hstep
  have hlit := step_lit hstep
  rcases step_ring hstep with hr | ⟨b, hr⟩
  · exact hm.transfer hr.mb hr.mcur hr.ringSize hlit
  · exact (memoryOk_ringWrite b hsize hm).transfer hr.mb hr.mcur hr.ringSize hlit

/-- Settles O57: every step but `bvx$` reads on with `eos` kept, and `bvx$` reads its magic alone. -/
theorem sourceOnlyAdvances : Obligations.SourceOnlyAdvances := by
  intro s t hstep
  obtain ⟨hsrc, hsize, hcap⟩ := step_configuration hstep
  rcases step_source hstep with hr | ⟨hn, hbytes, rfl⟩
  · exact ⟨hsrc, hr.spos, hsrc ▸ hr.inside, hsize, hcap, step_at_eos hstep,
      fun h0 h1 => absurd (h1.symm.trans (hr.eos.trans h0)) nofun⟩
  · exact ⟨hsrc, Nat.le_add_right _ _, fun _ => hn, hsize, hcap, step_at_eos hstep, fun _ _ => ⟨hbytes, rfl⟩⟩

end Sys2Proof.Machine

/-! SUPPORT. The host calls at end of stream. -/

namespace Sys2Proof.Machine

/-- The model's step at end of stream (log 16). -/
theorem step_eos {s : State} (hf : s.fault = none) (he : s.eos = true) : step s = .next s := by
  simp [step, fetch, hf, he]

/-- `read` at end of stream: its first engine step answers so (R278). -/
theorem read_eos {s : State} (hf : s.fault = none) (he : s.eos = true) (hp : s.phase = .idle) :
    read s = (.endOfStream, s) := by
  have hstep : engineStep s = .next s := engineStep_idle (step_eos hf he) hp
  have hresult : resultOf s s = .eos := by simp [resultOf, hf, he]
  simp only [read, readLoop, hstep, hresult]

/-- The bulk read at end of stream: its first `read` answers so, with no byte stored (R279). -/
theorem bulkReadWith_eos {s : State} {c : Nat} {buf : List Byte} {off len : Int} (hf : s.fault = none)
    (he : s.eos = true) (hp : s.phase = .idle) (hc : 1 ≤ c) (hargs : badReadArgs buf off len = false) :
    bulkReadWith c buf off len s = (if len = 0 then .count 0 else .endOfStream, buf, s) := by
  obtain ⟨k, rfl⟩ := Nat.exists_eq_add_of_le' hc
  simp only [bulkReadWith, hf, hargs, Bool.false_eq_true, if_false]
  split
  · rfl
  · simp only [bulkLoop, read_eos hf he hp, if_true]

/-- `available()` of an engine that is not faulted reads `eos` alone (R280). -/
theorem available_of_unfaulted {s : State} (hf : s.fault = none) :
    available s = .ok (if s.eos then .exhausted else .dataPending) := by
  rw [available, hf]
  rfl

/-- Settles O7: at end of stream an engine step is over where it began, so every call answers at its first step. -/
theorem endOfStreamIsFinal : Obligations.EndOfStreamIsFinal := by
  constructor
  · intro s hf he hp
    have havail : available s = .ok .exhausted := by rw [available_of_unfaulted hf, he, if_pos rfl]
    exact ⟨step_eos hf he, read_eos hf he hp, havail, fun _ _ _ _ => bulkReadWith_eos hf he hp⟩
  · intro s hf he
    rw [available_of_unfaulted hf, he]
    rfl

end Sys2Proof.Machine

/-! SUPPORT. The sink: a step that emits a byte raises no fault. -/

namespace Sys2Proof.Machine

/-- Settles O56: a step leaves the sink, or it is one ring write, which appends one byte and keeps the fault record
of a state that has a next state: none. -/
theorem outputGrowsByOneByte : Obligations.OutputGrowsByOneByte := by
  intro s t hstep
  obtain ⟨hfault, _⟩ := step_cases hstep
  rcases step_ring hstep with hr | ⟨b, hr⟩
  · exact ⟨.inl hr.out, fun _ => hr.out⟩
  · exact ⟨.inr ⟨b, hr.out⟩, fun hraised => absurd (hr.fault.trans hfault) hraised⟩

end Sys2Proof.Machine

/-! SUPPORT. The LZVN opcode map (R102) as the bit patterns of R101, one per class. -/

namespace Sys2Proof

/-- The upper five bits of a distance opcode leave the row to the distance classes (R102). -/
def distanceOpcode (op : Byte) : Bool :=
  distancePrefixOk (op.extractLsb' 6 2) (op.extractLsb' 3 3)

/-- The pattern that R101 gives the opcode byte of a class, its fields inside the ranges that R102 leaves them. -/
def opcodePattern (op : Byte) : LzvnClass → Bool
  | .smlD => distanceOpcode op && (op.extractLsb' 0 3).ult 6
  | .medD => op.extractLsb' 5 3 == 0b101#3
  | .lrgD => distanceOpcode op && op.extractLsb' 0 3 == 0b111#3
  | .preD => distanceOpcode op && op.extractLsb' 6 2 != 0 && op.extractLsb' 0 3 == 0b110#3
  | .smlL => op.extractLsb' 4 4 == 0b1110#4 && op.extractLsb' 0 4 != 0
  | .lrgL => op == 0xE0
  | .smlM => op.extractLsb' 4 4 == 0b1111#4 && op.extractLsb' 0 4 != 0
  | .lrgM => op == 0xF0
  | .nop => op == 0x0E || op == 0x16
  | .eos => op == 0x06
  | .udef => isReservedOpcode op

/-- R102's decision procedure gives each of the 256 opcodes the class whose pattern it has. -/
theorem lzvnClass_eq_iff (op : Byte) (c : LzvnClass) : lzvnClass op = c ↔ opcodePattern op c = true := by
  cases c <;> revert op <;> decide

/-- Testing for opcode 6 before the class is acted on changes nothing (R241, R252). -/
theorem decodeLzvn_cons (op : Byte) (rest : List Byte) :
    decodeLzvn (op :: rest) = lzvnFields (lzvnClass op) op rest := by
  by_cases h : op = 0x06
  · subst h
    rfl
  · exact if_neg h

/-! ### Fields of the opcode bytes

None of these rules is tagged for `simp`: `2 + 3` and `3 + 2` bits are one type, and comparing a word of one layout with
the other's pattern unfolds both. -/

/-- The layout of a distance opcode: LL MMM and three more bits (R101). -/
theorem distance_fields (l : BitVec 2) (m x : BitVec 3) :
    (l ++ m ++ x : Byte).extractLsb' 6 2 = l ∧ (l ++ m ++ x : Byte).extractLsb' 3 3 = m ∧
    (l ++ m ++ x : Byte).extractLsb' 0 3 = x := by
  revert l m x; decide

theorem distance_eta (op : Byte) : op.extractLsb' 6 2 ++ op.extractLsb' 3 3 ++ op.extractLsb' 0 3 = op := by
  revert op; decide

/-- The layout of a `medD` opcode: 101 LL MMM (R101). -/
theorem medium_fields (l : BitVec 2) (m : BitVec 3) :
    (0b101#3 ++ l ++ m : Byte).extractLsb' 5 3 = 0b101#3 ∧ (0b101#3 ++ l ++ m : Byte).extractLsb' 3 2 = l ∧
    (0b101#3 ++ l ++ m : Byte).extractLsb' 0 3 = m := by
  revert l m; decide

theorem medium_eta {op : Byte} (h : op.extractLsb' 5 3 = 0b101#3) :
    0b101#3 ++ op.extractLsb' 3 2 ++ op.extractLsb' 0 3 = op := by
  revert op; decide

/-- The two parts of a word written one above the other. -/
theorem split_fields {m n : Nat} (hi : BitVec m) (lo : BitVec n) :
    (hi ++ lo).extractLsb' n m = hi ∧ (hi ++ lo).extractLsb' 0 n = lo :=
  ⟨BitVec.extractLsb'_append_eq_left, BitVec.extractLsb'_append_eq_right⟩

theorem split_eta {m n : Nat} (d : BitVec (m + n)) : d.extractLsb' n m ++ d.extractLsb' 0 n = d :=
  (BitVec.extractLsb'_append_extractLsb'_eq_extractLsb' (Nat.zero_add n).symm).trans BitVec.extractLsb'_eq_self

theorem short_eta (op : Byte) {tag : BitVec 4} (h : op.extractLsb' 4 4 = tag) : tag ++ op.extractLsb' 0 4 = op :=
  h ▸ split_eta (m := 4) (n := 4) op

/-- The distance range of `smlD` is the range of the three distance bits in its opcode (R102). -/
theorem smallDistance_eq_ult (d : BitVec 11) : decide (d.toNat < 1536) = (d.extractLsb' 8 3).ult 6 := by
  rw [BitVec.ult, BitVec.extractLsb'_toNat, Nat.shiftRight_eq_div_pow, decide_eq_decide]
  change d.toNat < 1536 ↔ d.toNat / 2 ^ 8 % 2 ^ 3 < 6
  omega

/-! ### Instructions and classes -/

/-- The class of an LZVN instruction's opcode (R101); `udef` for the other levels. -/
def Instr.lzvnKind : Instr → LzvnClass
  | .smlD _ _ _ => .smlD
  | .medD _ _ _ => .medD
  | .lrgD _ _ _ => .lrgD
  | .preD _ _ => .preD
  | .smlL _ => .smlL
  | .lrgL _ => .lrgL
  | .smlM _ => .smlM
  | .lrgM _ => .lrgM
  | .nop _ => .nop
  | .eos => .eos
  | _ => .udef

/-- The opcode byte of an LZVN instruction. -/
def Instr.opcode (i : Instr) : Byte :=
  (encode i).headD 0

theorem encode_eq_opcode_cons (i : Instr) : encode i = i.opcode :: (encode i).tail := by
  cases i <;> rfl

/-- A term is well formed exactly if its opcode stays in its own class (R105). -/
theorem wellFormed_iff_class {i : Instr} (hl : i.level = .lzvn) :
    i.wellFormed = true ↔ lzvnClass i.opcode = i.lzvnKind := by
  rw [lzvnClass_eq_iff]
  cases i with
  | smlD l m d =>
    change _ ↔ opcodePattern (l ++ m ++ d.extractLsb' 8 3) .smlD = true
    simp only [opcodePattern, distanceOpcode, distance_fields, Instr.wellFormed, smallDistance_eq_ult]
  | medD l m d =>
    change _ ↔ opcodePattern (0b101#3 ++ l ++ m.extractLsb' 2 3) .medD = true
    simp only [opcodePattern, medium_fields, Instr.wellFormed, beq_self_eq_true]
  | lrgD l m d =>
    change _ ↔ opcodePattern (l ++ m ++ 0b111#3) .lrgD = true
    simp only [opcodePattern, distanceOpcode, distance_fields, Instr.wellFormed, beq_self_eq_true, Bool.and_true]
  | preD l m =>
    change _ ↔ opcodePattern (l ++ m ++ 0b110#3) .preD = true
    simp only [opcodePattern, distanceOpcode, distance_fields, Instr.wellFormed, beq_self_eq_true, Bool.and_true]
  | smlL l =>
    change _ ↔ opcodePattern (0b1110#4 ++ l) .smlL = true
    simp only [opcodePattern, split_fields 0b1110#4 l, Instr.wellFormed, beq_self_eq_true, Bool.true_and]
  | smlM m =>
    change _ ↔ opcodePattern (0b1111#4 ++ m) .smlM = true
    simp only [opcodePattern, split_fields 0b1111#4 m, Instr.wellFormed, beq_self_eq_true, Bool.true_and]
  | lrgL _ | lrgM _ | nop _ | eos | udef _ => rfl
  | _ => cases hl

/-- The operand fields of an encoding are read back (R101). -/
theorem lzvnFields_encode {i : Instr} (rest : List Byte) (hl : i.level = .lzvn) :
    lzvnFields i.lzvnKind i.opcode ((encode i).tail ++ rest) = .ok i := by
  cases i with
  | smlD l m d =>
    change lzvnFields .smlD (l ++ m ++ d.extractLsb' 8 3) (d.extractLsb' 0 8 :: rest) = _
    simp only [lzvnFields, distance_fields, split_eta (m := 3) (n := 8) d]
  | medD l m d =>
    change lzvnFields .medD (0b101#3 ++ l ++ m.extractLsb' 2 3)
      ((d.extractLsb' 0 6 ++ m.extractLsb' 0 2) :: d.extractLsb' 6 8 :: rest) = _
    simp only [lzvnFields, medium_fields, split_fields (d.extractLsb' 0 6) (m.extractLsb' 0 2),
      split_eta (m := 3) (n := 2) m, split_eta (m := 8) (n := 6) d]
  | lrgD l m d =>
    change lzvnFields .lrgD (l ++ m ++ 0b111#3) (d.extractLsb' 0 8 :: d.extractLsb' 8 8 :: rest) = _
    simp only [lzvnFields, distance_fields, split_eta (m := 8) (n := 8) d]
  | preD l m =>
    change lzvnFields .preD (l ++ m ++ 0b110#3) rest = _
    simp only [lzvnFields, distance_fields]
  | smlL l =>
    change lzvnFields .smlL (0b1110#4 ++ l) rest = _
    simp only [lzvnFields, split_fields 0b1110#4 l]
  | smlM m =>
    change lzvnFields .smlM (0b1111#4 ++ m) rest = _
    simp only [lzvnFields, split_fields 0b1111#4 m]
  | lrgL _ | lrgM _ | nop _ | eos | udef _ => rfl
  | _ => cases hl

/-- The bytes of a well-formed LZVN instruction decode to it, whatever follows (R101, R102). -/
theorem decodeLzvn_encode {i : Instr} (rest : List Byte) (hl : i.level = .lzvn) (hw : i.wellFormed = true) :
    decodeLzvn (encode i ++ rest) = .ok i := by
  rw [encode_eq_opcode_cons, List.cons_append, decodeLzvn_cons, (wellFormed_iff_class hl).mp hw,
    lzvnFields_encode rest hl]

/-- Operand fields that are read make an instruction of the class, with the bytes they were read from (R101). -/
theorem lzvnFields_ok {c : LzvnClass} {op : Byte} {rest : List Byte} {i : Instr} (hc : opcodePattern op c = true)
    (h : lzvnFields c op rest = .ok i) : i.lzvnKind = c ∧ encode i = (op :: rest).take (encodedLength i) := by
  cases c with
  | smlD =>
    match rest, h with
    | b1 :: rest, h =>
      have hi := Except.ok.inj h
      subst hi
      refine ⟨rfl, ?_⟩
      simp only [encode, encodedLength, List.take_succ_cons, List.take_zero, split_fields (op.extractLsb' 0 3) b1,
        distance_eta]
  | medD =>
    match rest, h with
    | b1 :: b2 :: rest, h =>
      have hi := Except.ok.inj h
      subst hi
      refine ⟨rfl, ?_⟩
      simp only [encode, encodedLength, List.take_succ_cons, List.take_zero,
        split_fields (op.extractLsb' 0 3) (b1.extractLsb' 0 2), split_fields b2 (b1.extractLsb' 2 6),
        medium_eta (beq_iff_eq.mp hc), split_eta (m := 6) (n := 2) b1]
  | lrgD =>
    match rest, h with
    | b1 :: b2 :: rest, h =>
      have hi := Except.ok.inj h
      subst hi
      refine ⟨rfl, ?_⟩
      simp only [opcodePattern, Bool.and_eq_true, beq_iff_eq] at hc
      simp only [encode, encodedLength, List.take_succ_cons, List.take_zero, split_fields b2 b1, ← hc.2, distance_eta]
  | preD =>
    have hi := Except.ok.inj h
    subst hi
    refine ⟨rfl, ?_⟩
    simp only [opcodePattern, Bool.and_eq_true, beq_iff_eq] at hc
    simp only [encode, encodedLength, List.take_succ_cons, List.take_zero, ← hc.2, distance_eta]
  | smlL | smlM =>
    have hi := Except.ok.inj h
    subst hi
    refine ⟨rfl, ?_⟩
    simp only [opcodePattern, Bool.and_eq_true, beq_iff_eq] at hc
    simp only [encode, encodedLength, List.take_succ_cons, List.take_zero, short_eta op hc.1]
  | lrgL | lrgM =>
    match rest, h with
    | b1 :: rest, h =>
      cases h
      cases beq_iff_eq.mp hc
      exact ⟨rfl, rfl⟩
  | eos =>
    cases h
    cases beq_iff_eq.mp hc
    exact ⟨rfl, rfl⟩
  | nop | udef =>
    cases h
    exact ⟨rfl, rfl⟩

/-- What the LZVN decoder accepts is well formed and has the bytes that were read (R101 to R103). -/
theorem decodeLzvn_ok {bs : List Byte} {i : Instr} (h : decodeLzvn bs = .ok i) :
    i.wellFormed = true ∧ encode i = bs.take (encodedLength i) := by
  have hl := Machine.decodeLzvn_level h
  match bs, h with
  | op :: rest, h =>
    rw [decodeLzvn_cons] at h
    obtain ⟨hkind, hbytes⟩ := lzvnFields_ok ((lzvnClass_eq_iff op _).mp rfl) h
    refine ⟨(wellFormed_iff_class hl).mpr ?_, hbytes⟩
    rw [encode_eq_opcode_cons] at hbytes
    cases hn : encodedLength i with
    | zero =>
      rw [hn] at hbytes
      cases hbytes
    | succ n =>
      rw [hn] at hbytes
      rw [(List.cons.inj hbytes).1, hkind]

end Sys2Proof

/-! SUPPORT. The magics and the frequency codes encoded and decoded (R81, R99), and the three levels together. -/

namespace Sys2Proof.Machine

/-! ### Little-endian values and bit fields -/

/-- A field lies in the bits below its end (R11). -/
theorem bitField_mod (v : Nat) {k lo width : Nat} (h : lo + width ≤ k) :
    bitField (v % 2 ^ k) lo width = bitField v lo width := by
  unfold bitField
  rw [← Nat.add_sub_cancel' (Nat.le_of_add_right_le h), pow_add, Nat.mod_mul_right_div_self]
  exact Nat.mod_mod_of_dvd _ (Nat.pow_dvd_pow 2 (by omega))

theorem leNat_inj {as bs : List Byte} (hlen : as.length = bs.length) (h : leNat as = leNat bs) : as = bs := by
  induction as generalizing bs with
  | nil => exact (List.length_eq_zero_iff.mp hlen.symm).symm
  | cons a as ih =>
    match bs, hlen, h with
    | b :: bs, hlen, h =>
      simp only [leNat] at h
      have ha := a.isLt
      have hb := b.isLt
      rw [BitVec.eq_of_toNat_eq (x := a) (y := b) (by omega), ih (Nat.succ.inj hlen) (by omega)]

theorem leNat_append (as bs : List Byte) : leNat (as ++ bs) = leNat as + 256 ^ as.length * leNat bs := by
  induction as with
  | nil => simp [leNat]
  | cons a as ih =>
    simp only [List.cons_append, leNat, ih, List.length_cons, pow_succ]
    ring

/-! ### Magics -/

/-- R81, R103, R99: how many bytes an instruction takes. -/
theorem encode_length (i : Instr) : (encode i).length = encodedLength i := by
  cases i <;> rfl

theorem decodeBlock_encode {i : Instr} (rest : List Byte) (hl : i.level = .block) :
    decodeBlock (encode i ++ rest) = .ok i := by
  cases i with
  | bvx1 | bvx2 | bvxn | bvxRaw | bvxEnd => rfl
  | _ => cases hl

/-- A magic is the little-endian value of its instruction's four bytes (R81). -/
theorem magicInstr_ok {m : Nat} {i : Instr} (h : magicInstr m = .ok i) :
    i.wellFormed = true ∧ encodedLength i = 4 ∧ m = leNat (encode i) := by
  unfold magicInstr at h
  split_ifs at h
  all_goals
    cases h
    exact ⟨rfl, rfl, by assumption⟩

/-- What the block decoder accepts is well formed and has the four bytes that were read (R81). -/
theorem decodeBlock_ok {bs : List Byte} {i : Instr} (h : decodeBlock bs = .ok i) :
    i.wellFormed = true ∧ encode i = bs.take (encodedLength i) := by
  match bs, h with
  | b0 :: b1 :: b2 :: b3 :: rest, h =>
    obtain ⟨hw, hlen, hm⟩ := magicInstr_ok h
    refine ⟨hw, ?_⟩
    rw [hlen]
    exact leNat_inj ((encode_length i).trans hlen) hm.symm

/-! ### Frequency codes -/

theorem toNat_append_eq {m n : Nat} (hi : BitVec m) (lo : BitVec n) :
    (hi ++ lo).toNat = hi.toNat * 2 ^ n + lo.toNat := by
  rw [BitVec.toNat_append, ← Nat.shiftLeft_add_eq_or_of_lt lo.isLt, Nat.shiftLeft_eq]

/-- A code has the bits of its width (R99). -/
theorem vlcCode_lt {i : Instr} (hl : i.level = .vlc) : vlcCode i < 2 ^ vlcWidth i := by
  cases i with
  | v4to7 x => exact (x ++ 0b011#3).isLt
  | v8to23 x => exact (x ++ 0b0111#4).isLt
  | v24to1047 x => exact (x ++ 0b1111#4).isLt
  | vz0 | vz1 | v2 | v3 => decide
  | _ => cases hl

theorem extractLsb'_window (v : Nat) {lo width : Nat} (h : lo + width ≤ 14) :
    (BitVec.ofNat 14 v).extractLsb' lo width = BitVec.ofNat width (v / 2 ^ lo) := by
  apply BitVec.eq_of_toNat_eq
  rw [BitVec.extractLsb'_toNat, BitVec.toNat_ofNat, BitVec.toNat_ofNat, Nat.shiftRight_eq_div_pow]
  exact bitField_mod v h

/-- The VLC decoder by the value of the accumulator (R99). -/
theorem decodeVlc_ofNat (v : Nat) :
    decodeVlc (BitVec.ofNat 14 v) =
      if v % 4 = 0 then .vz0
      else if v % 4 = 2 then .vz1
      else if v % 8 = 1 then .v2
      else if v % 8 = 5 then .v3
      else if v % 8 = 3 then .v4to7 (BitVec.ofNat 2 (v / 8))
      else if v % 16 = 7 then .v8to23 (BitVec.ofNat 4 (v / 16))
      else .v24to1047 (BitVec.ofNat 10 (v / 16)) := by
  have h3 := extractLsb'_window v (lo := 3) (width := 2) (by norm_num)
  have h4 := extractLsb'_window v (lo := 4) (width := 4) (by norm_num)
  have h4' := extractLsb'_window v (lo := 4) (width := 10) (by norm_num)
  simp [decodeVlc, ← BitVec.toNat_inj, h3, h4, h4']

theorem vlcCode_v4to7 (x : BitVec 2) : vlcCode (.v4to7 x) = x.toNat * 8 + 3 :=
  toNat_append_eq x 0b011#3

theorem vlcCode_v8to23 (x : BitVec 4) : vlcCode (.v8to23 x) = x.toNat * 16 + 7 :=
  toNat_append_eq x 0b0111#4

theorem vlcCode_v24to1047 (x : BitVec 10) : vlcCode (.v24to1047 x) = x.toNat * 16 + 15 :=
  toNat_append_eq x 0b1111#4

/-- An accumulator whose low bits are a form's code decodes to the form, whatever bits stand above (R99, R183). -/
theorem decodeVlc_of_mod {i : Instr} {v : Nat} (hl : i.level = .vlc) (h : v % 2 ^ vlcWidth i = vlcCode i) :
    decodeVlc (BitVec.ofNat 14 v) = i := by
  rw [decodeVlc_ofNat]
  cases i with
  | vz0 =>
    rw [vlcWidth, vlcCode] at h
    exact if_pos h
  | vz1 =>
    rw [vlcWidth, vlcCode] at h
    rw [if_neg (by omega), if_pos (by omega)]
  | v2 =>
    rw [vlcWidth, vlcCode] at h
    rw [if_neg (by omega), if_neg (by omega), if_pos (by omega)]
  | v3 =>
    rw [vlcWidth, vlcCode] at h
    rw [if_neg (by omega), if_neg (by omega), if_neg (by omega), if_pos (by omega)]
  | v4to7 x =>
    rw [vlcCode_v4to7, vlcWidth] at h
    have hx : BitVec.ofNat 2 (v / 8) = x := BitVec.eq_of_toNat_eq (by rw [BitVec.toNat_ofNat]; omega)
    rw [if_neg (by omega), if_neg (by omega), if_neg (by omega), if_neg (by omega), if_pos (by omega), hx]
  | v8to23 x =>
    rw [vlcCode_v8to23, vlcWidth] at h
    have hx : BitVec.ofNat 4 (v / 16) = x := BitVec.eq_of_toNat_eq (by rw [BitVec.toNat_ofNat]; omega)
    rw [if_neg (by omega), if_neg (by omega), if_neg (by omega), if_neg (by omega), if_neg (by omega),
      if_pos (by omega), hx]
  | v24to1047 x =>
    rw [vlcCode_v24to1047, vlcWidth] at h
    have hx : BitVec.ofNat 10 (v / 16) = x := BitVec.eq_of_toNat_eq (by rw [BitVec.toNat_ofNat]; omega)
    rw [if_neg (by omega), if_neg (by omega), if_neg (by omega), if_neg (by omega), if_neg (by omega),
      if_neg (by omega), hx]
  | _ => cases hl

/-- The bytes of a frequency code are its bits, padded with zeros (R99). -/
theorem encode_vlc {i : Instr} (hl : i.level = .vlc) : encode i = leBytes (encodedLength i) (vlcCode i) := by
  cases i with
  | vz0 | vz1 | v2 | v3 | v4to7 _ | v8to23 _ | v24to1047 _ => rfl
  | _ => cases hl

theorem vlcWidth_le (i : Instr) : vlcWidth i ≤ 8 * encodedLength i := by
  cases i <;> simp [vlcWidth, encodedLength]

theorem encodedLength_vlc_le {i : Instr} (hl : i.level = .vlc) : encodedLength i ≤ 2 := by
  cases i with
  | vz0 | vz1 | v2 | v3 | v4to7 _ | v8to23 _ | v24to1047 _ => simp [encodedLength]
  | _ => cases hl

/-- The bytes that follow a code leave its bits alone (R99). -/
theorem leNat_encode_append_mod {i : Instr} (hl : i.level = .vlc) (rest : List Byte) :
    leNat (encode i ++ rest) % 2 ^ vlcWidth i = vlcCode i := by
  have hlt := vlcCode_lt hl
  have h256 : 256 ^ encodedLength i = 2 ^ vlcWidth i * 2 ^ (8 * encodedLength i - vlcWidth i) := by
    rw [← pow_add, Nat.add_sub_cancel' (vlcWidth_le i), pow_mul]
    norm_num
  rw [leNat_append, encode_length, encode_vlc hl, leNat_leBytes, h256, mul_assoc, Nat.add_mul_mod_self_left,
    Nat.mod_eq_of_lt hlt]
  exact hlt.trans_le (h256 ▸ Nat.le_mul_of_pos_right _ (Nat.two_pow_pos _))

/-- The bytes of a frequency code decode to it, whatever follows (R99). -/
theorem decode_vlc_encode {i : Instr} (rest : List Byte) (hl : i.level = .vlc) :
    decode .vlc (encode i ++ rest) = .ok i := by
  have hlen : (encode i).length ≤ 2 := (encode_length i).trans_le (encodedLength_vlc_le hl)
  rw [decode, List.take_append, List.take_of_length_le hlen, decodeVlc_of_mod hl (leNat_encode_append_mod hl _)]

/-! ### The three levels -/

/-- Settles O1, level by level: an LZVN opcode stays in its class, and a code decides on its own bits alone. -/
theorem decodeEncodeAgree : Obligations.DecodeEncodeAgree := by
  intro i rest hw
  cases hl : i.level with
  | block => exact decodeBlock_encode rest hl
  | lzvn => exact decodeLzvn_encode rest hl hw
  | vlc => exact decode_vlc_encode rest hl

/-- Settles O2: a magic is the value of its bytes, and an LZVN opcode is its class's bits and fields put together. -/
theorem encodeDecodeAgree : Obligations.EncodeDecodeAgree := by
  intro lvl bs i hlvl h
  cases lvl with
  | block => exact ⟨decodeBlock_level h, decodeBlock_ok h⟩
  | lzvn => exact ⟨decodeLzvn_level h, decodeLzvn_ok h⟩
  | vlc => exact absurd rfl hlvl

/-- Settles O3: the decoders run on the eleven words. -/
theorem specWordsDecode : Obligations.SpecWordsDecode := by
  unfold Obligations.SpecWordsDecode
  decide

/-- Settles O4: the map evaluated row by row, the counts taken over R102's table, and the pattern of `eos`. -/
theorem lzvnClassMap : Obligations.LzvnClassMap := by
  have hmap : allOpcodes.map lzvnClass = specClassMap := by decide +kernel
  have hcount (c : LzvnClass) : classCount c = specClassMap.count c := by
    rw [← hmap, List.count, List.countP_map]
    rfl
  simp only [Obligations.LzvnClassMap, hcount]
  refine ⟨hmap, ?_⟩
  simp only [lzvnClass_eq_iff, opcodePattern, beq_iff_eq, implies_true, and_true]
  decide +kernel

end Sys2Proof.Machine

/-! SUPPORT. The first 28 bytes of a V2 header: their layout written and read back, the checks, and the bits that are
ignored (R85 to R90, R180). -/

namespace Sys2Proof.Machine

/-- Numbers that agree on their low bits agree on every field in them. -/
theorem bitField_congr {a b k lo width : Nat} (h : a % 2 ^ k = b % 2 ^ k) (hk : lo + width ≤ k) :
    bitField a lo width = bitField b lo width := by
  rw [← bitField_mod a hk, h, bitField_mod b hk]

/-- Settles O48: every field of the three words lies below the bits that no field covers. -/
theorem v2UnusedBitsIgnored : Obligations.V2UnusedBitsIgnored := by
  intro capacity a b hn h0 h1 h2
  have hint : int32At a 0 = int32At b 0 := congrArg (sext 32) hn
  have f0 {lo width} (h : lo + width ≤ 63) := bitField_congr (lo := lo) (width := width) h0 h
  have f1 {lo width} (h : lo + width ≤ 63) := bitField_congr (lo := lo) (width := width) h1 h
  have f2 {lo width} (h : lo + width ≤ 62) := bitField_congr (lo := lo) (width := width) h2 h
  have hlen : v2TableLen a = v2TableLen b := by simp only [v2TableLen, f2 (by norm_num : 0 + 32 ≤ 62)]
  have hread : readV2 a = readV2 b := by
    simp (disch := norm_num) only [readV2, hint, f0, f1, f2]
  simp only [parseV2Prefix, hint, hlen, hread]

/-- R180's checks on the `headerSize` field. -/
theorem parseV2Prefix_eq (capacity : Nat) (hs : List Byte) :
    parseV2Prefix capacity hs =
      if int32At hs 0 < 0 then .error .f02
      else if bitField (memRead hs 20 8) 0 32 < 32 then .error .f02
      else if capacity + 32 < bitField (memRead hs 20 8) 0 32 then .error .f03
      else .ok (readV2 hs, bitField (memRead hs 20 8) 0 32 - 32) := by
  have hsmall : v2TableLen hs < 0 ↔ bitField (memRead hs 20 8) 0 32 < 32 := by unfold v2TableLen; omega
  have hlarge : capacity < v2TableLen hs ↔ capacity + 32 < bitField (memRead hs 20 8) 0 32 := by
    unfold v2TableLen; omega
  have hlen : (v2TableLen hs).toNat = bitField (memRead hs 20 8) 0 32 - 32 := by unfold v2TableLen; omega
  simp only [parseV2Prefix, hsmall, hlarge, hlen]

/-! ### The layout written and read back -/

theorem v2PrefixBytes_length (h : Header) (n : Nat) : (v2PrefixBytes h n).length = 28 := by
  simp only [v2PrefixBytes, List.length_append, intBytes_length, leBytes_length]

/-- The fields of a V2 header fit the bits of R85's layout, and the rest of the record is what `parseV2` makes of
them (R85 to R88). -/
structure V2Fits (h : Header) (headerSize : Nat) : Prop where
  nRawBytes : h.nRawBytes < 2 ^ 31
  nLiterals : h.nLiterals < 2 ^ 20
  nLiteralPayloadBytes : h.nLiteralPayloadBytes < 2 ^ 20
  nMatches : h.nMatches < 2 ^ 20
  nLmdPayloadBytes : h.nLmdPayloadBytes < 2 ^ 20
  literalBits : -7 ≤ h.literalBits ∧ h.literalBits ≤ 0
  lmdBits : -7 ≤ h.lmdBits ∧ h.lmdBits ≤ 0
  literalState : h.literalState.s0 < 2 ^ 10 ∧ h.literalState.s1 < 2 ^ 10 ∧ h.literalState.s2 < 2 ^ 10 ∧
    h.literalState.s3 < 2 ^ 10
  lmdState : h.lState < 2 ^ 10 ∧ h.mState < 2 ^ 10 ∧ h.dState < 2 ^ 10
  nPayloadBytes : h.nPayloadBytes = h.nLiteralPayloadBytes + h.nLmdPayloadBytes
  weights : h.weights = List.replicate Config.nWeights 0
  headerSize : headerSize < 2 ^ 32

section
variable {h : Header} {headerSize : Nat} (hf : V2Fits h headerSize)
include hf

/-- The fields of `word0` read back (R86). -/
theorem v2Word0_fields :
    v2Word0 h < 2 ^ 64 ∧ bitField (v2Word0 h) 0 20 = h.nLiterals ∧
    bitField (v2Word0 h) 20 20 = h.nLiteralPayloadBytes ∧ bitField (v2Word0 h) 40 20 = h.nMatches ∧
    (bitField (v2Word0 h) 60 3 : Int) - 7 = h.literalBits := by
  have hlit := hf.nLiterals
  have hpay := hf.nLiteralPayloadBytes
  have hmat := hf.nMatches
  obtain ⟨hbits0, hbits1⟩ := hf.literalBits
  unfold v2Word0 bitField
  omega

/-- The fields of `word1` read back (R87). -/
theorem v2Word1_fields :
    v2Word1 h < 2 ^ 64 ∧ bitField (v2Word1 h) 0 10 = h.literalState.s0 ∧
    bitField (v2Word1 h) 10 10 = h.literalState.s1 ∧ bitField (v2Word1 h) 20 10 = h.literalState.s2 ∧
    bitField (v2Word1 h) 30 10 = h.literalState.s3 ∧ bitField (v2Word1 h) 40 20 = h.nLmdPayloadBytes ∧
    (bitField (v2Word1 h) 60 3 : Int) - 7 = h.lmdBits := by
  obtain ⟨hs0, hs1, hs2, hs3⟩ := hf.literalState
  have hpay := hf.nLmdPayloadBytes
  obtain ⟨hbits0, hbits1⟩ := hf.lmdBits
  unfold v2Word1 bitField
  refine ⟨?_, ?_, ?_, ?_, ?_, ?_, ?_⟩ <;> omega

/-- The fields of `word2` read back (R88). -/
theorem v2Word2_fields :
    v2Word2 h headerSize < 2 ^ 64 ∧ bitField (v2Word2 h headerSize) 0 32 = headerSize ∧
    bitField (v2Word2 h headerSize) 32 10 = h.lState ∧ bitField (v2Word2 h headerSize) 42 10 = h.mState ∧
    bitField (v2Word2 h headerSize) 52 10 = h.dState := by
  obtain ⟨hl, hm, hd⟩ := hf.lmdState
  have hsize := hf.headerSize
  unfold v2Word2 bitField
  omega

/-- Where the layout puts its four parts (R85). -/
theorem v2PrefixBytes_parts :
    int32At (v2PrefixBytes h headerSize) 0 = h.nRawBytes ∧
    memRead (v2PrefixBytes h headerSize) 4 8 = v2Word0 h ∧
    memRead (v2PrefixBytes h headerSize) 12 8 = v2Word1 h ∧
    memRead (v2PrefixBytes h headerSize) 20 8 = v2Word2 h headerSize := by
  have hraw := hf.nRawBytes
  have hlen := intBytes_length 4 h.nRawBytes
  refine ⟨?_, ?_, ?_, ?_⟩
  · have := int32_at [] (leBytes 8 (v2Word0 h) ++ leBytes 8 (v2Word1 h) ++ leBytes 8 (v2Word2 h headerSize))
      h.nRawBytes 0 rfl ⟨by omega, by omega⟩
    simpa only [v2PrefixBytes, List.append_assoc, List.nil_append] using this
  · have := memRead_at (intBytes 4 h.nRawBytes) _ 8 (v2Word0 h)
      (leBytes 8 (v2Word1 h) ++ leBytes 8 (v2Word2 h headerSize)) rfl (v2Word0_fields hf).1 4 hlen
    simpa only [v2PrefixBytes, List.append_assoc] using this
  · exact memRead_at (intBytes 4 h.nRawBytes ++ leBytes 8 (v2Word0 h)) _ 8 (v2Word1 h)
      (leBytes 8 (v2Word2 h headerSize)) rfl (v2Word1_fields hf).1 12
      (by simp only [List.length_append, hlen, leBytes_length])
  · have := memRead_at (intBytes 4 h.nRawBytes ++ leBytes 8 (v2Word0 h) ++ leBytes 8 (v2Word1 h)) _ 8
      (v2Word2 h headerSize) [] rfl (v2Word2_fields hf).1 20
      (by simp only [List.length_append, hlen, leBytes_length])
    simpa only [v2PrefixBytes, List.append_nil] using this

/-- The layout reads back to the record (R85 to R88). -/
theorem readV2_v2PrefixBytes : readV2 (v2PrefixBytes h headerSize) = h := by
  obtain ⟨hraw, hw0, hw1, hw2⟩ := v2PrefixBytes_parts hf
  obtain ⟨_, hlit, hlitPay, hmat, hlitBits⟩ := v2Word0_fields hf
  obtain ⟨_, hs0, hs1, hs2, hs3, hlmdPay, hlmdBits⟩ := v2Word1_fields hf
  obtain ⟨_, _, hl, hm, hd⟩ := v2Word2_fields hf
  simp only [readV2, hraw, hw0, hw1, hw2, hlit, hlitPay, hmat, hlitBits, hs0, hs1, hs2, hs3, hlmdPay, hlmdBits, hl,
    hm, hd, Int.toNat_natCast, ← hf.nPayloadBytes, ← hf.weights]

/-- A header whose blob fits the capacity passes the checks (R180). -/
theorem parseV2Prefix_v2PrefixBytes {capacity : Nat} (hmin : 32 ≤ headerSize) (hcap : headerSize ≤ capacity + 32) :
    parseV2Prefix capacity (v2PrefixBytes h headerSize) = .ok (h, headerSize - 32) := by
  obtain ⟨hraw, _, _, hw2⟩ := v2PrefixBytes_parts hf
  obtain ⟨_, hsize, _⟩ := v2Word2_fields hf
  rw [parseV2Prefix_eq, hraw, hw2, hsize, readV2_v2PrefixBytes hf, if_neg (by omega), if_neg (by omega),
    if_neg (by omega)]

end

/-- Settles O47: the checks on `headerSize` as one chain, and the layout's fields read back one by one. -/
theorem v2HeaderRoundTrip : Obligations.V2HeaderRoundTrip := by
  constructor
  · intro capacity hs nRaw headerSize
    rw [parseV2Prefix_eq]
    change (nRaw < 0 → (if nRaw < 0 then _ else _) = _) ∧ _
    refine ⟨fun h0 => if_pos h0, fun h0 h1 => ?_, fun h0 h1 h2 => ?_, fun h0 h1 h2 => ⟨readV2 hs, ?_⟩⟩
    · exact (if_neg (not_lt.mpr h0)).trans (if_pos h1)
    · exact (if_neg (not_lt.mpr h0)).trans ((if_neg (not_lt.mpr h1)).trans (if_pos h2))
    · exact (if_neg (not_lt.mpr h0)).trans ((if_neg (not_lt.mpr h1)).trans (if_neg (not_lt.mpr h2)))
  · intro h headerSize capacity hraw hlit hlitPay hmat hlmdPay hlb0 hlb1 hmb0 hmb1 hs0 hs1 hs2 hs3 hl hm hd hpay hw
      hmin hsize hcap
    have hf : V2Fits h headerSize :=
      ⟨hraw, hlit, hlitPay, hmat, hlmdPay, ⟨hlb0, hlb1⟩, ⟨hmb0, hmb1⟩, ⟨hs0, hs1, hs2, hs3⟩, ⟨hl, hm, hd⟩, hpay, hw,
        hsize⟩
    exact ⟨v2PrefixBytes_length h headerSize, parseV2Prefix_v2PrefixBytes hf hmin hcap⟩

end Sys2Proof.Machine

/-! SUPPORT. A frequency table packed into a blob and decoded: what the decoder has still to give, code by code
(R98, R182). -/

namespace Sys2Proof.Machine

/-- The bits a decoder has still to give, as one number: the accumulator below the blob bytes not yet read (R98). -/
def Vlc.pending (blob : List Byte) (v : Vlc) : Nat :=
  v.acc + 2 ^ v.nb * leNat (blob.drop v.p)

/-- How many bits that number has. -/
def Vlc.bitsLeft (blob : List Byte) (v : Vlc) : Nat :=
  v.nb + 8 * (blob.length - v.p)

/-- The accumulator is the low end of what the decoder has still to give. -/
theorem Vlc.acc_eq_mod {blob : List Byte} {v : Vlc} (h : v.acc < 2 ^ v.nb) : v.acc = v.pending blob % 2 ^ v.nb := by
  rw [Vlc.pending, Nat.add_mul_mod_self_left, Nat.mod_eq_of_lt h]

/-- The refill moves bits from the blob to the accumulator and changes nothing else (R182). -/
theorem Vlc.refill_pending (blob : List Byte) (n : Nat) (v : Vlc) (h : v.acc < 2 ^ v.nb) :
    (Vlc.refill blob n v).pending blob = v.pending blob ∧ (Vlc.refill blob n v).bitsLeft blob = v.bitsLeft blob := by
  induction n generalizing v with
  | zero => exact ⟨rfl, rfl⟩
  | succ n ih =>
    unfold Vlc.refill
    split
    · split
      · rename_i b hb
        obtain ⟨hp, hget⟩ := List.getElem?_eq_some_iff.mp hb
        have hload : v.acc ||| b.toNat <<< v.nb = v.acc + 2 ^ v.nb * b.toNat := by
          rw [Nat.lor_comm, ← Nat.shiftLeft_add_eq_or_of_lt h, Nat.shiftLeft_eq, Nat.add_comm, Nat.mul_comm]
        have hlt : v.acc + 2 ^ v.nb * b.toNat < 2 ^ (v.nb + 8) := by
          have := b.isLt
          rw [pow_add]
          nlinarith
        obtain ⟨hpending, hleft⟩ := ih { v with acc := v.acc ||| b.toNat <<< v.nb, nb := v.nb + 8, p := v.p + 1 }
          (hload ▸ hlt)
        refine ⟨hpending.trans ?_, hleft.trans ?_⟩
        · simp only [Vlc.pending, hload, List.drop_eq_getElem_cons hp, hget, leNat, pow_add]
          ring
        · simp only [Vlc.bitsLeft]
          omega
      · exact ⟨rfl, rfl⟩
    · exact ⟨rfl, rfl⟩

/-- The registers of a decoder that still has to give the codes `is` and at most seven bits of padding (R98, R185). -/
structure Vlc.Ahead (blob : List Byte) (is : List Instr) (v : Vlc) : Prop where
  held : v.Held blob
  pending : v.pending blob = (packCodes is).1
  bits : (packCodes is).2 ≤ v.bitsLeft blob ∧ v.bitsLeft blob < (packCodes is).2 + 8

theorem Vlc.Ahead.refill {blob : List Byte} {is : List Instr} {v : Vlc} (h : v.Ahead blob is) :
    (Vlc.refill blob 4 v).Ahead blob is := by
  obtain ⟨hpending, hleft⟩ := Vlc.refill_pending blob 4 v h.held.acc
  exact ⟨(Vlc.refill_ok blob 4 v h.held (by omega)).1, hpending.trans h.pending, hleft.symm ▸ h.bits⟩

/-- A refilled decoder holds the next code whole, and its window decodes to it. -/
theorem Vlc.Ahead.window {blob : List Byte} {i : Instr} {is : List Instr} {v : Vlc} (h : v.Ahead blob (i :: is))
    (hl : i.level = .vlc) (hfull : v.p < blob.length → 25 ≤ v.nb) :
    vlcWidth i ≤ v.nb ∧ decodeVlc (vlcWindow v) = i := by
  have hw := (vlc_bounds i).1
  have hbits := h.bits.1
  have hnb : vlcWidth i ≤ v.nb := by
    simp only [packCodes, Vlc.bitsLeft] at hbits
    omega
  refine ⟨hnb, decodeVlc_of_mod hl ?_⟩
  rw [Vlc.acc_eq_mod (blob := blob) h.held.acc, Nat.mod_mod_of_dvd _ (Nat.pow_dvd_pow 2 hnb), h.pending, packCodes,
    Nat.add_mul_mod_self_right, Nat.mod_eq_of_lt (vlcCode_lt hl)]

/-- A code taken leaves the codes after it. -/
theorem Vlc.Ahead.take {blob : List Byte} {i : Instr} {is : List Instr} {v : Vlc} (h : v.Ahead blob (i :: is))
    (hl : i.level = .vlc) (hnb : vlcWidth i ≤ v.nb) :
    ∃ v', v.take (vlcWidth i) (vlcValue i) = .ok v' ∧ v'.Ahead blob is ∧ v'.weights = v.weights ++ [vlcValue i] := by
  refine ⟨_, if_neg (not_lt.mpr hnb), ?_, rfl⟩
  have hsplit : 2 ^ v.nb = 2 ^ vlcWidth i * 2 ^ (v.nb - vlcWidth i) := by
    rw [← pow_add, Nat.add_sub_cancel' hnb]
  have hheld := h.held
  have hbits := h.bits
  have hpending := h.pending
  refine ⟨⟨?_, ?_, hheld.p⟩, ?_, ?_⟩
  · exact (Nat.sub_le _ _).trans hheld.nb
  · simp only
    rw [Nat.shiftRight_eq_div_pow]
    exact Nat.div_lt_of_lt_mul (hsplit ▸ hheld.acc)
  · calc v.acc >>> vlcWidth i + 2 ^ (v.nb - vlcWidth i) * leNat (blob.drop v.p)
        = v.pending blob / 2 ^ vlcWidth i := by
          rw [Vlc.pending, hsplit, mul_assoc, Nat.add_mul_div_left _ _ (Nat.two_pow_pos _), Nat.shiftRight_eq_div_pow]
      _ = (packCodes is).1 := by
          rw [hpending, packCodes, Nat.add_mul_div_right _ _ (Nat.two_pow_pos _),
            Nat.div_eq_of_lt (vlcCode_lt hl), Nat.zero_add]
  · simp only [packCodes, Vlc.bitsLeft] at hbits ⊢
    omega

/-- The loop reads the packed codes one after the other (R182). -/
theorem vlcLoop_packed {blob : List Byte} (is : List Instr) {v : Vlc} (hl : ∀ i ∈ is, i.level = .vlc)
    (h : v.Ahead blob is) :
    ∃ v', vlcLoop blob is.length v = .ok v' ∧ v'.Ahead blob [] ∧ v'.weights = v.weights ++ is.map vlcValue := by
  induction is generalizing v with
  | nil => exact ⟨v, rfl, h, (List.append_nil _).symm⟩
  | cons i is ih =>
    have hi := hl i List.mem_cons_self
    obtain ⟨_, hweights, hfull⟩ := Vlc.refill_ok blob 4 v h.held (by omega)
    obtain ⟨hnb, hdecode⟩ := h.refill.window hi hfull
    obtain ⟨u, htake, hu, huw⟩ := h.refill.take hi hnb
    obtain ⟨v', hloop, hv', hvw⟩ := ih (fun j hj => hl j (List.mem_cons_of_mem i hj)) hu
    refine ⟨v', ?_, hv', ?_⟩
    · simp only [List.length_cons, vlcLoop, hdecode, htake, hloop]
    · rw [hvw, huw, hweights, List.append_assoc, List.map_cons, List.singleton_append]

/-- With no code left the end checks pass (R185). -/
theorem Vlc.Ahead.finish {blob : List Byte} {v : Vlc} (h : v.Ahead blob []) :
    v.finish blob.length = .ok v.weights := by
  have hpending := h.pending
  have hbits := h.bits.2
  have hp := h.held.p
  simp only [packCodes, Vlc.pending, Vlc.bitsLeft] at hpending hbits
  unfold Vlc.finish
  rw [if_neg (by omega), if_neg (by omega)]

/-- Packed codes fit their bits (R98). -/
theorem packCodes_lt {is : List Instr} (hl : ∀ i ∈ is, i.level = .vlc) : (packCodes is).1 < 2 ^ (packCodes is).2 := by
  induction is with
  | nil => decide
  | cons i is ih =>
    have hi := vlcCode_lt (hl i List.mem_cons_self)
    have his := ih fun j hj => hl j (List.mem_cons_of_mem i hj)
    simp only [packCodes, pow_add]
    nlinarith

/-- A decoder at the start of a blob has all its codes to give (R182). -/
theorem ahead_start {is : List Instr} (hl : ∀ i ∈ is, i.level = .vlc) :
    Vlc.Ahead (vlcBlobBytes is) is ⟨0, 0, 0, []⟩ := by
  have hlen : (vlcBlobBytes is).length = ((packCodes is).2 + 7) / 8 := leBytes_length _ _
  have hlt : (packCodes is).1 < 256 ^ (((packCodes is).2 + 7) / 8) := by
    refine (packCodes_lt hl).trans_le ?_
    rw [show 256 = 2 ^ 8 from rfl, ← pow_mul]
    exact Nat.pow_le_pow_right (by norm_num) (by omega)
  refine ⟨⟨by norm_num, by norm_num, Nat.zero_le _⟩, ?_, ?_⟩
  · simp only [Vlc.pending, List.drop_zero, pow_zero, one_mul, zero_add]
    exact leNat_leBytes _ _ hlt
  · simp only [Vlc.bitsLeft, hlen]
    omega

/-- The blob of a table's 360 codes decodes to their weights (R98, R182, R185). -/
theorem vlcDecode_vlcBlobBytes {is : List Instr} (hl : ∀ i ∈ is, i.level = .vlc) (hn : is.length = Config.nWeights) :
    vlcDecode (vlcBlobBytes is) = .ok (is.map vlcValue) := by
  obtain ⟨v, hloop, hv, hw⟩ := vlcLoop_packed is hl (ahead_start hl)
  rw [vlcDecode, ← hn, hloop]
  exact hv.finish.trans (congrArg _ hw)

/-- Every weight up to 1047 has a code form of that value (R99). -/
theorem weightForm_ok {w : Nat} (hw : w ≤ 1047) :
    ∃ i, weightForm w = some i ∧ i.level = .vlc ∧ vlcValue i = w := by
  unfold weightForm
  split_ifs with h0 h1 h2 h3 h8 h24 h1048
  · exact ⟨_, rfl, rfl, h0.symm⟩
  · exact ⟨_, rfl, rfl, h1.symm⟩
  · exact ⟨_, rfl, rfl, h2.symm⟩
  · exact ⟨_, rfl, rfl, h3.symm⟩
  · refine ⟨_, rfl, rfl, ?_⟩
    rw [vlcValue, weightV4to7, BitVec.toNat_ofNat]
    omega
  · refine ⟨_, rfl, rfl, ?_⟩
    rw [vlcValue, weightV8to23, BitVec.toNat_ofNat]
    omega
  · refine ⟨_, rfl, rfl, ?_⟩
    rw [vlcValue, weightV24to1047, BitVec.toNat_ofNat]
    omega
  · omega

/-- Every table of weights up to 1047 has code forms of those values (R99). -/
theorem mapM_weightForm_ok {ws : List Nat} (h : ∀ w ∈ ws, w ≤ 1047) :
    ∃ forms, ws.mapM weightForm = some forms ∧ (∀ i ∈ forms, i.level = .vlc) ∧ forms.map vlcValue = ws := by
  induction ws with
  | nil => exact ⟨[], rfl, nofun, rfl⟩
  | cons w ws ih =>
    obtain ⟨i, hform, hi, hvalue⟩ := weightForm_ok (h w List.mem_cons_self)
    obtain ⟨is, hforms, his, hvalues⟩ := ih fun u hu => h u (List.mem_cons_of_mem w hu)
    refine ⟨i :: is, ?_, List.forall_mem_cons.mpr ⟨hi, his⟩, ?_⟩
    · rw [List.mapM_cons, hform, hforms]
      rfl
    · rw [List.map_cons, hvalue, hvalues]

/-- Settles O17, by induction on the codes: what a decoder has still to give is the packed codes not yet read. -/
theorem frequencyTableRoundTrip : Obligations.FrequencyTableRoundTrip := by
  intro ws hlen hws
  obtain ⟨forms, hforms, hl, hvalues⟩ := mapM_weightForm_ok hws
  have hn : forms.length = Config.nWeights := by rw [← List.length_map vlcValue, hvalues, hlen]; rfl
  exact ⟨forms, hforms, hvalues ▸ vlcDecode_vlcBlobBytes hl hn⟩

end Sys2Proof.Machine

/-! SUPPORT. The bit reader's operations case by case (R121 to R128), and the backward bitstream it reads (R95, R129). -/

namespace Sys2Proof.Machine

/-! ### Bytes of a buffer -/

/-- A read that runs to the buffer's end (R13). -/
theorem memRead_suffix {buf : List Byte} {n : Nat} (h : n ≤ buf.length) :
    memRead buf (buf.length - n) n = leNat (buf.drop (buf.length - n)) := by
  rw [memRead, List.take_of_length_le (by rw [List.length_drop]; omega)]

/-- A read of one byte more has it as its highest (R13). -/
theorem memRead_succ {buf : List Byte} {a n : Nat} (h : a + n < buf.length) :
    memRead buf a (n + 1) = memRead buf a n + 256 ^ n * (buf.getD (a + n) 0).toNat := by
  have hlen : ((buf.drop a).take n).length = n := by simp; omega
  have hbyte : (buf.drop a)[n]? = some (buf.getD (a + n) 0) := by simp [h]
  rw [memRead, memRead, List.take_add_one, hbyte, leNat_append, hlen]
  simp [leNat]

/-! ### `init` -/

theorem BitReader.init_outside {buf : List Byte} {n : Int} (h : n < -7 ∨ 0 < n) :
    BitReader.init buf n = .error .f10 :=
  if_pos h

theorem BitReader.init_zero (buf : List Byte) : BitReader.init buf 0 = BitReader.init0 buf := rfl

theorem BitReader.init_neg {buf : List Byte} {n : Int} (h7 : -7 ≤ n) (h0 : n < 0) :
    BitReader.init buf n = BitReader.initNeg buf (-n).toNat := by
  rw [BitReader.init, if_neg (by omega), if_neg (by omega)]

theorem BitReader.init0_short {buf : List Byte} (h : buf.length < 7) : BitReader.init0 buf = .error .f13 :=
  if_pos h

/-- `init` at offset 0 with the bytes there (R121). -/
theorem BitReader.init0_ok {buf : List Byte} (h : 7 ≤ buf.length) :
    ∃ br, BitReader.init0 buf = .ok br ∧ br.pos = buf.length - 7 ∧ br.cnt = 56 ∧
      br.acc.toNat = leNat (buf.drop (buf.length - 7)) := by
  refine ⟨_, if_neg (by omega), rfl, rfl, ?_⟩
  have hlt := memRead_lt buf (buf.length - 7) 7
  rw [← memRead_suffix h, BitVec.toNat_ofNat, Nat.mod_eq_of_lt (hlt.trans (by norm_num))]

theorem BitReader.initNeg_short {buf : List Byte} {k : Nat} (h : buf.length < 8) :
    BitReader.initNeg buf k = .error .f13 :=
  if_pos h

/-- The padding check of R125 on the eight bytes loaded. -/
theorem padding_eq_zero_iff {buf : List Byte} {k : Nat} (h : 8 ≤ buf.length) :
    BitVec.ofNat 64 (memRead buf (buf.length - 8) 8) >>> (64 - k) = 0#64 ↔
      leNat (buf.drop (buf.length - 8)) < 2 ^ (64 - k) := by
  have hlt := memRead_lt buf (buf.length - 8) 8
  rw [← BitVec.toNat_inj, BitVec.toNat_ushiftRight, BitVec.toNat_ofNat,
    Nat.mod_eq_of_lt (hlt.trans_eq (by norm_num)), memRead_suffix h, Nat.shiftRight_eq_div_pow]
  exact Nat.div_eq_zero_iff_lt (Nat.two_pow_pos _)

theorem BitReader.initNeg_padding {buf : List Byte} {k : Nat} (h : 8 ≤ buf.length)
    (hpad : 2 ^ (64 - k) ≤ leNat (buf.drop (buf.length - 8))) : BitReader.initNeg buf k = .error .f14 := by
  rw [BitReader.initNeg, if_neg (by omega)]
  exact if_pos fun hz => ((padding_eq_zero_iff h).mp hz).not_ge hpad

/-- `init` at offset `-k` with the bytes there and no padding bit set (R122, R125). -/
theorem BitReader.initNeg_ok {buf : List Byte} {k : Nat} (h : 8 ≤ buf.length)
    (hpad : leNat (buf.drop (buf.length - 8)) < 2 ^ (64 - k)) :
    ∃ br, BitReader.initNeg buf k = .ok br ∧ br.pos = buf.length - 8 ∧ br.cnt = 64 - k ∧
      br.acc.toNat = leNat (buf.drop (buf.length - 8)) := by
  have hlt := memRead_lt buf (buf.length - 8) 8
  refine ⟨⟨BitVec.ofNat 64 (memRead buf (buf.length - 8) 8), 64 - k, buf.length - 8⟩, ?_, rfl, rfl, ?_⟩
  · rw [BitReader.initNeg, if_neg (by omega)]
    exact if_neg (not_not.mpr ((padding_eq_zero_iff h).mpr hpad))
  · rw [BitVec.toNat_ofNat, Nat.mod_eq_of_lt (hlt.trans_eq (by norm_num)), memRead_suffix h]

/-- Settles O38, by the cases of the offset and of the buffer's length. -/
theorem bitReaderInit : Obligations.BitReaderInit := by
  intro buf n
  refine ⟨BitReader.init_outside, ?_, ?_, fun h7 h0 hlen => ?_, fun h7 h0 hlen => ⟨fun hpad => ?_, fun hpad => ?_⟩⟩
  · rintro rfl hlen
    exact BitReader.init0_short hlen
  · rintro rfl hlen
    exact BitReader.init0_ok hlen
  · rw [BitReader.init_neg h7 h0, BitReader.initNeg_short hlen]
  · rw [show (64 + n).toNat = 64 - (-n).toNat by omega] at hpad
    rw [BitReader.init_neg h7 h0, BitReader.initNeg_padding hlen hpad]
  · rw [show (64 + n).toNat = 64 - (-n).toNat by omega] at hpad
    obtain ⟨br, hbr, hpos, hcnt, hacc⟩ := BitReader.initNeg_ok hlen hpad
    exact ⟨br, (BitReader.init_neg h7 h0).trans hbr, hpos, by omega, hacc⟩

/-! ### `fill` and `read` -/

@[simp] theorem BitReader.load_cnt (buf : List Byte) (k : Nat) (br : BitReader) :
    (BitReader.load buf k br).cnt = br.cnt + 8 * k := by
  induction k generalizing br with
  | zero => rfl
  | succ k ih => rw [BitReader.load, ih]; ring

@[simp] theorem BitReader.load_pos (buf : List Byte) (k : Nat) (br : BitReader) :
    (BitReader.load buf k br).pos = br.pos - k := by
  induction k generalizing br with
  | zero => rfl
  | succ k ih => rw [BitReader.load, ih]; simp only; omega

/-- A byte loaded below the bits held, as numbers (R126). -/
theorem loadByte_toNat {acc : BitVec 64} {c : Nat} (b : Byte) (h : acc.toNat < 2 ^ c) (hc : c + 8 ≤ 64) :
    ((acc <<< 8) ||| b.setWidth 64).toNat = acc.toNat * 2 ^ 8 + b.toNat := by
  have hb : b.toNat < 2 ^ 8 := b.isLt
  have hacc : acc.toNat * 2 ^ 8 < 2 ^ 64 := by
    calc acc.toNat * 2 ^ 8 < 2 ^ c * 2 ^ 8 := Nat.mul_lt_mul_of_pos_right h (by norm_num)
      _ = 2 ^ (c + 8) := (pow_add 2 c 8).symm
      _ ≤ 2 ^ 64 := Nat.pow_le_pow_right (by norm_num) hc
  rw [BitVec.toNat_or, BitVec.toNat_shiftLeft, Nat.shiftLeft_eq, Nat.mod_eq_of_lt hacc, BitVec.toNat_setWidth,
    Nat.mod_eq_of_lt (hb.trans (by norm_num)), mul_comm, ← Nat.two_pow_add_eq_or_of_lt hb]

/-- The bytes loaded stand below the bits held (R126). -/
theorem BitReader.load_acc {buf : List Byte} (k : Nat) {br : BitReader} (h : br.Ok buf)
    (hcnt : br.cnt + 8 * k ≤ 63) (hk : k ≤ br.pos) :
    (BitReader.load buf k br).acc.toNat = br.acc.toNat * 2 ^ (8 * k) + memRead buf (br.pos - k) k := by
  induction k generalizing br with
  | zero => simp [BitReader.load, memRead, leNat]
  | succ k ih =>
    have hone : (BitReader.load buf 1 br).Ok buf := br.load_ok buf 1 h (by omega)
    have hcnt' : (BitReader.load buf 1 br).cnt + 8 * k ≤ 63 := by rw [BitReader.load_cnt]; omega
    have hk' : k ≤ (BitReader.load buf 1 br).pos := by rw [BitReader.load_pos]; omega
    obtain ⟨-, hacc, hpos⟩ := h
    have hbyte : (BitReader.load buf 1 br).acc.toNat = br.acc.toNat * 2 ^ 8 + (buf.getD (br.pos - 1) 0).toNat :=
      loadByte_toNat _ hacc (by omega)
    have hread := memRead_succ (buf := buf) (a := br.pos - (k + 1)) (n := k) (by omega)
    rw [show br.pos - (k + 1) + k = br.pos - 1 by omega] at hread
    have hstep : BitReader.load buf (k + 1) br = BitReader.load buf k (BitReader.load buf 1 br) := rfl
    rw [hstep, ih hone hcnt' hk', hbyte, hread, BitReader.load_pos, show br.pos - 1 - k = br.pos - (k + 1) by omega,
      show 256 ^ k = 2 ^ (8 * k) by rw [pow_mul]; norm_num, show 8 * (k + 1) = 8 * k + 8 by ring, pow_add]
    ring

theorem BitReader.fill_full {buf : List Byte} {br : BitReader} (h : 56 ≤ br.cnt) : br.fill buf = .ok br :=
  if_neg (by omega)

theorem BitReader.fill_short {buf : List Byte} {br : BitReader} (h : br.cnt < 56)
    (hpos : br.pos < (63 - br.cnt) / 8) : br.fill buf = .error .f13 := by
  rw [BitReader.fill, if_pos h]
  exact if_pos (.inl hpos)

theorem BitReader.fill_load {buf : List Byte} {br : BitReader} (h : br.cnt < 56)
    (hpos : (63 - br.cnt) / 8 ≤ br.pos) (hlen : br.pos ≤ buf.length) :
    br.fill buf = .ok (BitReader.load buf ((63 - br.cnt) / 8) br) := by
  rw [BitReader.fill, if_pos h]
  exact if_neg (by omega)

theorem BitReader.read_short {br : BitReader} {w : Nat} (h : br.cnt < w) : br.read w = .error .t02 :=
  if_pos h

/-- A read inside the valid bits gives the top `w` of them and leaves the others (R128). -/
theorem BitReader.read_within {buf : List Byte} {br : BitReader} {w : Nat} (h : br.Ok buf) (hw : w ≤ br.cnt) :
    ∃ br', br.read w = .ok (br.acc.toNat / 2 ^ (br.cnt - w), br') ∧ br'.cnt = br.cnt - w ∧ br'.pos = br.pos ∧
      br'.acc.toNat = br.acc.toNat % 2 ^ (br.cnt - w) := by
  obtain ⟨hcnt, -, -⟩ := h
  have hmask : 2 ^ (br.cnt - w) - 1 < 2 ^ 64 :=
    (Nat.sub_le _ _).trans_lt (Nat.pow_lt_pow_right (by norm_num) (by omega))
  refine ⟨⟨br.acc &&& BitVec.ofNat 64 (2 ^ (br.cnt - w) - 1), br.cnt - w, br.pos⟩, ?_, rfl, rfl, ?_⟩
  · rw [BitReader.read, if_neg (by omega), ← Nat.shiftRight_eq_div_pow]
    rfl
  · rw [BitVec.toNat_and, BitVec.toNat_ofNat, Nat.mod_eq_of_lt hmask, Nat.and_two_pow_sub_one_eq_mod]

/-- Settles O39, by the bits held for `fill` and by the width for `read`. -/
theorem bitReaderFillRead : Obligations.BitReaderFillRead := by
  intro buf br h
  refine ⟨BitReader.fill_full, BitReader.fill_short, fun hcnt hpos => ?_, fun w => BitReader.read_short, fun w hw => ?_⟩
  · have ⟨_, _, hlen⟩ := h
    have hload := BitReader.fill_load hcnt hpos hlen
    have hroom : br.cnt + 8 * ((63 - br.cnt) / 8) ≤ 63 := by omega
    have hmany : 56 ≤ br.cnt + 8 * ((63 - br.cnt) / 8) := by omega
    exact ⟨_, hload, BitReader.fill_ok h hload, BitReader.load_pos .., BitReader.load_cnt ..,
      hmany.trans_eq (BitReader.load_cnt ..).symm, BitReader.load_acc _ h hroom hpos⟩
  · obtain ⟨br', hread, hcnt, hpos, hacc⟩ := BitReader.read_within h hw
    exact ⟨br', hread, (BitReader.read_ok h hread).2, hcnt, hpos, hacc⟩

/-! ### The backward bitstream -/

/-- A pattern is its high bits, then its low bits. -/
theorem natBits_add (a b v : Nat) : natBits (a + b) v = natBits a (v / 2 ^ b) ++ natBits b (v % 2 ^ b) := by
  rw [natBits, List.range_add, List.map_append, List.map_map]
  congr 1
  · refine List.map_congr_left fun i hi => ?_
    have hi := List.mem_range.mp hi
    rw [Nat.testBit_div_two_pow, show a - 1 - i + b = a + b - 1 - i by omega]
  · refine List.map_congr_left fun i hi => ?_
    have hi := List.mem_range.mp hi
    rw [Nat.testBit_mod_two_pow, decide_eq_true (by omega), Bool.true_and, Function.comp_apply,
      show a + b - 1 - (a + i) = b - 1 - i by omega]

/-- A pattern whose low `b` bits are `u`. -/
theorem natBits_mul_add (a b v : Nat) {u : Nat} (hu : u < 2 ^ b) :
    natBits (a + b) (v * 2 ^ b + u) = natBits a v ++ natBits b u := by
  rw [natBits_add, mul_comm, Nat.mul_add_div (Nat.two_pow_pos b), Nat.div_eq_of_lt hu, Nat.mul_add_mod,
    Nat.mod_eq_of_lt hu, Nat.add_zero]

theorem natBits_zero (w : Nat) : natBits w 0 = List.replicate w false := by
  simp [natBits]

/-- The last bytes come first (R95). -/
theorem backwardBits_append (as bs : List Byte) : backwardBits (as ++ bs) = backwardBits bs ++ backwardBits as := by
  rw [backwardBits, List.reverse_append, List.flatMap_append]
  rfl

/-- The backward bitstream is the buffer's little-endian value, most significant bit first (R13, R95). -/
theorem backwardBits_eq_natBits (buf : List Byte) : backwardBits buf = natBits (8 * buf.length) (leNat buf) := by
  induction buf with
  | nil => rfl
  | cons b bs ih =>
    have hcons : backwardBits (b :: bs) = backwardBits bs ++ natBits 8 b.toNat := by simp [backwardBits]
    rw [hcons, ih, List.length_cons, mul_add, leNat, add_comm b.toNat, mul_comm 256]
    exact (natBits_mul_add _ 8 _ b.isLt).symm

/-- The bits below `p` start with those of the `n` bytes just below it (R13, R95). -/
theorem backwardBits_take {buf : List Byte} {n p : Nat} (hn : n ≤ p) (hp : p ≤ buf.length) :
    backwardBits (buf.take p) = natBits (8 * n) (memRead buf (p - n) n) ++ backwardBits (buf.take (p - n)) := by
  have hbytes : (buf.take p).drop (p - n) = (buf.drop (p - n)).take n := by
    rw [List.drop_take, Nat.sub_sub_self hn]
  have hlen : ((buf.drop (p - n)).take n).length = n := by rw [List.length_take, List.length_drop]; omega
  calc backwardBits (buf.take p)
      = backwardBits ((buf.take p).take (p - n) ++ (buf.take p).drop (p - n)) := by rw [List.take_append_drop]
    _ = backwardBits ((buf.drop (p - n)).take n) ++ backwardBits (buf.take (p - n)) := by
        rw [backwardBits_append, hbytes, List.take_take, Nat.min_eq_left (Nat.sub_le _ _)]
    _ = _ := by rw [backwardBits_eq_natBits, hlen, memRead]

/-- Loading moves bits from the buffer to the cache (R126). -/
theorem BitReader.load_pending {buf : List Byte} {k : Nat} {br : BitReader} (h : br.Ok buf)
    (hcnt : br.cnt + 8 * k ≤ 63) (hk : k ≤ br.pos) : (BitReader.load buf k br).pending buf = br.pending buf := by
  have ⟨_, _, hlen⟩ := h
  have hbytes : memRead buf (br.pos - k) k < 2 ^ (8 * k) :=
    (memRead_lt _ _ _).trans_eq (by rw [pow_mul]; norm_num)
  rw [BitReader.pending, BitReader.pending, BitReader.load_cnt, BitReader.load_pos, BitReader.load_acc k h hcnt hk,
    natBits_mul_add _ _ _ hbytes, List.append_assoc, ← backwardBits_take hk hlen]

/-- `fill` leaves what the reader has still to give (R126, R129). -/
theorem BitReader.fill_pending {buf : List Byte} {br br' : BitReader} (h : br.Ok buf) (hf : br.fill buf = .ok br') :
    br'.pending buf = br.pending buf := by
  by_cases hfull : 56 ≤ br.cnt
  · rw [BitReader.fill_full hfull] at hf
    cases hf
    rfl
  by_cases hpos : (63 - br.cnt) / 8 ≤ br.pos
  · have ⟨_, _, hlen⟩ := h
    rw [BitReader.fill_load (by omega) hpos hlen] at hf
    cases hf
    exact BitReader.load_pending h (by omega) hpos
  · rw [BitReader.fill_short (by omega) (by omega)] at hf
    cases hf

/-- `read` gives the first `w` bits of what the reader has still to give (R128, R129). -/
theorem BitReader.read_pending {buf : List Byte} {br br' : BitReader} {w v : Nat} (h : br.Ok buf)
    (hr : br.read w = .ok (v, br')) : br.pending buf = natBits w v ++ br'.pending buf := by
  by_cases hw : br.cnt < w
  · rw [BitReader.read_short hw] at hr
    cases hr
  have hw : w ≤ br.cnt := Nat.le_of_not_lt hw
  obtain ⟨b, hb, hcnt, hpos, hacc⟩ := BitReader.read_within h hw
  rw [hb] at hr
  cases hr
  rw [BitReader.pending, BitReader.pending, hcnt, hpos, hacc, ← List.append_assoc, ← natBits_add,
    Nat.add_sub_cancel' hw]

/-- What a run of operations gives, and what is left after it, is what the reader had to give (R129). -/
theorem BitReader.run_pending {buf : List Byte} (ops : List ReaderOp) {br br' : BitReader} {fs : List (Nat × Nat)}
    (h : br.Ok buf) (hr : BitReader.run buf ops br = .ok (fs, br')) :
    br.pending buf = fs.flatMap (fun f => natBits f.1 f.2) ++ br'.pending buf ∧ ∀ f ∈ fs, f.2 < 2 ^ f.1 := by
  induction ops generalizing br fs with
  | nil => cases hr; exact ⟨rfl, nofun⟩
  | cons op ops ih =>
    cases op with
    | fill =>
      rw [BitReader.run] at hr
      split at hr
      · cases hr
      rename_i b hb
      rw [← BitReader.fill_pending h hb]
      exact ih (BitReader.fill_ok h hb) hr
    | read w =>
      rw [BitReader.run] at hr
      split at hr
      · cases hr
      rename_i v b hb
      split at hr
      · cases hr
      rename_i fs' b' hrest
      cases hr
      obtain ⟨hv, hok⟩ := BitReader.read_ok h hb
      obtain ⟨hgiven, hfits⟩ := ih hok hrest
      refine ⟨?_, List.forall_mem_cons.mpr ⟨hv, hfits⟩⟩
      rw [BitReader.read_pending h hb, hgiven, List.flatMap_cons, List.append_assoc]

/-- A reader that holds the last `m` bytes but `skip` zero bits at their top has the rest to give (R95). -/
theorem BitReader.pending_of_suffix {buf : List Byte} {br : BitReader} {m skip : Nat} (hm : m ≤ buf.length)
    (hok : br.Ok buf) (hcnt : skip + br.cnt = 8 * m) (hpos : br.pos = buf.length - m)
    (hacc : br.acc.toNat = leNat (buf.drop (buf.length - m))) :
    backwardBits buf = List.replicate skip false ++ br.pending buf := by
  have ⟨_, hlt, _⟩ := hok
  have hbits : natBits (8 * m) br.acc.toNat = List.replicate skip false ++ natBits br.cnt br.acc.toNat := by
    rw [← hcnt, ← natBits_zero, ← natBits_mul_add skip br.cnt 0 hlt, zero_mul, zero_add]
  calc backwardBits buf
      = natBits (8 * m) br.acc.toNat ++ backwardBits (buf.take br.pos) := by
        rw [hacc, hpos, ← memRead_suffix hm, ← backwardBits_take hm le_rfl, List.take_length]
    _ = List.replicate skip false ++ br.pending buf := by rw [hbits, List.append_assoc, BitReader.pending]

/-- After `init` the reader has the stream's content to give, and the bits it skipped are 0 (R95, R121 to R125). -/
theorem BitReader.init_pending {buf : List Byte} {n : Int} {br : BitReader} (h : BitReader.init buf n = .ok br) :
    backwardBits buf = List.replicate (-n).toNat false ++ br.pending buf := by
  have hok := BitReader.init_ok h
  by_cases hn : n < -7 ∨ 0 < n
  · rw [BitReader.init_outside hn] at h
    cases h
  rcases eq_or_ne n 0 with rfl | h0
  · rw [BitReader.init_zero] at h
    by_cases hlen : buf.length < 7
    · rw [BitReader.init0_short hlen] at h
      cases h
    obtain ⟨b, hb, hpos, hcnt, hacc⟩ := BitReader.init0_ok (Nat.le_of_not_lt hlen)
    cases hb.symm.trans h
    exact BitReader.pending_of_suffix (Nat.le_of_not_lt hlen) hok (by rw [hcnt]; rfl) hpos hacc
  · rw [BitReader.init_neg (by omega) (by omega)] at h
    by_cases hlen : buf.length < 8
    · rw [BitReader.initNeg_short hlen] at h
      cases h
    have hlen : 8 ≤ buf.length := Nat.le_of_not_lt hlen
    by_cases hpad : leNat (buf.drop (buf.length - 8)) < 2 ^ (64 - (-n).toNat)
    · obtain ⟨b, hb, hpos, hcnt, hacc⟩ := BitReader.initNeg_ok hlen hpad
      cases hb.symm.trans h
      exact BitReader.pending_of_suffix hlen hok (by omega) hpos hacc
    · rw [BitReader.initNeg_padding hlen (Nat.le_of_not_lt hpad)] at h
      cases h

/-- Settles O40, by induction on the run: each operation keeps the bits given and still to give. -/
theorem readOrderLaw : Obligations.ReadOrderLaw := by
  intro buf n ops br br' fs hinit hrun
  obtain ⟨hgiven, hfits⟩ := BitReader.run_pending ops (BitReader.init_ok hinit) hrun
  have hstream := BitReader.init_pending hinit
  refine ⟨?_, hfits, ?_⟩
  · rw [streamContent, hstream, List.drop_left' List.length_replicate, hgiven]
  · rw [hstream, List.take_left' List.length_replicate]
    exact fun b hb => List.eq_of_mem_replicate hb

end Sys2Proof.Machine

/-! SUPPORT. The table `build` fills, slot by slot (R131), its value fields (R137), and the run of each symbol (R134). -/

namespace Sys2Proof.Machine

/-! ### The slots of a weight list -/

/-- The slots of the symbols from `sym` on, as many for each as its weight (R131). -/
def symbolSlots (n : Nat) : Nat → List Nat → List Entry
  | _, [] => []
  | sym, w :: ws => (List.range w).map (slot n sym w) ++ symbolSlots n (sym + 1) ws

@[simp] theorem symbolSlots_length (n sym : Nat) (ws : List Nat) : (symbolSlots n sym ws).length = ws.sum := by
  induction ws generalizing sym with
  | nil => rfl
  | cons w ws ih => simp [symbolSlots, ih]

/-- Slot `i` of symbol `sym + s` stands after the slots of the symbols before it. -/
theorem symbolSlots_getElem? (n : Nat) {sym s w i : Nat} {ws : List Nat} (hw : ws[s]? = some w) (hi : i < w) :
    (symbolSlots n sym ws)[(ws.take s).sum + i]? = some (slot n (sym + s) w i) := by
  induction ws generalizing sym s with
  | nil => cases hw
  | cons v ws ih =>
    cases s with
    | zero =>
      cases hw
      rw [symbolSlots, List.take_zero, List.sum_nil, Nat.zero_add,
        List.getElem?_append_left (by rwa [List.length_map, List.length_range]), List.getElem?_map,
        List.getElem?_range hi]
      rfl
    | succ s =>
      have hrest := ih (sym := sym + 1) hw
      rw [show sym + 1 + s = sym + (s + 1) by omega] at hrest
      rw [symbolSlots, List.take_succ_cons, List.sum_cons, List.getElem?_append_right (by simp; omega),
        List.length_map, List.length_range, show v + (ws.take s).sum + i - v = (ws.take s).sum + i by omega, hrest]

/-- Every slot is one of a symbol's own. -/
theorem symbolSlots_owner {j : Nat} {ws : List Nat} (hj : j < ws.sum) :
    ∃ s w i, ws[s]? = some w ∧ i < w ∧ j = (ws.take s).sum + i := by
  induction ws generalizing j with
  | nil => cases hj
  | cons v ws ih =>
    rw [List.sum_cons] at hj
    by_cases hv : j < v
    · exact ⟨0, v, j, rfl, hv, by simp⟩
    · obtain ⟨s, w, i, hw, hi, hj'⟩ := ih (j := j - v) (by omega)
      exact ⟨s + 1, w, i, hw, hi, by rw [List.take_succ_cons, List.sum_cons]; omega⟩

theorem slot_symbol (n s w i : Nat) : (slot n s w i).symbol = BitVec.ofNat 8 s := by
  unfold slot
  split <;> rfl

/-- `build`'s loop: F07 as soon as the running total passes `n`, else every symbol's slots (R131). -/
theorem buildSlots_eq {n total : Nat} (sym : Nat) (ws : List Nat) (h : total ≤ n) :
    buildSlots n sym total ws = if n < total + ws.sum then .error .f07 else .ok (symbolSlots n sym ws) := by
  induction ws generalizing sym total with
  | nil => rw [if_neg (by simpa using h)]; rfl
  | cons w ws ih =>
    rw [buildSlots, List.sum_cons, ← Nat.add_assoc]
    by_cases h0 : w = 0
    · subst h0
      rw [if_pos rfl, ih _ h]
      rfl
    rw [if_neg h0]
    by_cases hw : n < total + w
    · rw [if_pos hw, if_pos (by omega)]
    rw [if_neg hw, ih _ (by omega)]
    by_cases hs : n < total + w + ws.sum
    · rw [if_pos hs, if_pos hs]
    · rw [if_neg hs, if_neg hs]
      rfl

/-! ### The built table -/

/-- The table of `n` states with every symbol's slots and `⊥` above them (R131). -/
def filledTable (n : Nat) (weights : List Nat) : List (Option Entry) :=
  (symbolSlots n 0 weights).map some ++ List.replicate (n - weights.sum) none

theorem buildTable_many {n : Nat} {weights : List Nat} (h : 256 < weights.length) :
    buildTable n weights = .error .f08 :=
  if_pos h

theorem buildTable_over {n : Nat} {weights : List Nat} (h : weights.length ≤ 256) (hsum : n < weights.sum) :
    buildTable n weights = .error .f07 := by
  rw [buildTable, if_neg (by omega), buildSlots_eq 0 weights (Nat.zero_le n), if_pos (by omega)]

theorem buildTable_fits {n : Nat} {weights : List Nat} (h : weights.length ≤ 256) (hsum : weights.sum ≤ n) :
    buildTable n weights = .ok (filledTable n weights) := by
  rw [buildTable, if_neg (by omega), buildSlots_eq 0 weights (Nat.zero_le n), if_neg (by omega), filledTable,
    ← symbolSlots_length n 0 weights]

/-- A build succeeds only on at most 256 weights of sum at most `n`, and with the filled table (R131). -/
theorem buildTable_ok_iff {n : Nat} {weights : List Nat} {t : List (Option Entry)} :
    buildTable n weights = .ok t ↔ weights.length ≤ 256 ∧ weights.sum ≤ n ∧ t = filledTable n weights := by
  refine ⟨fun h => ?_, ?_⟩
  · by_cases hlen : 256 < weights.length
    · rw [buildTable_many hlen] at h
      cases h
    by_cases hsum : n < weights.sum
    · rw [buildTable_over (by omega) hsum] at h
      cases h
    rw [buildTable_fits (by omega) (by omega)] at h
    cases h
    exact ⟨by omega, by omega, rfl⟩
  · rintro ⟨hlen, hsum, rfl⟩
    exact buildTable_fits hlen hsum

theorem filledTable_length {n : Nat} {weights : List Nat} (h : weights.sum ≤ n) :
    (filledTable n weights).length = n := by
  simp [filledTable, h]

theorem filledTable_empty {n i : Nat} {weights : List Nat} (hi : weights.sum ≤ i) (hn : i < n) :
    (filledTable n weights)[i]? = some none := by
  rw [filledTable, List.getElem?_append_right (by simpa using hi), List.getElem?_replicate,
    if_pos (by simp; omega)]

/-- Slot `i` of symbol `s` in the table (R131). -/
theorem filledTable_slot (n : Nat) {s w i : Nat} {weights : List Nat} (hw : weights[s]? = some w) (hi : i < w) :
    (filledTable n weights)[(weights.take s).sum + i]? = some (some (slot n s w i)) := by
  have hslot := symbolSlots_getElem? n (sym := 0) hw hi
  have hlt := (List.getElem?_eq_some_iff.mp hslot).1
  rw [filledTable, List.getElem?_append_left (by simpa using hlt), List.getElem?_map, hslot, Nat.zero_add]
  rfl

/-- The value table has the build's faults, and its entries their stream's value fields (R137). -/
theorem buildValueTable_runsNext (x : Stream) (n : Nat) (weights : List Nat) :
    RunsNext (buildTable n weights) (buildValueTable x n weights) fun t =>
      buildValueTable x n weights = .ok (t.map (Option.map (addValue x))) :=
  ⟨fun r h => by rw [buildValueTable, h], fun t h => by rw [buildValueTable, h]⟩

/-- The four builds of a block init, in order (R186, R217). -/
theorem buildTables_runsNext (weights : List Nat) :
    RunsNext (buildValueTable .L 64 (weights.take 20)) (buildTables weights) fun tl =>
    RunsNext (buildValueTable .M 64 ((weights.drop 20).take 20)) (buildTables weights) fun tm =>
    RunsNext (buildValueTable .D 256 ((weights.drop 40).take 64)) (buildTables weights) fun td =>
    RunsNext (buildTable 1024 ((weights.drop 104).take 256)) (buildTables weights) fun tlit =>
    buildTables weights = .ok { tl := tl, tm := tm, td := td, tlit := tlit } := by
  unfold buildTables Config.nStatesL Config.nStatesM Config.nStatesD Config.nStatesLit
  refine ⟨fun r h => by rw [h], fun tl hl => ?_⟩
  rw [hl]
  refine ⟨fun r h => by rw [h], fun tm hm => ?_⟩
  rw [hm]
  refine ⟨fun r h => by rw [h], fun td hd => ?_⟩
  rw [hd]
  exact ⟨fun r h => by rw [h], fun tlit hlit => by rw [hlit]⟩

/-- Settles O41: `build` fills the table symbol by symbol, by induction on the weights. -/
theorem buildFillsSlots : Obligations.BuildFillsSlots := by
  refine ⟨fun n weights => ⟨buildTable_many, buildTable_over, fun hlen hsum => ?_⟩, fun x n weights => ?_,
    buildTables_runsNext⟩
  · exact ⟨_, buildTable_fits hlen hsum, filledTable_length hsum, fun i => filledTable_empty,
      fun s w i hw hi => filledTable_slot n hw hi⟩
  · obtain ⟨herror, hok⟩ := buildValueTable_runsNext x n weights
    refine ⟨herror, fun t ht => ⟨_, hok t ht, List.length_map _, fun i => ⟨fun h => ?_, fun e h => ?_⟩⟩⟩
    · rw [List.getElem?_map, h]
      rfl
    · rw [List.getElem?_map, h]
      rfl

/-! ### The run of a symbol's slots (R134) -/

/-- The symbol of a filled slot is the one whose run it stands in (R134). -/
theorem filledTable_symbol_iff {n s w j : Nat} {weights : List Nat} (hlen : weights.length ≤ 256)
    (hw : weights[s]? = some w) (hj : j < n) :
    (∃ e, (filledTable n weights)[j]? = some (some e) ∧ e.symbol.toNat = s) ↔
      (weights.take s).sum ≤ j ∧ j < (weights.take s).sum + w := by
  have hs := (List.getElem?_eq_some_iff.mp hw).1
  constructor
  · rintro ⟨e, he, hsym⟩
    have hsum : j < weights.sum := by
      by_contra hge
      rw [filledTable_empty (Nat.le_of_not_lt hge) hj] at he
      cases he
    obtain ⟨s', w', i, hw', hi, rfl⟩ := symbolSlots_owner hsum
    have hs' := (List.getElem?_eq_some_iff.mp hw').1
    rw [filledTable_slot n hw' hi] at he
    cases he
    rw [slot_symbol, BitVec.toNat_ofNat, Nat.mod_eq_of_lt (by omega)] at hsym
    subst hsym
    cases hw.symm.trans hw'
    omega
  · rintro ⟨hlo, hhi⟩
    have hslot := filledTable_slot n hw (i := j - (weights.take s).sum) (by omega)
    rw [Nat.add_sub_cancel' hlo] at hslot
    refine ⟨_, hslot, ?_⟩
    rw [slot_symbol, BitVec.toNat_ofNat, Nat.mod_eq_of_lt (by omega)]

/-- Settles O42: every slot leads back (`slot_ok`), and the symbols' runs of slots are disjoint. -/
theorem builtTablesLeadBack : Obligations.BuiltTablesLeadBack := by
  intro k weights t hk h
  obtain ⟨-, hentries⟩ := buildTable_ok (by omega) h
  refine ⟨fun e he => ?_, fun s hs i hi => ?_⟩
  · have ⟨hentry, _⟩ := hentries e he
    rwa [EntryOk, Nat.log2_two_pow] at hentry
  · obtain ⟨hlen, -, rfl⟩ := buildTable_ok_iff.mp h
    rw [List.sum_take_succ weights s hs]
    exact filledTable_symbol_iff hlen (List.getElem?_eq_getElem hs) hi

end Sys2Proof.Machine

/-! SUPPORT. `lookup` and `transition` case by case (R132, R133). -/

namespace Sys2Proof.Machine

theorem lookup_outside {α : Type} {n st : Nat} {t : List (Option α)} (h : n ≤ st) : lookup n t st = .error .f11 :=
  if_pos h

theorem lookup_empty {α : Type} {n st : Nat} {t : List (Option α)} (hn : st < n) (h : t[st]? = some none) :
    lookup n t st = .error .f12 := by
  rw [lookup, if_neg (by omega), h]

theorem lookup_entry {α : Type} {n st : Nat} {t : List (Option α)} {e : α} (hn : st < n)
    (h : t[st]? = some (some e)) : lookup n t st = .ok e := by
  rw [lookup, if_neg (by omega), h]

theorem nextState_short {e : Entry} {br : BitReader} (h : br.cnt < e.nBits) : nextState e br = .error .t02 := by
  rw [nextState, BitReader.read_short h]

theorem nextState_read {e : Entry} {br br' : BitReader} {v : Nat} (h : br.read e.nBits = .ok (v, br')) :
    nextState e br = .ok (e.nBase + v, br') := by
  rw [nextState, h]

/-- Settles O43, by the cases of the lookup and of the state bits. -/
theorem transitionEffect : Obligations.TransitionEffect := by
  rintro n t st br rfl
  refine ⟨lookup_outside, fun h => ?_, fun e h => ?_, fun r h => ?_, fun e h => ⟨fun hbits => ?_, fun v br' hread => ?_⟩⟩
  · exact lookup_empty (List.getElem?_eq_some_iff.mp h).1 h
  · exact lookup_entry (List.getElem?_eq_some_iff.mp h).1 h
  · rw [transition, h]
  · rw [transition, h]
    simp only [nextState_short hbits]
  · rw [transition, h]
    simp only [nextState_read hread]

end Sys2Proof.Machine

/-! SUPPORT. The distances' symbols (R136): the intervals between the bases, which rise. -/

namespace Sys2Proof.Machine

/-- The symbols below `n` cover the distances below `D_BASE[n]` (R136). -/
theorem exists_distanceSymbol {n d : Nat} (h : d < dBase n) :
    ∃ s x, s < n ∧ x < 2 ^ dExtra s ∧ dBase s + x = d := by
  induction n with
  | zero => cases h
  | succ n ih =>
    by_cases hd : d < dBase n
    · obtain ⟨s, x, hs, hx, hsum⟩ := ih hd
      exact ⟨s, x, by omega, hx, hsum⟩
    · rw [dBase] at h
      exact ⟨n, d - dBase n, by omega, by omega, by omega⟩

/-- A greater symbol's distances are greater (R136). -/
theorem distance_lt_of_symbol_lt {s s' x : Nat} (hs : s < s') (hx : x < 2 ^ dExtra s) : dBase s + x < dBase s' := by
  have hnext : dBase (s + 1) ≤ dBase s' := dBase_mono hs
  rw [dBase] at hnext
  omega

/-- A distance has one symbol and one extra-bit value (R136). -/
theorem distanceSymbol_unique {s s' x x' : Nat} (hx : x < 2 ^ dExtra s) (hx' : x' < 2 ^ dExtra s')
    (h : dBase s + x = dBase s' + x') : s = s' ∧ x = x' := by
  rcases lt_trichotomy s s' with hlt | rfl | hgt
  · have := distance_lt_of_symbol_lt hlt hx
    omega
  · exact ⟨rfl, by omega⟩
  · have := distance_lt_of_symbol_lt hgt hx'
    omega

/-- Settles O44: the rows of R135 by evaluation, and the distances by the intervals between the bases, which rise. -/
theorem distanceSymbolsPartition : Obligations.DistanceSymbolsPartition := by
  refine ⟨by decide, by decide, by decide, by decide, rfl, rfl, fun _ _ => rfl, rfl, fun _ => rfl, by decide,
    fun d hd => ?_⟩
  have hlast : dBase 64 = 262140 := by decide
  obtain ⟨s, x, hs, hx, hsum⟩ := exists_distanceSymbol (n := 64) (d := d) (by omega)
  refine ⟨(s, x), ⟨hs, hx, hsum⟩, fun (s', x') _ hx' hsum' => ?_⟩
  obtain ⟨rfl, rfl⟩ := distanceSymbol_unique hx' hx (hsum'.trans hsum.symm)
  rfl

end Sys2Proof.Machine

/-! SUPPORT. The bits an LZFSE triple takes of one fill (R130), and the order of its reads (R138, R220). -/

namespace Sys2Proof.Machine

/-! ### The bits taken -/

/-- The most extra bits a symbol of the stream has (R135, R136). -/
def Stream.maxExtra : Stream → Nat
  | .L => 8
  | .M => 11
  | .D => 15

theorem Stream.extra_le_maxExtra (x : Stream) {sym : Nat} (h : sym < x.symbols) : x.extra sym ≤ x.maxExtra := by
  cases x with
  | L =>
    have hall : ∀ s < 20, lExtra s ≤ 8 := by decide
    exact hall sym h
  | M =>
    have hall : ∀ s < 20, mExtra s ≤ 11 := by decide
    exact hall sym h
  | D =>
    have hall : ∀ s < 64, dExtra s ≤ 15 := by decide
    exact hall sym h

/-- The most bits a value decode over an `n`-state table takes: state bits and extra bits (R138). -/
def Stream.maxBits (x : Stream) (n : Nat) : Nat :=
  Nat.log2 n + x.maxExtra

theorem BitReader.read_cnt {br br' : BitReader} {w v : Nat} (h : br.read w = .ok (v, br')) :
    br'.cnt + w = br.cnt := by
  unfold BitReader.read at h
  split at h
  · cases h
  · cases h
    exact Nat.sub_add_cancel (by omega)

theorem BitReader.lt_of_read_error {br : BitReader} {w : Nat} {r : Reason} (h : br.read w = .error r) :
    br.cnt < w := by
  unfold BitReader.read at h
  split at h
  · assumption
  · cases h

theorem nextState_cnt {e : Entry} {br br' : BitReader} {st : Nat} (h : nextState e br = .ok (st, br')) :
    br'.cnt + e.nBits = br.cnt := by
  unfold nextState at h
  split at h
  · cases h
  · cases h
    exact BitReader.read_cnt ‹_›

theorem lt_of_nextState_error {e : Entry} {br : BitReader} {r : Reason} (h : nextState e br = .error r) :
    br.cnt < e.nBits := by
  unfold nextState at h
  split at h
  · exact BitReader.lt_of_read_error ‹_›
  · cases h

theorem ValueEntryOk.bits_le {x : Stream} {n : Nat} {e : ValueEntry} (h : ValueEntryOk x n e) :
    e.nBits + e.vBits ≤ x.maxBits n := by
  obtain ⟨⟨hstate, -⟩, hsym, hextra, -⟩ := h
  exact Nat.add_le_add hstate (hextra ▸ x.extra_le_maxExtra hsym)

section
variable {x : Stream} {n st : Nat} {t : List (Option ValueEntry)} {br : BitReader}
  (ht : ∀ e, some e ∈ t → ValueEntryOk x n e)
include ht

/-- A value decode takes no more bits than its stream's most (R138). -/
theorem valueDecode_cnt {v st' : Nat} {br' : BitReader} (h : valueDecode n t st br = .ok (v, st', br')) :
    br.cnt ≤ br'.cnt + x.maxBits n := by
  unfold valueDecode at h
  split at h
  · cases h
  rename_i e he
  split at h
  · cases h
  rename_i hst
  split at h
  · cases h
  rename_i hv
  cases h
  have hbits := (ht e (lookup_mem he)).bits_le
  have hcnt := nextState_cnt hst
  have hcnt' := BitReader.read_cnt hv
  omega

/-- A value decode runs out of bits only below its stream's most (R130, R138). -/
theorem lt_of_valueDecode_t02 (h : valueDecode n t st br = .error .t02) : br.cnt < x.maxBits n := by
  unfold valueDecode at h
  split at h
  · cases h
    rcases lookup_error ‹_› with h | h <;> cases h
  rename_i e he
  have hbits := (ht e (lookup_mem he)).bits_le
  split at h
  · have hlt := lt_of_nextState_error ‹_›
    omega
  rename_i hst
  have hleft := nextState_cnt hst
  split at h
  · have hlt := BitReader.lt_of_read_error ‹_›
    omega
  · cases h

end

/-- After a fill there are 56 bits or more (R126). -/
theorem BitReader.fill_cnt {buf : List Byte} {br br' : BitReader} (hf : br.fill buf = .ok br') : 56 ≤ br'.cnt := by
  unfold BitReader.fill at hf
  split at hf
  · simp only at hf
    split at hf
    · cases hf
    · cases hf
      rw [BitReader.load_cnt]
      omega
  · cases hf
    omega

/-- One fill has the bits of a whole triple: 14 for L, 17 for M and 23 for D (R130). -/
theorem decodeTriple_ne_t02 {z : Lzfse} (ht : TablesOk z) : decodeTriple z ≠ .error .t02 := by
  intro h
  have hL : Stream.L.maxBits Config.nStatesL = 14 := by decide
  have hM : Stream.M.maxBits Config.nStatesM = 17 := by decide
  have hD : Stream.D.maxBits Config.nStatesD = 23 := by decide
  unfold decodeTriple at h
  split at h
  · cases h
    cases fill_error ‹_›
  rename_i b0 hfill
  have h0 := BitReader.fill_cnt hfill
  split at h
  · cases h
    have hlt := lt_of_valueDecode_t02 ht.tlEntries ‹_›
    omega
  rename_i b1 hl
  have h1 := valueDecode_cnt ht.tlEntries hl
  split at h
  · cases h
    have hlt := lt_of_valueDecode_t02 ht.tmEntries ‹_›
    omega
  rename_i b2 hm
  have h2 := valueDecode_cnt ht.tmEntries hm
  split at h
  · cases h
    have hlt := lt_of_valueDecode_t02 ht.tdEntries ‹_›
    omega
  · cases h

/-! ### The order of the reads (R138, R220) -/

theorem valueDecode_runsNext (n : Nat) (t : List (Option ValueEntry)) (st : Nat) (br : BitReader) :
    RunsNext (lookup n t st) (valueDecode n t st br) fun e =>
    RunsNext (br.read e.nBits) (valueDecode n t st br) fun (v, br1) =>
    RunsNext (br1.read e.vBits) (valueDecode n t st br) fun (x, br2) =>
    valueDecode n t st br = .ok (e.vBase + x, e.nBase + v, br2) := by
  unfold valueDecode nextState
  refine ⟨fun r h => by rw [h], fun e he => ?_⟩
  rw [he]
  refine ⟨fun r h => by simp only [h], fun (v, br1) hv => ?_⟩
  simp only [hv]
  exact ⟨fun r h => by simp only [h], fun (x, br2) hx => by simp only [hx]⟩

theorem decodeTriple_runsNext (z : Lzfse) :
    RunsNext (z.brLmd.fill z.lmdp) (decodeTriple z) fun b0 =>
    RunsNext (valueDecode 64 z.tl z.sL b0) (decodeTriple z) fun (lv, sL, b1) =>
    RunsNext (valueDecode 64 z.tm z.sM b1) (decodeTriple z) fun (mv, sM, b2) =>
    RunsNext (valueDecode 256 z.td z.sD b2) (decodeTriple z) fun (dv, sD, b3) =>
    decodeTriple z = .ok (⟨lv, mv, dv⟩,
      { z with sL := sL, sM := sM, sD := sD, brLmd := b3, remaining := z.remaining - 1 }) := by
  unfold decodeTriple Config.nStatesL Config.nStatesM Config.nStatesD
  refine ⟨fun r h => by rw [h], fun b0 hfill => ?_⟩
  rw [hfill]
  refine ⟨fun r h => by simp only [h], fun (lv, sL, b1) hl => ?_⟩
  simp only [hl]
  refine ⟨fun r h => by simp only [h], fun (mv, sM, b2) hm => ?_⟩
  simp only [hm]
  exact ⟨fun r h => by simp only [h], fun (dv, sD, b3) hd => by simp only [hd]⟩

/-- Settles O45: the decodes read in order, and one fill covers the bits a triple takes at most. -/
theorem lzfseTripleInRange : Obligations.LzfseTripleInRange := by
  refine ⟨valueDecode_runsNext, decodeTriple_runsNext, fun z ht hr => ⟨decodeTriple_ne_t02 ht, fun tr z' h => ?_⟩⟩
  have ⟨hlmd, hlit⟩ := hr
  obtain ⟨⟨hl, hm, hd⟩, ⟨hsL, hsM, hsD⟩, hreader, hframe⟩ := decodeTriple_ok ht hlmd h
  refine ⟨by omega, by omega, by omega, hsL, hsM, hsD, ?_⟩
  rw [hframe]
  exact ⟨hreader, hlit⟩

end Sys2Proof.Machine

/-! SUPPORT. The match buffer: one write (R160), the bulk write (R161), a match inside its preconditions (R162, R165)
and the bulk match (R163, R166), each in a state of the ring law (R164), which every step keeps. -/

namespace Sys2Proof.Machine

/-! ### The ring law over a step -/

theorem ringOk_initial (size capacity : Nat) (source : List Byte) : RingOk (State.initial size capacity source) :=
  ⟨rfl, (Nat.zero_mod size).symm, fun _ h1 hd _ => absurd (h1.trans hd) (Nat.not_succ_le_zero 0)⟩

/-- `RingOk` is about the ring and its size, the cursor, the counter and the sink. -/
theorem RingOk.transfer {s t : State} (h : RingOk s) (hmb : t.mb = s.mb) (hcur : t.mcur = s.mcur)
    (htotal : t.outTotal = s.outTotal) (hout : t.out = s.out) (hsize : t.ringSize = s.ringSize) : RingOk t := by
  unfold RingOk matchByte at h ⊢
  rwa [hmb, hcur, htotal, hout, hsize]

/-- Settles O52: a step leaves the ring, its cursor, the counter and the sink, or makes one ring write, which keeps
the law. -/
theorem ringLawKept : Obligations.RingLawKept := by
  refine ⟨ringOk_initial, fun s t hs hstep => ?_⟩
  rcases step_ring hstep with hr | ⟨b, hr⟩
  · exact hs.transfer hr.mb hr.mcur hr.outTotal hr.out hr.ringSize
  · exact (ringOk_ringWrite b hs).transfer hr.mb hr.mcur hr.outTotal hr.out hr.ringSize

/-! ### One write -/

/-- The remainder is the spec's mask where the ring size is a power of two (R6, R27; log 9). -/
theorem ringAddr_eq_mask {size : Nat} (h : isPowerOfTwo size = true) (n : Nat) :
    ringAddr size n = n &&& (size - 1) := by
  rw [eq_of_beq h]
  exact ringAddr_mask _ n

/-- Settles O31: `step_ring` gives a step's two cases, and the write's effects hold by the read after a write and by
the cursor's mask. -/
theorem ringWriteEffect : Obligations.RingWriteEffect := by
  refine ⟨fun s t hstep => ?_, fun b s hpow => ⟨?_, ?_, fun a ha => ?_⟩⟩
  · rcases step_ring hstep with hr | ⟨b, hr⟩
    · exact .inl ⟨hr.mb, hr.mcur, hr.outTotal, hr.out, hr.blk⟩
    · exact .inr ⟨b, hr.mb, hr.mcur, hr.outTotal, hr.out, hr.blk⟩
  · rw [← ringAddr_eq_mask hpow]
    rfl
  · exact s.mb.read_write_same s.mcur b
  · exact s.mb.read_write_other s.mcur a b ha

/-! ### The bulk write -/

theorem ringWriteAll_eq_foldl (bs : List Byte) (s : State) :
    ringWriteAll bs s = bs.foldl (fun t b => ringWrite b t) s := by
  induction bs generalizing s with
  | nil => rfl
  | cons b bs ih => exact ih (ringWrite b s)

theorem ringOk_ringWriteAll {s : State} (bs : List Byte) (h : RingOk s) : RingOk (ringWriteAll bs s) := by
  induction bs generalizing s with
  | nil => exact h
  | cons b bs ih => exact ih (ringOk_ringWrite b h)

/-- Settles O32: the writes keep the ring law, and the law after the last of them is the claim. -/
theorem bulkWriteKeepsLastBytes : Obligations.BulkWriteKeepsLastBytes := by
  refine ⟨ringWriteAll_eq_foldl, fun bs s hs => ⟨ringWriteAll_out bs s, fun d h1 hsize hd => ?_⟩⟩
  obtain ⟨htotal, _, hlaw⟩ := ringOk_ringWriteAll bs hs
  rw [ringWriteAll_out, List.length_append] at htotal
  rw [hlaw d h1 (htotal ▸ hd) (by rwa [ringWriteAll_ringSize]), ringWriteAll_out, htotal]

/-! ### Matches -/

/-- Settles O33: the byte `d` back is one the ring still holds. -/
theorem matchCopiesOutput : Obligations.MatchCopiesOutput := by
  intro s d ⟨htotal, _, hlaw⟩ h1 hsize hd
  have hbyte : s.out[s.outTotal - d]? = some s.out[s.outTotal - d] := List.getElem?_eq_getElem (by omega)
  refine ⟨_, hbyte, ?_⟩
  rw [ringMatch, hlaw d h1 hd hsize, hbyte, Option.map_some]

/-- The bulk match is the bulk write of its bytes, each of which stands `d` back in the output that they
extend (R163). -/
theorem ringMatchAll_copies {s : State} {d : Nat} (len : Nat) (hs : RingOk s) (h1 : 1 ≤ d)
    (hsize : d ≤ s.ringSize) (hd : d ≤ s.outTotal) :
    ∃ bs, ringMatchAll d len s = some (bs, ringWriteAll bs s) ∧ bs.length = len ∧
      ∀ k < len, bs[k]? = (s.out ++ bs)[s.outTotal - d + k]? := by
  induction len generalizing s with
  | zero => exact ⟨[], rfl, rfl, fun k hk => absurd hk (Nat.not_lt_zero k)⟩
  | succ n ih =>
    obtain ⟨b, hbyte, hmatch⟩ := matchCopiesOutput s d hs h1 hsize hd
    obtain ⟨bs, hall, hlen, hcopy⟩ := ih (ringOk_ringWrite b hs) hsize (hd.trans (Nat.le_succ _))
    refine ⟨b :: bs, by simp [ringMatchAll, hmatch, hall], by simp [hlen], fun k hk => ?_⟩
    cases k with
    | zero =>
      have ⟨htotal, _, _⟩ := hs
      rw [Nat.add_zero, List.getElem?_append_left (by omega), hbyte, List.getElem?_cons_zero]
    | succ k =>
      have hindex : s.outTotal + 1 - d + k = s.outTotal - d + (k + 1) := by omega
      rw [List.getElem?_cons_succ, hcopy k (by omega), ringWrite_out, ringWrite_outTotal, hindex,
        List.append_assoc, List.singleton_append]

/-- Settles O34: the byte `d` back from byte `k` is the bulk match's own for `k ≥ d`, and one of the output before it
for `k < d`. -/
theorem bulkMatchOverlaps : Obligations.BulkMatchOverlaps := by
  intro s d len hs h1 hsize hd
  obtain ⟨bs, hall, hlen, hcopy⟩ := ringMatchAll_copies len hs h1 hsize hd
  obtain ⟨htotal, _, _⟩ := hs
  refine ⟨bs, _, hall, hlen, ringWriteAll_out bs s, fun k hdk hk => ?_, fun k hkd hk => ?_⟩
  · have hindex : s.outTotal - d + k - s.out.length = k - d := by omega
    rw [hcopy k hk, List.getElem?_append_right (by omega), hindex]
  · rw [hcopy k hk, List.getElem?_append_left (by omega)]

end Sys2Proof.Machine

/-! SUPPORT. The block instructions that read a header (R271 to R274): the header read, the parser's checks, the payload
or the block init. -/

namespace Sys2Proof.Machine

/-! ### Faults and header reads -/

/-- A raise is fault entry: the record is written, `OUT` and `spos` are those of the state that raises (R302). -/
theorem faultTaken_raise {s u : State} {pos : Nat} (r : Reason) (hout : u.out = s.out := by rfl)
    (hpos : u.spos = pos := by rfl) : FaultTaken s pos r (.next (raise u r)) :=
  ⟨_, rfl, rfl, hout, hpos⟩

/-- The state once a header of `n` bytes is in the scratch (R175, R179, R187, R188). -/
def headerRead (n : Nat) (s : State) : State :=
  { s with spos := s.spos + n, hs := sourceBytes n s }

theorem faultTaken_readingHeader {n : Nat} {s : State} {k : List Byte → State → Host.Outcome State Fault Refusal}
    (h : s.src.length < s.spos + n) : FaultTaken s s.spos .t01 (readingHeader n s k) := by
  rw [readingHeader_short h]
  exact faultTaken_raise .t01

section
variable {s : State}

theorem exec_bvx1_header (h : s.spos + 766 ≤ s.src.length) :
    exec .bvx1 s = raising (headerRead 766 s) (parseV1 (sourceBytes 766 s)) fun hdr =>
      initLzfse .v1 { headerRead 766 s with hdr := hdr } := by
  rw [exec, execBvx1, readingHeader_ok h]
  rfl

theorem exec_bvxn_header (h : s.spos + 8 ≤ s.src.length) :
    exec .bvxn s = raising (headerRead 8 s) (parseLzvn (sourceBytes 8 s)) fun counts =>
      reading counts.2
        { headerRead 8 s with hdr := { s.hdr with nRawBytes := counts.1, nPayloadBytes := counts.2 } }
        fun vp u => .next (lzvnStarted vp u) := by
  rw [exec, execBvxn, readingHeader_ok h]
  rfl

theorem exec_bvxRaw_header (h : s.spos + 4 ≤ s.src.length) :
    exec .bvxRaw s = raising (headerRead 4 s) (parseRaw (sourceBytes 4 s)) fun nRaw =>
      reading nRaw { headerRead 4 s with hdr := { s.hdr with nRawBytes := nRaw } } fun rp u =>
        .next (rawStarted rp u) := by
  rw [exec, execBvxRaw, readingHeader_ok h]
  rfl

theorem exec_bvx2_header (h : s.spos + 28 ≤ s.src.length) :
    exec .bvx2 s = raising (headerRead 28 s) (parseV2Prefix s.tableCapacity (sourceBytes 28 s)) fun parsed =>
      reading parsed.2 (headerRead 28 s) fun blob u =>
        if parsed.2 = 0 then initLzfse .v2 { u with hdr := parsed.1 }
        else .next { u with
          hdr := parsed.1, hs := sourceBytes 28 s ++ blob, vlc := ⟨0, 0, 0, []⟩, phase := .vlc } := by
  rw [exec, execBvx2, readingHeader_ok h]
  rfl

end

/-! ### The block init -/

/-- `initLZFSE` where every check passes (R217). -/
theorem initLzfse_started {kind : BlockKind} {s : State} {tabs : TableSet} {bytes : List Byte} {lanes : Lanes}
    {brLit brLmd : BitReader} (hcount : s.hdr.nLiterals ≤ 40000 ∧ s.hdr.nLiterals % 4 = 0)
    (htabs : buildTables s.hdr.weights = .ok tabs)
    (hsrc : s.spos + s.hdr.nLiteralPayloadBytes + s.hdr.nLmdPayloadBytes ≤ s.src.length)
    (hlit : literalDecode tabs.tlit (sourceBytes s.hdr.nLiteralPayloadBytes s) s.hdr.literalBits s.hdr.nLiterals
      s.hdr.literalState = .ok (bytes, lanes, brLit))
    (hlmd : BitReader.init ((s.src.drop (s.spos + s.hdr.nLiteralPayloadBytes)).take s.hdr.nLmdPayloadBytes)
      s.hdr.lmdBits = .ok brLmd) :
    initLzfse kind s = .next { s with
      spos := s.spos + s.hdr.nLiteralPayloadBytes + s.hdr.nLmdPayloadBytes
      lit := Memory.ofBytes 0 bytes
      lzfse := lzfseAtInit s.hdr tabs (sourceBytes s.hdr.nLiteralPayloadBytes s)
        ((s.src.drop (s.spos + s.hdr.nLiteralPayloadBytes)).take s.hdr.nLmdPayloadBytes) lanes brLit brLmd
      L := 0, M := 0, D := 0
      blk := ⟨s.hdr.nRawBytes, 0⟩
      active := kind
      phase := .idle } := by
  have hchecked : checkLiteralCount s.hdr.nLiterals = .ok () := if_neg (by rw [Config.literalsPerBlock]; omega)
  rw [initLzfse, hchecked, raising_ok, htabs, raising_ok, reading_ok (by omega), reading_ok hsrc]
  change raising _ (literalDecode tabs.tlit (sourceBytes s.hdr.nLiteralPayloadBytes s) _ _ _) _ = _
  rw [hlit, raising_ok]
  change raising _ (BitReader.init _ _) _ = _
  rw [hlmd]
  rfl

/-- Settles O9: the header read, the parser, and the block init on the record it gives. -/
theorem bvx1ParsesAndStarts : Obligations.Bvx1ParsesAndStarts := by
  refine fun s => ⟨fun hshort => by rw [exec]; exact faultTaken_readingHeader hshort, fun r hsrc hp => ?_,
    fun h hsrc hp => ?_, ?_⟩
  · rw [exec_bvx1_header hsrc, hp]
    exact faultTaken_raise r
  · rw [exec_bvx1_header hsrc, hp]
    rfl
  · intro h tabs bytes lanes brLit brLmd lp lmdp hsrc hp hn h4 htabs hlit hlmd
    rw [exec_bvx1_header (by omega), hp]
    exact initLzfse_started ⟨hn, h4⟩ htabs hsrc hlit hlmd

/-- The first 28 bytes of a V2 header give no weights yet (R181). -/
theorem parseV2Prefix_weights {capacity n : Nat} {hs : List Byte} {h : Header}
    (hp : parseV2Prefix capacity hs = .ok (h, n)) : h.weights = List.replicate 360 0 := by
  rw [parseV2Prefix_eq] at hp
  split_ifs at hp
  cases hp
  rfl

/-- Settles O10: the first 28 bytes read and checked, then the blob read, and its length decides how the instruction
goes on. -/
theorem bvx2ParsesAndStarts : Obligations.Bvx2ParsesAndStarts := by
  refine fun s => ⟨fun hshort => by rw [exec]; exact faultTaken_readingHeader hshort, fun r hsrc hp => ?_,
    fun h n hsrc hp => ⟨fun hshort => ?_, ?_, ?_⟩⟩
  · rw [exec_bvx2_header hsrc, hp]
    exact faultTaken_raise r
  · rw [exec_bvx2_header hsrc, hp, raising_ok, reading_short (s := headerRead 28 s) hshort]
    exact faultTaken_raise .t01
  · intro hblob hpos
    have hscratch : sourceBytes (28 + n) s = sourceBytes 28 s ++ (s.src.drop (s.spos + 28)).take n := by
      simp only [sourceBytes, List.take_add, List.drop_drop]
    rw [exec_bvx2_header hsrc, hp, raising_ok, reading_ok (s := headerRead 28 s) hblob, if_neg (by omega), hscratch]
    rfl
  · rintro rfl
    rw [exec_bvx2_header hsrc, hp, raising_ok, reading_ok (s := headerRead 28 s) hsrc, if_pos rfl]
    exact ⟨parseV2Prefix_weights hp, rfl⟩

/-- Settles O11: the header read, the two signed counts checked, the payload read. -/
theorem bvxnStartsBlock : Obligations.BvxnStartsBlock := by
  refine fun s => ⟨fun hshort => by rw [exec]; exact faultTaken_readingHeader hshort,
    fun nRaw nPay hsrc hraw hpay => ?_⟩
  have hp : parseLzvn (sourceBytes 8 s) =
      if nRaw < 0 ∨ nPay < 0 then .error .f02 else .ok (nRaw.toNat, nPay.toNat) := by
    rw [hraw, hpay]
    rfl
  rw [exec_bvxn_header hsrc, hp]
  refine ⟨fun hneg => ?_, fun h0 h1 hshort => ?_, fun h0 h1 hblock => ?_⟩
  · rw [if_pos hneg]
    exact faultTaken_raise .f02
  · rw [if_neg (by omega), raising_ok, reading_short (by simp only [headerRead]; omega)]
    exact faultTaken_raise .t01
  · rw [if_neg (by omega), raising_ok, reading_ok (by simp only [headerRead]; omega)]
    rfl

/-- Settles O12: the header read, the signed count checked, the payload read. -/
theorem bvxRawStartsBlock : Obligations.BvxRawStartsBlock := by
  refine fun s => ⟨fun hshort => by rw [exec]; exact faultTaken_readingHeader hshort,
    fun nRaw hsrc hraw => ?_⟩
  have hp : parseRaw (sourceBytes 4 s) = if nRaw < 0 then .error .f02 else .ok nRaw.toNat := by
    rw [hraw]
    rfl
  rw [exec_bvxRaw_header hsrc, hp]
  refine ⟨fun hneg => ?_, fun h0 hshort => ?_, fun h0 hblock => ?_⟩
  · rw [if_pos hneg]
    exact faultTaken_raise .f02
  · rw [if_neg (by omega), raising_ok, reading_short (by simp only [headerRead]; omega)]
    exact faultTaken_raise .t01
  · rw [if_neg (by omega), raising_ok, reading_ok (by simp only [headerRead]; omega)]
    rfl

end Sys2Proof.Machine

/-! SUPPORT. The frequency codes one by one (R190 to R196), and `vlcDecode` as a run of the model's finer steps
(R181, R182, R185; log 1). -/

namespace Sys2Proof.Machine

/-! ### One code -/

/-- A code form takes its width and appends its weight, or faults F04 (R182, R184). -/
theorem vlcCodeDoes_of_level {i : Instr} (hl : i.level = .vlc) : VlcCodeDoes i (vlcWidth i) (vlcValue i) := by
  intro s
  rw [exec_vlc hl]
  rcases takeCode_cases (vlcWidth i) (vlcValue i) s with ⟨hshort, he⟩ | ⟨hheld, he⟩ <;> rw [he]
  · exact ⟨fun _ => faultTaken_raise .f04, fun h => absurd h (Nat.not_le.mpr hshort)⟩
  · refine ⟨fun h => absurd h (Nat.not_lt.mpr hheld), fun _ => ?_⟩
    rw [Nat.shiftRight_eq_div_pow]

/-- The low bits of the window select the form (R99, R183). -/
theorem decodeVlc_of_toNat_mod {i : Instr} {c : BitVec 14} (hl : i.level = .vlc)
    (h : c.toNat % 2 ^ vlcWidth i = vlcCode i) : decodeVlc c = i := by
  rw [← decodeVlc_of_mod hl h, BitVec.ofNat_toNat, BitVec.setWidth_eq]

/-- The form `V4_7` and its operand (R194). -/
theorem decodeVlc_v4to7 {c : BitVec 14} (h : c.toNat % 8 = 0b011) :
    ∃ x, decodeVlc c = .v4to7 x ∧ x.toNat = bitField c.toNat 3 2 := by
  refine ⟨BitVec.ofNat 2 (c.toNat / 8), decodeVlc_of_toNat_mod rfl ?_, rfl⟩
  rw [vlcCode_v4to7, vlcWidth, BitVec.toNat_ofNat]
  omega

/-- The form `V8_23` and its operand (R195). -/
theorem decodeVlc_v8to23 {c : BitVec 14} (h : c.toNat % 16 = 0b0111) :
    ∃ x, decodeVlc c = .v8to23 x ∧ x.toNat = bitField c.toNat 4 4 := by
  refine ⟨BitVec.ofNat 4 (c.toNat / 16), decodeVlc_of_toNat_mod rfl ?_, rfl⟩
  rw [vlcCode_v8to23, vlcWidth, BitVec.toNat_ofNat]
  omega

/-- The form `V24_1047` and its operand (R196). -/
theorem decodeVlc_v24to1047 {c : BitVec 14} (h : c.toNat % 16 = 0b1111) :
    ∃ x, decodeVlc c = .v24to1047 x ∧ x.toNat = bitField c.toNat 4 10 := by
  refine ⟨BitVec.ofNat 10 (c.toNat / 16), decodeVlc_of_toNat_mod rfl ?_, rfl⟩
  rw [vlcCode_v24to1047, vlcWidth, BitVec.toNat_ofNat]
  omega

/-- Settles O16: a form's effect is its width and weight, and its code's bits select it. -/
theorem frequencyCodes : Obligations.FrequencyCodes := by
  refine ⟨⟨vlcCodeDoes_of_level rfl, fun c h => ?_⟩, ⟨vlcCodeDoes_of_level rfl, fun c h => ?_⟩,
    ⟨vlcCodeDoes_of_level rfl, fun c h => ?_⟩, ⟨vlcCodeDoes_of_level rfl, fun c h => ?_⟩,
    ⟨fun x => vlcCodeDoes_of_level rfl, fun c => decodeVlc_v4to7⟩,
    ⟨fun x => vlcCodeDoes_of_level rfl, fun c => decodeVlc_v8to23⟩,
    ⟨fun x => vlcCodeDoes_of_level rfl, fun c => decodeVlc_v24to1047⟩⟩
  all_goals exact decodeVlc_of_toNat_mod rfl h

/-- Settles O18: a code that does not fault writes `vlcDecode`'s registers and nothing else. -/
theorem frequencyCodesFrame : Obligations.FrequencyCodesFrame := by
  intro i s t hl _ hexec
  rw [exec_vlc hl] at hexec
  rcases takeCode_cases (vlcWidth i) (vlcValue i) s with ⟨_, he⟩ | ⟨_, he⟩
  · cases he.symm.trans hexec
    exact ⟨rfl, rfl, nofun⟩
  · cases he.symm.trans hexec
    exact ⟨rfl, rfl, fun _ => ⟨rfl, rfl, fun _ => rfl, fun _ => rfl⟩⟩

/-! ### The whole blob -/

theorem Vlc.refill_weights (blob : List Byte) (n : Nat) (v : Vlc) : (Vlc.refill blob n v).weights = v.weights := by
  induction n generalizing v with
  | zero => rfl
  | succ n ih =>
    unfold Vlc.refill
    split
    · split
      · exact ih _
      · rfl
    · rfl

/-- The engine is inside a `bvx2`, at its frequency codes (log 1). -/
structure Decoding (s : State) : Prop where
  fault : s.fault = none
  eos : s.eos = false
  phase : s.phase = .vlc

theorem Decoding.busy {s : State} (h : Decoding s) : s.phase ≠ .idle := by
  rw [h.phase]
  nofun

/-- A step before the 360th weight runs a code (R182). -/
theorem step_code {s : State} (h : Decoding s) (hn : s.vlc.weights.length < Config.nWeights) :
    step s = exec (decodeVlc (vlcWindow (vlcRefilled s).vlc)) (vlcRefilled s) := by
  simp [step, fetch, fetchCode, h.fault, h.eos, h.phase, hn]

/-- The step after the 360th weight ends the `bvx2` (R185). -/
theorem step_finishV2 {s : State} (h : Decoding s) (hn : Config.nWeights ≤ s.vlc.weights.length) :
    step s = finishV2 s := by
  simp [step, fetch, fetchCode, h.fault, h.eos, h.phase, Nat.not_lt.mpr hn]

/-- The step that takes a code is one iteration of R182's loop. -/
theorem step_code_eq {s : State} (h : Decoding s) (hn : s.vlc.weights.length < Config.nWeights) :
    step s = raising (vlcRefilled s)
      ((vlcRefilled s).vlc.take (vlcWidth (decodeVlc (vlcWindow (vlcRefilled s).vlc)))
        (vlcValue (decodeVlc (vlcWindow (vlcRefilled s).vlc)))) fun v => .next { s with vlc := v } := by
  rw [step_code h hn, exec_vlc (decodeVlc_level _)]
  rfl

/-- A run to the boundary that its next step ends. -/
theorem finishStep_last {s t : State} {n : Nat} (h : s.phase ≠ .idle) (hs : step s = .next t) (ht : t.phase = .idle) :
    finishStep (n + 1) s = .next t := by
  rw [finishStep_busy n s t h hs, finishStep_idle n t ht]

theorem Vlc.take_weights {width value : Nat} {v v' : Vlc} (h : v.take width value = .ok v') :
    v'.weights = v.weights ++ [value] := by
  unfold Vlc.take at h
  split at h <;> cases h
  rfl

/-- A run of the model's finer steps is a run of R182's loop: it comes to the same registers, or it ends in the
loop's fault. -/
theorem finishStep_vlcLoop (n fuel : Nat) {s : State} (h : Decoding s)
    (hn : s.vlc.weights.length + n ≤ Config.nWeights) :
    (∀ v, vlcLoop (vlcBlob s) n s.vlc = .ok v → v.weights.length = s.vlc.weights.length + n ∧
      finishStep (n + fuel) s = finishStep fuel { s with vlc := v }) ∧
    ∀ r, vlcLoop (vlcBlob s) n s.vlc = .error r → FaultTaken s s.spos r (finishStep (n + fuel) s) := by
  induction n generalizing s with
  | zero =>
    refine ⟨fun v hv => ?_, nofun⟩
    cases hv
    exact ⟨rfl, by rw [Nat.zero_add]⟩
  | succ n ih =>
    have hstep := step_code_eq h (by omega)
    rw [show n + 1 + fuel = n + fuel + 1 by omega, vlcLoop, ← vlcRefilled_vlc]
    cases htake : (vlcRefilled s).vlc.take _ _ with
    | error e =>
      rw [htake, raising_error] at hstep
      refine ⟨nofun, fun r hr => ?_⟩
      cases hr
      rw [finishStep_last h.busy hstep rfl]
      exact faultTaken_raise e
    | ok v' =>
      rw [htake, raising_ok] at hstep
      rw [finishStep_busy _ s _ h.busy hstep]
      have hw : v'.weights.length = s.vlc.weights.length + 1 := by
        rw [Vlc.take_weights htake, vlcRefilled_vlc, Vlc.refill_weights, List.length_append, List.length_singleton]
      obtain ⟨hok, herror⟩ :=
        ih (s := { s with vlc := v' }) ⟨h.fault, h.eos, h.phase⟩ (by simp only [hw]; omega)
      refine ⟨fun v hv => ?_, herror⟩
      obtain ⟨hlen, hrun⟩ := hok v hv
      exact ⟨by simp only [hw] at hlen; omega, hrun⟩

theorem initLzfse_phase {kind : BlockKind} {s t : State} (h : initLzfse kind s = .next t) : t.phase = .idle := by
  rcases initLzfse_cases h with ⟨_, _, rfl, _⟩ | ⟨_, _, _, _, _, _, _, _, _, _, _, _, _, _, rfl⟩ <;> rfl

/-- A `bvx2` ends at the boundary, in a next state (R302: a raise is one). -/
theorem finishV2_ends (s : State) : ∃ t, finishV2 s = .next t ∧ t.phase = .idle := by
  unfold finishV2
  cases s.vlc.finish (vlcBlob s).length with
  | error r => exact ⟨_, rfl, rfl⟩
  | ok ws =>
    obtain ⟨t, ht⟩ := initLzfse_isNext .v2 { s with hdr := { s.hdr with weights := ws } }
    exact ⟨t, ht, initLzfse_phase ht⟩

/-- After the 360th weight one more step ends the run (R185). -/
theorem finishStep_finishV2 {s : State} {n : Nat} (h : Decoding s) (hn : Config.nWeights ≤ s.vlc.weights.length) :
    finishStep (n + 1) s = finishV2 s := by
  obtain ⟨t, ht, hidle⟩ := finishV2_ends s
  rw [finishStep_last h.busy ((step_finishV2 h hn).trans ht) hidle, ht]

/-- The end checks' faults, and the block init once they pass (R185). -/
theorem finishV2_effect (s : State) :
    (∀ r, s.vlc.finish (vlcBlob s).length = .error r → FaultTaken s s.spos r (finishV2 s)) ∧
    ∀ ws, s.vlc.finish (vlcBlob s).length = .ok ws →
      finishV2 s = initLzfse .v2 { s with hdr := { s.hdr with weights := ws } } := by
  unfold finishV2
  refine ⟨fun r h => ?_, fun ws h => ?_⟩ <;> rw [h]
  · exact faultTaken_raise r
  · rfl

/-- A run from the start of the codes is `vlcDecode`, and then the block init (R181, R182, R185). -/
theorem finishStep_vlcDecode {s : State} (h : Decoding s) (hstart : s.vlc = ⟨0, 0, 0, []⟩) (fuel : Nat) :
    (∀ ws, vlcDecode (vlcBlob s) = .ok ws → ∃ v, v.weights = ws ∧
      finishStep (Config.nWeights + (fuel + 1)) s =
        initLzfse .v2 { s with vlc := v, hdr := { s.hdr with weights := ws } }) ∧
    ∀ r, vlcDecode (vlcBlob s) = .error r →
      FaultTaken s s.spos r (finishStep (Config.nWeights + (fuel + 1)) s) := by
  obtain ⟨hok, herror⟩ := finishStep_vlcLoop Config.nWeights (fuel + 1) h (by simp [hstart])
  rw [hstart] at hok herror
  unfold vlcDecode
  cases hloop : vlcLoop (vlcBlob s) Config.nWeights ⟨0, 0, 0, []⟩ with
  | error e =>
    refine ⟨nofun, fun r hr => ?_⟩
    cases hr
    exact herror e hloop
  | ok v =>
    obtain ⟨hlen, hrun⟩ := hok v hloop
    have hdone : Decoding { s with vlc := v } := ⟨h.fault, h.eos, h.phase⟩
    rw [hrun, finishStep_finishV2 hdone (by simp only [hlen]; exact Nat.le_add_left _ _)]
    obtain ⟨hfault, hinit⟩ := finishV2_effect { s with vlc := v }
    refine ⟨fun ws hf => ?_, hfault⟩
    obtain ⟨_, _, _, hws⟩ := Vlc.finish_ok hf
    exact ⟨v, hws.symm, hinit ws hf⟩

/-- Settles O15: the finer steps are R182's loop, and the step after them is its end. -/
theorem v2EngineStepDecodesBlob : Obligations.V2EngineStepDecodesBlob := by
  refine ⟨fun s hf he hp hn => ?_, fun s t hstep _ hvlc => ?_, fun s fuel hf he hp hvlc hfuel => ?_⟩
  · obtain ⟨hfault, hinit⟩ := finishV2_effect s
    rw [step_finishV2 ⟨hf, he, hp⟩ hn.ge]
    refine ⟨fun h => hfault _ (if_pos h), fun h0 h8 hu => hfault _ ?_, fun h0 h8 hu => hinit _ ?_⟩
    · exact (if_neg (by omega)).trans (if_pos hu)
    · exact (if_neg (by omega)).trans (if_neg (not_not.mpr hu))
  · refine ⟨stepBound t, ?_, by rw [engineStep, hstep]⟩
    simp only [stepBound, hvlc, List.length_nil, Config.nWeights]
    omega
  · obtain ⟨k, rfl⟩ := Nat.exists_eq_add_of_le hfuel
    rw [show 361 + k = Config.nWeights + (k + 1) by simp only [Config.nWeights]; omega]
    exact finishStep_vlcDecode ⟨hf, he, hp⟩ hvlc k

end Sys2Proof.Machine

/-! SUPPORT. The 766 bytes of a V1 header: their layout written and read back, and the checks (R83, R84, R175 to
R178). -/

namespace Sys2Proof.Machine

/-! ### Fields of a byte sequence -/

/-- A read past the bytes in front of a sequence (R13). -/
theorem memRead_append_right {a b : List Byte} {off : Nat} (n : Nat) (h : a.length ≤ off) :
    memRead (a ++ b) off n = memRead b (off - a.length) n := by
  rw [memRead, memRead, List.drop_append, List.drop_of_length_le h, List.nil_append]

theorem int32At_skip {n off : Nat} (v : Int) (rest : List Byte) (h : n ≤ off) :
    int32At (intBytes n v ++ rest) off = int32At rest (off - n) := by
  have hlen := intBytes_length n v
  rw [int32At, memRead_append_right 4 (hlen.trans_le h), hlen, int32At]

theorem int16At_skip {n off : Nat} (v : Int) (rest : List Byte) (h : n ≤ off) :
    int16At (intBytes n v ++ rest) off = int16At rest (off - n) := by
  have hlen := intBytes_length n v
  rw [int16At, memRead_append_right 2 (hlen.trans_le h), hlen, int16At]

theorem drop_skip {n off : Nat} (v : Int) (rest : List Byte) (h : n ≤ off) :
    (intBytes n v ++ rest).drop off = rest.drop (off - n) := by
  have hlen := intBytes_length n v
  rw [List.drop_append, List.drop_of_length_le (hlen.trans_le h), hlen, List.nil_append]

/-! ### The layout -/

/-- The ranges of the V1 fields: int32 and int16 (R83, R84). -/
structure V1Fits (r : RawV1) : Prop where
  words : ∀ v ∈ [r.nRawBytes, r.nPayloadBytes, r.nLiterals, r.nMatches, r.nLiteralPayloadBytes,
    r.nLmdPayloadBytes, r.literalBits, r.lmdBits], -2 ^ 31 ≤ v ∧ v < 2 ^ 31
  halves : ∀ v ∈ [r.literalState0, r.literalState1, r.literalState2, r.literalState3, r.lState, r.mState,
    r.dState] ++ r.weights, -2 ^ 15 ≤ v ∧ v < 2 ^ 15
  weightCount : r.weights.length = 360

theorem int16Bytes_length (ws : List Int) : (ws.flatMap (intBytes 2)).length = ws.length * 2 := by
  simp only [List.length_flatMap, intBytes_length, List.map_const', List.sum_replicate, smul_eq_mul]

theorem v1HeaderBytes_length {r : RawV1} (h : r.weights.length = 360) : (v1HeaderBytes r).length = 766 := by
  simp only [v1HeaderBytes, List.length_append, intBytes_length, int16Bytes_length, h]

/-- R83's fields at their offsets read back. -/
theorem readV1_v1HeaderBytes {r : RawV1} (h : V1Fits r) : readV1 (v1HeaderBytes r) = r := by
  have h32 {v : Int} (hv : -2 ^ 31 ≤ v ∧ v < 2 ^ 31) (rest : List Byte) : int32At (intBytes 4 v ++ rest) 0 = v :=
    int32_at [] rest v 0 rfl hv
  have h16 {v : Int} (hv : -2 ^ 15 ≤ v ∧ v < 2 ^ 15) (rest : List Byte) : int16At (intBytes 2 v ++ rest) 0 = v :=
    int16_at [] rest v 0 rfl hv
  have hw := h.words
  have hh := h.halves
  simp only [List.forall_mem_cons, List.cons_append, List.nil_append] at hw hh
  obtain ⟨hraw, hpay, hnlit, hmat, hlitPay, hlmdPay, hlitBits, hlmdBits, -⟩ := hw
  obtain ⟨hs0, hs1, hs2, hs3, hl, hm, hd, hweights⟩ := hh
  have htable : (r.weights.flatMap (intBytes 2)).length ≤ 720 := by
    rw [int16Bytes_length, h.weightCount]
  simp only [readV1, v1HeaderBytes, List.append_assoc, int32At_skip, int16At_skip, drop_skip, Nat.reduceLeDiff,
    Nat.reduceSub, h32 hraw, h32 hpay, h32 hnlit, h32 hmat, h32 hlitPay, h32 hlmdPay, h32 hlitBits, h32 hlmdBits,
    h16 hs0, h16 hs1, h16 hs2, h16 hs3, h16 hl, h16 hm, h16 hd, List.drop_zero, List.take_of_length_le htable,
    int16s_flat _ hweights]

/-- R176's check as a proposition. -/
theorem RawV1.negative_iff (r : RawV1) :
    r.negative = true ↔ r.nRawBytes < 0 ∨ r.nPayloadBytes < 0 ∨ r.nLiterals < 0 ∨ r.nMatches < 0 ∨
      r.nLiteralPayloadBytes < 0 ∨ r.nLmdPayloadBytes < 0 ∨ r.literalState0 < 0 ∨ r.literalState1 < 0 ∨
      r.literalState2 < 0 ∨ r.literalState3 < 0 ∨ r.lState < 0 ∨ r.mState < 0 ∨ r.dState < 0 ∨
      ∃ w ∈ r.weights, w < 0 := by
  simp only [RawV1.negative, Bool.or_eq_true, decide_eq_true_eq, List.any_eq_true, or_assoc]

/-- R177's check as a proposition. -/
theorem bitsOutOfRange_or_iff (a b : Int) :
    (bitsOutOfRange a || bitsOutOfRange b) = true ↔ ¬ (-7 ≤ a ∧ a ≤ 0 ∧ -7 ≤ b ∧ b ≤ 0) := by
  simp only [bitsOutOfRange, Bool.or_eq_true, decide_eq_true_eq]
  omega

/-- Settles O46: the layout reads back to its fields, and the checks run on them in order. -/
theorem v1HeaderRoundTrip : Obligations.V1HeaderRoundTrip := by
  intro r hwords hhalves hcount negative inRange
  have hparse : parseV1 (v1HeaderBytes r) = checkV1 r :=
    congrArg checkV1 (readV1_v1HeaderBytes ⟨hwords, hhalves, hcount⟩)
  have hneg : r.negative = true ↔ negative := r.negative_iff
  have hbits : (bitsOutOfRange r.literalBits || bitsOutOfRange r.lmdBits) = true ↔ ¬ inRange :=
    bitsOutOfRange_or_iff _ _
  rw [hparse]
  unfold checkV1
  refine ⟨v1HeaderBytes_length hcount, fun hn => ?_, fun hn hr => ?_, fun hn hr hsum => ?_, fun hn hr hsum => ?_⟩
  · rw [if_pos (hneg.mpr hn)]
  · rw [if_neg (mt hneg.mp hn), if_pos (hbits.mpr hr)]
  · rw [if_neg (mt hneg.mp hn), if_neg (mt hbits.mp (not_not.mpr hr)), if_pos hsum]
  · rw [if_neg (mt hneg.mp hn), if_neg (mt hbits.mp (not_not.mpr hr)), if_neg (not_not.mpr hsum)]
    rfl

end Sys2Proof.Machine

/-! SUPPORT. One step of a live block (R210, R277), and FETCH_NEXT with a triple: the D update, the checks in their
order, the triple taken (R213, R215, R216, R221). -/

namespace Sys2Proof.Machine

/-! ### The step of a live block -/

section
variable {s t : State} (hr : Ready s) (ha : s.active ≠ .noBlock)
include hr ha

/-- A literal where one is left, then a match byte where one is left, then FETCH_NEXT (R210). -/
theorem fetch_live : fetch s =
    if 0 < s.L then emitted (emitLiteral s) else if 0 < s.M then emitted (emitMatch s) else fetchNext s := by
  obtain ⟨hfault, heos, hphase⟩ := hr
  cases hk : s.active with
  | noBlock => exact absurd hk ha
  | v1 | v2 | lzvn | raw => simp only [fetch, hfault, heos, hphase, hk, Bool.false_eq_true, if_false]

theorem step_emitLiteral (hl : 0 < s.L) (h : emitLiteral s = .ok t) : step s = .next t := by
  rw [step, fetch_live hr ha, if_pos hl, h]
  rfl

theorem step_emitMatch (hl : s.L = 0) (hm : 0 < s.M) (h : emitMatch s = .ok t) : step s = .next t := by
  rw [step, fetch_live hr ha, if_neg (by omega), if_pos hm, h]
  rfl

theorem fetch_eq_fetchNext (hl : s.L = 0) (hm : s.M = 0) : fetch s = fetchNext s := by
  rw [fetch_live hr ha, if_neg (by omega), if_neg (by omega)]

end

theorem BlockKind.ne_noBlock_of_isLzfse {k : BlockKind} (h : k.isLzfse = true) : k ≠ .noBlock := by
  rintro rfl
  cases h

theorem step_fetchLzfse {s : State} (hr : Ready s) (ha : s.active.isLzfse = true) (hl : s.L = 0) (hm : s.M = 0) :
    step s = .next (fetchLzfse s) := by
  rw [step, fetch_eq_fetchNext hr (BlockKind.ne_noBlock_of_isLzfse ha) hl hm, fetchNext]
  cases hk : s.active with
  | v1 | v2 => rfl
  | noBlock | lzvn | raw => rw [hk] at ha; cases ha

/-- The triples of a raw block are always NONE (R224). -/
theorem step_rawDone {s : State} (hr : Ready s) (ha : s.active = .raw) (hl : s.L = 0) (hm : s.M = 0) :
    step s = .next (blockDone s) := by
  rw [step, fetch_eq_fetchNext hr (ha ▸ nofun) hl hm, fetchNext, ha]

/-! ### Emission -/

/-- With a literal left the step writes the strategy's next one (R211). -/
theorem step_literal {s : State} (hr : Ready s) (h : BlockOk s) (ha : s.active ≠ .noBlock) (hl : 0 < s.L) :
    ∃ b u, nextLiteral s = .ok (b, u) ∧ step s = .next { ringWrite b u with L := s.L - 1 } := by
  obtain ⟨⟨b, u⟩, hnext⟩ := nextLiteral_isOk ha hl h
  exact ⟨b, u, hnext, step_emitLiteral hr ha hl (by rw [emitLiteral, hnext])⟩

/-- Settles O35: the block's account places the literal in its buffer or payload, and the match byte in the ring. -/
theorem lmdStepEmitsOneByte : Obligations.LmdStepEmitsOneByte := by
  refine fun s hr hi => ⟨fun ha hl => ?_, fun ha hl => ?_, fun ha hl => ?_, fun ha hl hm => ?_⟩
  · obtain ⟨b, u, hnext, hstep⟩ := step_literal hr hi.block (BlockKind.ne_noBlock_of_isLzfse ha) hl
    rcases nextLiteral_cases hnext with ⟨_, hb, rfl⟩ | ⟨hk, _⟩ | ⟨hk, _⟩
    · exact ⟨b, hb, hstep⟩
    · rw [hk] at ha; cases ha
    · rw [hk] at ha; cases ha
  · obtain ⟨b, u, hnext, hstep⟩ := step_literal hr hi.block (ha ▸ nofun) hl
    rcases nextLiteral_cases hnext with ⟨hk, _⟩ | ⟨_, hb, rfl⟩ | ⟨hk, _⟩
    · rw [ha] at hk; cases hk
    · exact ⟨b, hb, hstep⟩
    · rw [ha] at hk; cases hk
  · obtain ⟨b, u, hnext, hstep⟩ := step_literal hr hi.block (ha ▸ nofun) hl
    rcases nextLiteral_cases hnext with ⟨hk, _⟩ | ⟨hk, _⟩ | ⟨_, hb, rfl⟩
    · rw [ha] at hk; cases hk
    · rw [ha] at hk; cases hk
    · exact ⟨b, hb, hstep⟩
  · obtain ⟨h1, hd, hsize⟩ := hi.block.distance ha hm
    obtain ⟨b, hb, hmatch⟩ := matchCopiesOutput s s.D hi.ring h1 hsize (by omega)
    have ⟨htotal, _, _⟩ := hi.ring
    exact ⟨b, htotal ▸ hb, step_emitMatch hr ha hl hm (by rw [emitMatch, hmatch])⟩

/-! ### A triple -/

theorem updateD_eq (newD : Nat) (s : State) : updateD newD s = { s with D := heldAfter newD s } := by
  unfold updateD heldAfter
  split <;> rfl

/-- The checks of a fetched triple in their order, R221's first, and the triple taken (R213, R215, R216). -/
theorem acceptTriple_inOrder (tr : Triple) (s : State) :
    (s.active.isLzfse = true → s.lzfse.nLiterals < s.lzfse.litPos + tr.l →
      FaultTaken s s.spos .f16 (.next (acceptTriple tr s))) ∧
    ((s.active.isLzfse = true → s.lzfse.litPos + tr.l ≤ s.lzfse.nLiterals) →
      (s.blk.nRaw < s.blk.out + tr.l + tr.m → FaultTaken s s.spos .f18 (.next (acceptTriple tr s))) ∧
      (s.blk.out + tr.l + tr.m ≤ s.blk.nRaw → BadDistance tr.l tr.m tr.newD s →
        FaultTaken s s.spos .f17 (.next (acceptTriple tr s))) ∧
      (s.blk.out + tr.l + tr.m ≤ s.blk.nRaw → ¬ BadDistance tr.l tr.m tr.newD s →
        acceptTriple tr s = { s with L := tr.l, M := tr.m, D := heldAfter tr.newD s })) := by
  have hraise : ∀ r, tripleFault tr.l tr.m (updateD tr.newD s) = some r →
      FaultTaken s s.spos r (.next (acceptTriple tr s)) := fun r h => by
    rw [acceptTriple, h]
    exact faultTaken_raise r (updateD_out ..) (updateD_spos ..)
  have htaken : tripleFault tr.l tr.m (updateD tr.newD s) = none →
      acceptTriple tr s = { s with L := tr.l, M := tr.m, D := heldAfter tr.newD s } := fun h => by
    rw [acceptTriple, h, updateD_eq]
  rw [updateD_eq, tripleFault] at hraise htaken
  refine ⟨fun hz hlit => hraise _ (if_pos ⟨hz, hlit⟩), fun hlit => ?_⟩
  have hpass : ¬ (s.active.isLzfse = true ∧ s.lzfse.nLiterals < s.lzfse.litPos + tr.l) := fun ⟨hz, hover⟩ =>
    absurd (hlit hz) (Nat.not_le.mpr hover)
  rw [if_neg hpass] at hraise htaken
  refine ⟨fun hcount => hraise _ (if_pos hcount), fun hcount hbad => hraise _ ?_, fun hcount hgood => htaken ?_⟩
  · exact (if_neg (Nat.not_lt.mpr hcount)).trans (if_pos hbad)
  · exact (if_neg (Nat.not_lt.mpr hcount)).trans (if_neg hgood)

/-- What a triple decode leaves of the registers (R220). -/
theorem decodeTriple_keeps {z z' : Lzfse} {tr : Triple} (h : decodeTriple z = .ok (tr, z')) :
    z'.nLiterals = z.nLiterals ∧ z'.litPos = z.litPos ∧ z'.remaining = z.remaining - 1 := by
  unfold decodeTriple at h
  repeat (split at h; · cases h)
  cases h
  exact ⟨rfl, rfl, rfl⟩

/-- Settles O36: the decode leaves what the literal check reads, and a triple is accepted by its checks in order. -/
theorem lzfseFetchInOrder : Obligations.LzfseFetchInOrder := by
  intro s hr ha hl hm
  rw [step_fetchLzfse hr ha hl hm, fetchLzfse]
  refine ⟨fun h0 => by rw [if_pos h0], fun hpos => ?_⟩
  rw [if_neg hpos.ne']
  refine ⟨fun r hd => ?_, fun tr z hd => ?_⟩ <;> rw [hd]
  · exact faultTaken_raise r
  · obtain ⟨hcount, hlitPos, hremaining⟩ := decodeTriple_keeps hd
    obtain ⟨hf16, hchecked⟩ := acceptTriple_inOrder tr { s with lzfse := z }
    simp only [hcount, hlitPos] at hf16 hchecked
    refine ⟨hf16 ha, fun hlit => (hchecked fun _ => hlit).1, fun hlit => (hchecked fun _ => hlit).2.1,
      fun hlit hroom hgood => congrArg _ ((hchecked fun _ => hlit).2.2 hroom hgood), hremaining, hlitPos⟩

end Sys2Proof.Machine

/-! SUPPORT. `initLZFSE` check by check (R217, R218), and the literal decoder quad by quad (R140). -/

namespace Sys2Proof.Machine

/-! ### The checks of `initLZFSE` -/

theorem checkLiteralCount_pass {n : Nat} (hn : n ≤ 40000) (h4 : n % 4 = 0) : checkLiteralCount n = .ok () :=
  if_neg (by rw [Config.literalsPerBlock]; omega)

section
variable {kind : BlockKind} {s : State} {r : Reason}

theorem initLzfse_countFault (h : 40000 < s.hdr.nLiterals ∨ s.hdr.nLiterals % 4 ≠ 0) :
    FaultTaken s s.spos .f15 (initLzfse kind s) := by
  have hcount : checkLiteralCount s.hdr.nLiterals = .error .f15 := if_pos h
  rw [initLzfse, hcount]
  exact faultTaken_raise .f15

section
variable (hn : s.hdr.nLiterals ≤ 40000) (h4 : s.hdr.nLiterals % 4 = 0)
include hn h4

theorem initLzfse_buildFault (h : buildTables s.hdr.weights = .error r) :
    FaultTaken s s.spos r (initLzfse kind s) := by
  rw [initLzfse, checkLiteralCount_pass hn h4, raising_ok, h]
  exact faultTaken_raise r

section
variable {tabs : TableSet} (htabs : buildTables s.hdr.weights = .ok tabs)
include htabs

theorem initLzfse_literalsShort (h : s.src.length < s.spos + s.hdr.nLiteralPayloadBytes) :
    FaultTaken s s.spos .t01 (initLzfse kind s) := by
  rw [initLzfse, checkLiteralCount_pass hn h4, raising_ok, htabs, raising_ok, reading_short h]
  exact faultTaken_raise .t01

theorem initLzfse_lmdShort (hlp : s.spos + s.hdr.nLiteralPayloadBytes ≤ s.src.length)
    (h : s.src.length < s.spos + s.hdr.nLiteralPayloadBytes + s.hdr.nLmdPayloadBytes) :
    FaultTaken s (s.spos + s.hdr.nLiteralPayloadBytes) .t01 (initLzfse kind s) := by
  rw [initLzfse, checkLiteralCount_pass hn h4, raising_ok, htabs, raising_ok, reading_ok hlp, reading_short h]
  exact faultTaken_raise .t01

section
variable (hsrc : s.spos + s.hdr.nLiteralPayloadBytes + s.hdr.nLmdPayloadBytes ≤ s.src.length)
include hsrc

theorem initLzfse_literalFault
    (h : literalDecode tabs.tlit (sourceBytes s.hdr.nLiteralPayloadBytes s) s.hdr.literalBits s.hdr.nLiterals
      s.hdr.literalState = .error r) :
    FaultTaken s (s.spos + s.hdr.nLiteralPayloadBytes + s.hdr.nLmdPayloadBytes) r (initLzfse kind s) := by
  rw [sourceBytes] at h
  rw [initLzfse, checkLiteralCount_pass hn h4, raising_ok, htabs, raising_ok, reading_ok (by omega), reading_ok hsrc]
  simp only [h]
  exact faultTaken_raise r

theorem initLzfse_readerFault {decoded : List Byte × Lanes × BitReader}
    (hlit : literalDecode tabs.tlit (sourceBytes s.hdr.nLiteralPayloadBytes s) s.hdr.literalBits s.hdr.nLiterals
      s.hdr.literalState = .ok decoded)
    (h : BitReader.init ((s.src.drop (s.spos + s.hdr.nLiteralPayloadBytes)).take s.hdr.nLmdPayloadBytes)
      s.hdr.lmdBits = .error r) :
    FaultTaken s (s.spos + s.hdr.nLiteralPayloadBytes + s.hdr.nLmdPayloadBytes) r (initLzfse kind s) := by
  rw [sourceBytes] at hlit
  rw [initLzfse, checkLiteralCount_pass hn h4, raising_ok, htabs, raising_ok, reading_ok (by omega), reading_ok hsrc]
  simp only [hlit, h, raising_ok]
  exact faultTaken_raise r

end
end
end
end

/-! ### The literal decoder -/

section
variable (tlit : List (Option Entry)) (lp : List Byte)

/-- A quad is one fill, then the transitions of the lanes 0 to 3 in order (R140): what an operation that starts with
the quad does, it does by these. -/
theorem literalQuad_runsNext {β : Type} {z : Lanes} {br : BitReader} {out : Except Reason β}
    {k : List Byte × Lanes × BitReader → Prop} (h : RunsNext (literalQuad tlit lp z br) out k) :
    RunsNext (br.fill lp) out fun b =>
    RunsNext (transition 1024 tlit z.s0 b) out fun (e0, t0, b0) =>
    RunsNext (transition 1024 tlit z.s1 b0) out fun (e1, t1, b1) =>
    RunsNext (transition 1024 tlit z.s2 b1) out fun (e2, t2, b2) =>
    RunsNext (transition 1024 tlit z.s3 b2) out fun (e3, t3, b3) =>
    k ([e0.symbol, e1.symbol, e2.symbol, e3.symbol], ⟨t0, t1, t2, t3⟩, b3) := by
  obtain ⟨herr, hok⟩ := h
  unfold literalQuad Config.nStatesLit at herr hok
  refine ⟨fun r h => herr r (by rw [h]), fun b hfill => ?_⟩
  simp only [hfill] at herr hok
  refine ⟨fun r h => herr r (by rw [h]), fun (e0, t0, b0) h0 => ?_⟩
  simp only [h0] at herr hok
  refine ⟨fun r h => herr r (by rw [h]), fun (e1, t1, b1) h1 => ?_⟩
  simp only [h1] at herr hok
  refine ⟨fun r h => herr r (by rw [h]), fun (e2, t2, b2) h2 => ?_⟩
  simp only [h2] at herr hok
  exact ⟨fun r h => herr r (by rw [h]), fun (e3, t3, b3) h3 => hok _ (by rw [h3])⟩

/-- `4 * q` literals are `q` quads (R140). -/
theorem literalDecode_quads {q : Nat} {bits : Int} {z : Lanes} {br : BitReader} (h : BitReader.init lp bits = .ok br) :
    literalDecode tlit lp bits (4 * q) z = literalQuads tlit lp q z br := by
  rw [literalDecode, h, show (4 * q + 3) / 4 = q by omega]

theorem literalDecode_initFault {n : Nat} {bits : Int} {z : Lanes} {r : Reason}
    (h : BitReader.init lp bits = .error r) : literalDecode tlit lp bits n z = .error r := by
  rw [literalDecode, h]

/-- One quad more is decoded after the quads before it, its bytes behind theirs (R140). -/
theorem literalDecode_nextQuad (bits : Int) (z : Lanes) (q : Nat) :
    RunsNext (literalDecode tlit lp bits (4 * q) z) (literalDecode tlit lp bits (4 * (q + 1)) z)
      fun (bytes, z', br) =>
    RunsNext (literalQuad tlit lp z' br) (literalDecode tlit lp bits (4 * (q + 1)) z) fun (quad, z'', br') =>
    literalDecode tlit lp bits (4 * (q + 1)) z = .ok (bytes ++ quad, z'', br') := by
  cases hinit : BitReader.init lp bits with
  | error r =>
    rw [literalDecode_initFault tlit lp hinit, literalDecode_initFault tlit lp hinit]
    exact ⟨fun _ => id, nofun⟩
  | ok br =>
    rw [literalDecode_quads tlit lp hinit, literalDecode_quads tlit lp hinit, literalQuads_last]
    refine ⟨fun r h => by rw [h], fun (bytes, z', br') h => ?_⟩
    rw [h]
    exact ⟨fun r h => by simp only [h], fun (quad, z'', br'') h => by simp only [h]⟩

end

/-- Settles O14: each check of `initLZFSE` after those before it have passed, and the last quad of a literal decode
after the quads before it. -/
theorem lzfseInitInOrder : Obligations.LzfseInitInOrder := by
  refine ⟨fun kind s => ⟨initLzfse_countFault, fun hn h4 => ⟨fun r => initLzfse_buildFault hn h4,
      fun tabs htabs => ?_⟩⟩,
    fun tlit lp bits z => ⟨⟨fun r => literalDecode_initFault tlit lp, fun br => literalDecode_quads tlit lp (q := 0)⟩,
      fun q => ?_⟩⟩
  · refine ⟨initLzfse_literalsShort hn h4 htabs, initLzfse_lmdShort hn h4 htabs, fun hsrc =>
      ⟨fun r => initLzfse_literalFault hn h4 htabs hsrc, fun bytes lanes brLit hlit =>
        ⟨fun r => initLzfse_readerFault hn h4 htabs hsrc hlit, fun brLmd hlmd => ?_⟩⟩⟩
    have hcells (a : Nat) : (Memory.ofBytes 0 bytes).read a = bytes[a]? := by
      rw [Memory.read_ofBytes, if_pos (Nat.zero_le a), Nat.sub_zero]
    have hlen : bytes.length = s.hdr.nLiterals := by
      rw [literalDecode_length hlit]
      omega
    exact ⟨_, initLzfse_started ⟨hn, h4⟩ htabs hsrc hlit hlmd, rfl, rfl, rfl, rfl, rfl, rfl, rfl, rfl, rfl, rfl, hcells,
      hlen, rfl, rfl, rfl, rfl, rfl, rfl, rfl, rfl, rfl, rfl, rfl, rfl, rfl, rfl, rfl⟩
  · obtain ⟨herr, hok⟩ := literalDecode_nextQuad tlit lp bits z q
    refine ⟨herr, fun (bytes, z', br) h => ⟨?_, literalQuad_runsNext tlit lp (hok _ h)⟩⟩
    rw [literalDecode_length h]
    omega

end Sys2Proof.Machine

/-! SUPPORT. The end of a block (R214): no step but DONE at a met byte count leaves a live block's `active` NONE. -/

namespace Sys2Proof.Machine

/-- From `s` to `t` no block ends, or one ends at its byte count with no fault taken (R214). -/
def EndsAtCount (s t : State) : Prop :=
  t.active = s.active ∨ t.fault = s.fault ∧ s.blk.out = s.blk.nRaw ∧ t.blk = s.blk

theorem endsAtCount_blockDone (s : State) : EndsAtCount s (blockDone s) := by
  rcases blockDone_cases s with ⟨_, he⟩ | ⟨hcount, he⟩ <;> rw [he]
  · exact .inl rfl
  · exact .inr ⟨rfl, hcount, rfl⟩

theorem acceptTriple_active (tr : Triple) (s : State) : (acceptTriple tr s).active = s.active := by
  rcases acceptTriple_cases tr s with ⟨_, _, he⟩ | ⟨_, he⟩ <;> rw [he] <;> exact updateD_active ..

theorem endsAtCount_fetchLzfse (s : State) : EndsAtCount s (fetchLzfse s) := by
  unfold fetchLzfse
  split
  · exact endsAtCount_blockDone s
  split
  · exact .inl rfl
  · exact .inl (acceptTriple_active ..)

theorem endsAtCount_exec_lzvn {i : Instr} (hi : i.level = .lzvn) (s : State) :
    AllNext (EndsAtCount s) (exec i s) := by
  rcases exec_lzvn hi s with ⟨n, tr, he⟩ | he | he | he <;> rw [he]
  · rcases lzvnTriple_cases n tr s with ⟨_, he⟩ | ⟨_, he⟩ <;> rw [he]
    · exact allNext_next (.inl rfl)
    · exact allNext_next (.inl (acceptTriple_active ..))
  · exact allNext_next (.inl rfl)
  · exact allNext_next (endsAtCount_blockDone s)
  · exact allNext_next (.inl rfl)

/-- A step of a live block outside the frequency codes of a header. -/
theorem endsAtCount_step {s t : State} (ha : s.active ≠ .noBlock) (hp : s.phase ≠ .vlc) (h : step s = .next t) :
    EndsAtCount s t := by
  obtain ⟨_, ⟨_, rfl⟩ | ⟨_, hc⟩⟩ := step_cases h
  · exact .inl rfl
  cases hc with
  | code hv | finish hv => exact absurd hv hp
  | shortMagic _ hn | badMagic _ hn | magic _ hn => exact absurd hn ha
  | overrun _ _ _ he => exact .inl (he ▸ rfl)
  | opcode _ i hd he => exact endsAtCount_exec_lzvn (decodeLzvn_level hd) s _ he
  | literal _ _ _ he =>
    obtain ⟨_, hr⟩ := emitLiteral_ringWritten he
    exact .inl hr.active
  | matched _ _ _ _ he =>
    obtain ⟨_, hr⟩ := emitMatch_ringWritten he
    exact .inl hr.active
  | lzfse _ _ _ _ he => exact he ▸ endsAtCount_fetchLzfse s
  | rawDone _ _ _ _ he => exact he ▸ endsAtCount_blockDone s

/-- Settles O37: DONE compares the counts, and every other step of a live block keeps `active`. -/
theorem blockEndsAtItsByteCount : Obligations.BlockEndsAtItsByteCount := by
  refine ⟨fun s h => ?_, fun s h => if_neg (not_not.mpr h), fun s => step_rawDone, fun s t hf ha hstep hn hp => ?_⟩
  · rw [blockDone, if_pos h]
    rfl
  · rcases endsAtCount_step ha hp hstep with hkept | ⟨hfault, hcount, hblk⟩
    · exact absurd (hkept.symm.trans hn) ha
    · exact ⟨hfault.trans hf, hcount, hblk⟩

end Sys2Proof.Machine

/-! SUPPORT. The frames of the LZVN and of the block instructions: the registers each may write. -/

namespace Sys2Proof.Machine

/-! ### LZVN -/

/-- `OUT` and `spos` stay, and without a fault only `vpos`, `L`, `M`, `D`, `active` and the phase are written. -/
structure LzvnFrame (s t : State) : Prop where
  out : t.out = s.out
  spos : t.spos = s.spos
  writes : t.fault = none → t = { s with
    lzvn := { s.lzvn with vpos := t.lzvn.vpos }
    L := t.L
    M := t.M
    D := t.D
    active := t.active
    phase := t.phase }

theorem lzvnFrame_raise (s : State) (r : Reason) : LzvnFrame s (raise s r) :=
  ⟨rfl, rfl, nofun⟩

theorem lzvnFrame_blockDone (s : State) : LzvnFrame s (blockDone s) := by
  rcases blockDone_cases s with ⟨_, he⟩ | ⟨_, he⟩ <;> rw [he]
  · exact lzvnFrame_raise s .f18
  · exact ⟨rfl, rfl, fun _ => rfl⟩

/-- A triple accepted with the cursor at `vpos`. -/
theorem lzvnFrame_acceptTriple (s : State) (tr : Triple) (vpos : Nat) :
    LzvnFrame s (acceptTriple tr { s with lzvn := { s.lzvn with vpos := vpos }, phase := .idle }) := by
  rcases acceptTriple_cases tr { s with lzvn := { s.lzvn with vpos := vpos }, phase := .idle } with
    ⟨_, _, he⟩ | ⟨_, he⟩ <;> rw [he, updateD_eq]
  · exact ⟨rfl, rfl, nofun⟩
  · exact ⟨rfl, rfl, fun _ => rfl⟩

theorem lzvnFrame_exec {i : Instr} (hi : i.level = .lzvn) (s : State) : AllNext (LzvnFrame s) (exec i s) := by
  rcases exec_lzvn hi s with ⟨n, tr, he⟩ | he | he | he <;> rw [he]
  · rcases lzvnTriple_cases n tr s with ⟨_, he⟩ | ⟨_, he⟩ <;> rw [he]
    · exact allNext_next (lzvnFrame_raise s .f20)
    · exact allNext_next (lzvnFrame_acceptTriple s tr _)
  · exact allNext_next ⟨rfl, rfl, fun _ => rfl⟩
  · exact allNext_next (lzvnFrame_blockDone s)
  · exact allNext_next (lzvnFrame_raise s .f09)

/-- Settles O29, by the forms of an LZVN instruction: a triple, `nop`, the end of the block or a fault. -/
theorem lzvnInstructionsFrame : Obligations.LzvnInstructionsFrame := by
  intro i s t hi _ hexec
  obtain ⟨hout, hspos, hwrites⟩ := lzvnFrame_exec hi s t hexec
  refine ⟨hout, hspos, fun hf => ?_⟩
  have ht := hwrites hf
  have hmb : t.mb = s.mb := (congrArg State.mb ht :)
  have hlit : t.lit = s.lit := (congrArg State.lit ht :)
  exact ⟨ht, fun a => by rw [hmb], fun a => by rw [hlit]⟩

/-! ### Blocks -/

/-- The strategies' registers and `vlcDecode`'s are written by their own blocks' instructions alone. -/
structure StrategyFrame (i : Instr) (s t : State) : Prop where
  lzvn : i ≠ .bvxn → t.lzvn = s.lzvn
  raw : i ≠ .bvxRaw → t.raw = s.raw
  lzfse : i ≠ .bvx1 → i ≠ .bvx2 → t.lzfse = s.lzfse ∧ t.lit = s.lit
  vlc : i ≠ .bvx2 → t.vlc = s.vlc

/-- A raise keeps every strategy's registers. -/
theorem strategyFrame_raise (i : Instr) {s u : State} (r : Reason) (hlzvn : u.lzvn = s.lzvn := by rfl)
    (hraw : u.raw = s.raw := by rfl) (hlzfse : u.lzfse = s.lzfse := by rfl) (hlit : u.lit = s.lit := by rfl)
    (hvlc : u.vlc = s.vlc := by rfl) : StrategyFrame i s (raise u r) :=
  ⟨fun _ => hlzvn, fun _ => hraw, fun _ _ => ⟨hlzfse, hlit⟩, fun _ => hvlc⟩

/-- `initLZFSE` leaves the other strategies' registers and `vlcDecode`'s (R217). -/
theorem initLzfse_keeps (kind : BlockKind) (s : State) :
    AllNext (fun t => t.lzvn = s.lzvn ∧ t.raw = s.raw ∧ t.vlc = s.vlc) (initLzfse kind s) := by
  intro t ht
  rcases initLzfse_cases ht with ⟨_, _, rfl, _⟩ | ⟨_, _, _, _, _, _, _, _, _, _, _, _, _, _, rfl⟩ <;>
    exact ⟨rfl, rfl, rfl⟩

theorem strategyFrame_exec {i : Instr} (hi : i.level = .block) (s : State) :
    AllNext (StrategyFrame i s) (exec i s) := by
  cases i with
  | bvx1 =>
    unfold exec execBvx1
    refine allNext_readingHeader (fun _ => strategyFrame_raise _ _) fun _ => ?_
    refine allNext_raising (fun _ _ => strategyFrame_raise _ _) fun _ _ t ht => ?_
    obtain ⟨hlzvn, hraw, hvlc⟩ := initLzfse_keeps _ _ t ht
    exact ⟨fun _ => hlzvn, fun _ => hraw, fun hne => absurd rfl hne, fun _ => hvlc⟩
  | bvx2 =>
    unfold exec execBvx2
    refine allNext_readingHeader (fun _ => strategyFrame_raise _ _) fun _ => ?_
    refine allNext_raising (fun _ _ => strategyFrame_raise _ _) fun _ _ => ?_
    refine allNext_reading (fun _ => strategyFrame_raise _ _) fun _ => ?_
    split
    · intro t ht
      obtain ⟨hlzvn, hraw, _⟩ := initLzfse_keeps _ _ t ht
      exact ⟨fun _ => hlzvn, fun _ => hraw, fun _ hne => absurd rfl hne, fun hne => absurd rfl hne⟩
    · exact allNext_next ⟨fun _ => rfl, fun _ => rfl, fun _ hne => absurd rfl hne, fun hne => absurd rfl hne⟩
  | bvxn =>
    unfold exec execBvxn
    refine allNext_readingHeader (fun _ => strategyFrame_raise _ _) fun _ => ?_
    refine allNext_raising (fun _ _ => strategyFrame_raise _ _) fun _ _ => ?_
    refine allNext_reading (fun _ => strategyFrame_raise _ _) fun _ => ?_
    exact allNext_next ⟨fun hne => absurd rfl hne, fun _ => rfl, fun _ _ => ⟨rfl, rfl⟩, fun _ => rfl⟩
  | bvxRaw =>
    unfold exec execBvxRaw
    refine allNext_readingHeader (fun _ => strategyFrame_raise _ _) fun _ => ?_
    refine allNext_raising (fun _ _ => strategyFrame_raise _ _) fun _ _ => ?_
    refine allNext_reading (fun _ => strategyFrame_raise _ _) fun _ => ?_
    exact allNext_next ⟨fun _ => rfl, fun hne => absurd rfl hne, fun _ _ => ⟨rfl, rfl⟩, fun _ => rfl⟩
  | bvxEnd => exact allNext_next ⟨fun _ => rfl, fun _ => rfl, fun _ _ => ⟨rfl, rfl⟩, fun _ => rfl⟩
  | _ => cases hi

/-- A block instruction but `bvx$` reads on with `eos` kept, and `bvx$` changes `eos` alone (R271 to R275). -/
theorem exec_block_source {i : Instr} {s t : State} (hi : i.level = .block) (hexec : exec i s = .next t) :
    s.spos ≤ t.spos ∧ (i ≠ .bvxEnd → t.eos = s.eos) ∧ (i = .bvxEnd → t = { s with eos := true }) := by
  by_cases hend : i = .bvxEnd
  · subst hend
    cases hexec
    exact ⟨le_rfl, fun hne => absurd rfl hne, fun _ => rfl⟩
  · have hread := readsOn_exec_block hi hend (ReadsOn.refl s) t hexec
    exact ⟨hread.spos, fun _ => hread.eos, fun he => absurd he hend⟩

/-- Settles O30: no instruction writes the ring, the source is read on, and each strategy's registers are written by its
own block. -/
theorem blockInstructionsFrame : Obligations.BlockInstructionsFrame := by
  intro i s t hi _ hexec
  obtain ⟨hspos, heos, hbvxEnd⟩ := exec_block_source hi hexec
  have hring := exec_sameRing i s s ⟨rfl, rfl, rfl, rfl, rfl, rfl, rfl, rfl, .inl rfl⟩ t hexec
  obtain ⟨hlzvn, hraw, hlzfse, hvlc⟩ := strategyFrame_exec hi s t hexec
  refine ⟨hring.out, hspos, fun _ => ⟨hring.src, hring.ringSize, hring.tableCapacity, fun a => by rw [hring.mb],
    hring.mcur, hring.outTotal, heos, hlzvn, hraw, fun h1 h2 => ?_, hvlc, hbvxEnd⟩⟩
  obtain ⟨hregs, hlit⟩ := hlzfse h1 h2
  exact ⟨hregs, fun a => by rw [hlit]⟩

end Sys2Proof.Machine

/-! SUPPORT. What a step fetches: a magic at the boundary between blocks (R270), or an LZVN opcode (R241, R254). -/

namespace Sys2Proof.Machine

/-! ### Magics -/

/-- Between blocks the next step reads a magic (R277). -/
theorem fetch_eq_fetchMagic {s : State} (hr : Ready s) (ha : s.active = .noBlock) : fetch s = fetchMagic s := by
  obtain ⟨hfault, heos, hphase⟩ := hr
  simp only [fetch, hfault, heos, hphase, ha, Bool.false_eq_true, if_false]

/-- The four bytes of a magic are in the scratch when it is decoded (R81, R270). -/
theorem fetchMagic_read {s : State} (h : s.spos + 4 ≤ s.src.length) :
    fetchMagic s = runDecoded (decodeBlock (sourceBytes 4 s)) (headerRead 4 s) := by
  rw [fetchMagic, srcRead, if_pos h]
  rfl

/-! ### LZVN opcodes -/

theorem fetch_eq_fetchOpcode {s : State} (h : FetchesOpcode s) : fetch s = fetchOpcode s := by
  obtain ⟨hfault, heos, hphase | ⟨hphase, ha, hl, hm⟩⟩ := h
  · simp only [fetch, hfault, heos, hphase, Bool.false_eq_true, if_false]
  · rw [fetch_eq_fetchNext ⟨hfault, heos, hphase⟩ (ha ▸ nofun) hl hm, fetchNext, ha]

/-- The opcode at `vpos` is run (R241). -/
theorem step_opcode {s : State} {i : Instr} (h : FetchesOpcode s)
    (hd : decodeLzvn (s.lzvn.vp.drop s.lzvn.vpos) = .ok i) : step s = exec i s := by
  rw [step, fetch_eq_fetchOpcode h, fetchOpcode, hd]
  rfl

/-- A payload that ends inside an opcode is F20 (R254 a, b). -/
theorem step_opcodeOverrun {s : State} {e : DecodeError} (h : FetchesOpcode s)
    (hd : decodeLzvn (s.lzvn.vp.drop s.lzvn.vpos) = .error e) : step s = .next (raise s .f20) := by
  rw [step, fetch_eq_fetchOpcode h, fetchOpcode, hd, runDecoded, decodeReason_lzvn hd]

/-- Settles O5: at each of its four places the fetch hands the decoded instruction to `exec`. -/
theorem stepRunsDecodedInstruction : Obligations.StepRunsDecodedInstruction := by
  refine fun s i hf he => ⟨fun hp ha hsrc hd => ?_, fun hp ha hl hm => step_opcode ⟨hf, he, .inr ⟨hp, ha, hl, hm⟩⟩,
    fun hp => step_opcode ⟨hf, he, .inl hp⟩, fun hp hn hd => ?_⟩
  · rw [step, fetch_eq_fetchMagic ⟨hf, he, hp⟩ ha, fetchMagic_read hsrc, hd]
    rfl
  · subst hd
    exact step_code ⟨hf, he, hp⟩ hn

/-! ### Overrun -/

/-- Operand bytes that are not there (R254 b). -/
theorem lzvnFields_short {c : LzvnClass} {rest : List Byte} (op : Byte) (h : rest.length + 1 < lzvnLen c) :
    lzvnFields c op rest = .error .missingOperand := by
  cases c with
  | smlD | lrgL | lrgM =>
    match rest, h with
    | [], _ => rfl
    | _ :: _, h => exact absurd h (by simp [lzvnLen])
  | medD | lrgD =>
    match rest, h with
    | [], _ => rfl
    | [_], _ => rfl
    | _ :: _ :: _, h => exact absurd h (by simp [lzvnLen])
  | preD | smlL | smlM | nop | eos | udef => exact absurd h (by simp [lzvnLen])

/-- An LZVN instruction takes a triple, whose literals follow its own bytes, or is a single byte: a `nop`, `eos` or
`udef` (R103, R243 to R253). -/
theorem exec_lzvn_eq {i : Instr} (hl : i.level = .lzvn) :
    (∃ tr, tr.l = announcedLiterals i ∧ exec i = lzvnTriple (encodedLength i) tr) ∨
    encodedLength i = 1 ∧ announcedLiterals i = 0 ∧
      ((∃ op, i = .nop op) ∨ (exec i = fun s => .next (blockDone s)) ∨ exec i = fun s => .next (raise s .f09)) := by
  cases i with
  | smlD l m d => exact .inl ⟨fieldsSmlD l m d, rfl, rfl⟩
  | medD l m d => exact .inl ⟨fieldsMedD l m d, rfl, rfl⟩
  | lrgD l m d => exact .inl ⟨fieldsLrgD l m d, rfl, rfl⟩
  | preD l m => exact .inl ⟨fieldsPreD l m, rfl, rfl⟩
  | smlL l => exact .inl ⟨fieldsSmlL l, rfl, rfl⟩
  | lrgL l => exact .inl ⟨fieldsLrgL l, rfl, rfl⟩
  | smlM m => exact .inl ⟨fieldsSmlM m, rfl, rfl⟩
  | lrgM m => exact .inl ⟨fieldsLrgM m, rfl, rfl⟩
  | nop op => exact .inr ⟨rfl, rfl, .inl ⟨op, rfl⟩⟩
  | eos => exact .inr ⟨rfl, rfl, .inr (.inl rfl)⟩
  | udef op => exact .inr ⟨rfl, rfl, .inr (.inr rfl)⟩
  | _ => cases hl

/-- Where an instruction is decoded the payload has a byte. -/
theorem vpos_lt_of_decodeLzvn {vp : List Byte} {vpos : Nat} {i : Instr} (h : decodeLzvn (vp.drop vpos) = .ok i) :
    vpos < vp.length := by
  by_contra hend
  rw [List.drop_of_length_le (Nat.not_lt.mp hend)] at h
  cases h

/-- Literals announced past the payload's end are F20 (R254 c). -/
theorem exec_lzvn_overrun {i : Instr} {s : State} (hd : decodeLzvn (s.lzvn.vp.drop s.lzvn.vpos) = .ok i)
    (h : s.lzvn.vp.length < s.lzvn.vpos + encodedLength i + announcedLiterals i) :
    exec i s = .next (raise s .f20) := by
  have hvpos := vpos_lt_of_decodeLzvn hd
  rcases exec_lzvn_eq (decodeLzvn_level hd) with ⟨tr, htr, he⟩ | ⟨h1, h0, _⟩
  · rw [he, lzvnTriple, if_pos (htr ▸ h)]
  · omega

/-- Settles O28: the first two overruns stop the decoder, and the third the triple. -/
theorem lzvnOverrunFaults : Obligations.LzvnOverrunFaults := by
  refine fun s h => ⟨fun hend => ?_, fun op rest hdrop _ _ hshort => ?_, fun i hd hover => ?_⟩
  · rw [step_opcodeOverrun h (e := .missingOpcode) (by rw [List.drop_of_length_le hend, decodeLzvn])]
    exact faultTaken_raise .f20
  · rw [step_opcodeOverrun h (e := .missingOperand) (by rw [hdrop, decodeLzvn_cons, lzvnFields_short op hshort])]
    exact faultTaken_raise .f20
  · rw [step_opcode h hd, exec_lzvn_overrun hd hover]
    exact faultTaken_raise .f20

end Sys2Proof.Machine

/-! SUPPORT. The LZVN instructions with a triple (R243 to R250): the fields of their bytes and the checks in order. -/

namespace Sys2Proof.Machine

/-- A triple's instruction faults in the order of R306's row "LZVN fetch", or loads the triple (R213, R216, R254 c). -/
theorem lzvnOpcodeDoes_of_triple {i : Instr} {n : Nat} (tr : Triple) (h : exec i = lzvnTriple n tr) :
    LzvnOpcodeDoes i n tr.l tr.m tr.newD := by
  intro s ha
  rw [h]
  rcases lzvnTriple_cases n tr s with ⟨hover, he⟩ | ⟨hfits, he⟩ <;> rw [he]
  · have hno : ¬ s.lzvn.vpos + n + tr.l ≤ s.lzvn.vp.length := Nat.not_le.mpr hover
    exact ⟨fun _ => faultTaken_raise .f20, fun hf => absurd hf hno, fun hf => absurd hf hno, fun hf => absurd hf hno⟩
  · obtain ⟨_, hchecked⟩ := acceptTriple_inOrder tr
      { s with lzvn := { s.lzvn with vpos := s.lzvn.vpos + n }, phase := .idle }
    obtain ⟨hcount, hdistance, htaken⟩ := hchecked fun hz => by rw [ha] at hz; cases hz
    exact ⟨fun hover => absurd hover (Nat.not_lt.mpr hfits), fun _ => hcount, fun _ => hdistance,
      fun _ hroom hgood => congrArg _ (htaken hroom hgood)⟩

/-- A bit range of a word is R11's field of its value. -/
theorem toNat_extractLsb'_eq_bitField {w : Nat} (x : BitVec w) (lo width : Nat) :
    (x.extractLsb' lo width).toNat = bitField x.toNat lo width := by
  rw [BitVec.extractLsb'_toNat, Nat.shiftRight_eq_div_pow, bitField]

theorem one_le_toNat_of_bne {w : Nat} {x : BitVec w} (h : (x != 0) = true) : 1 ≤ x.toNat :=
  Nat.one_le_iff_ne_zero.mpr fun h0 => bne_iff_ne.mp h (BitVec.eq_of_toNat_eq h0)

/-- Settles O19: the fields of the two bytes; a decoded `smlD` is well formed, which bounds its distance. -/
theorem smlDEffect : Obligations.SmlDEffect := by
  obtain ⟨_, hcount, _⟩ := lzvnClassMap
  refine ⟨hcount, fun l m d => lzvnOpcodeDoes_of_triple (fieldsSmlD l m d) rfl, fun op b1 rest hc => ?_⟩
  have hd : decodeLzvn (op :: b1 :: rest) =
      .ok (.smlD (op.extractLsb' 6 2) (op.extractLsb' 3 3) (op.extractLsb' 0 3 ++ b1)) := by
    rw [decodeLzvn_cons, hc]; rfl
  obtain ⟨hw, _⟩ := decodeLzvn_ok hd
  simp only [Instr.wellFormed, Bool.and_eq_true, decide_eq_true_eq] at hw
  refine ⟨_, _, _, hd, toNat_extractLsb'_eq_bitField .., toNat_extractLsb'_eq_bitField .., ?_, Nat.le_of_lt_succ hw.2⟩
  rw [toNat_append_eq (op.extractLsb' 0 3) b1, toNat_extractLsb'_eq_bitField]

/-- Settles O20: the fields of the three bytes, and the opcodes with the upper bits 101. -/
theorem medDEffect : Obligations.MedDEffect := by
  refine ⟨fun l m d => lzvnOpcodeDoes_of_triple (fieldsMedD l m d) rfl, by decide, fun op b1 b2 rest hc => ?_⟩
  refine ⟨_, _, _, by rw [decodeLzvn_cons, hc]; rfl, toNat_extractLsb'_eq_bitField .., ?_, ?_⟩
  · rw [toNat_append_eq (op.extractLsb' 0 3) (b1.extractLsb' 0 2), toNat_extractLsb'_eq_bitField,
      toNat_extractLsb'_eq_bitField]
  · rw [toNat_append_eq b2 (b1.extractLsb' 2 6), toNat_extractLsb'_eq_bitField, Nat.add_comm]

/-- Settles O21: the fields of the three bytes. -/
theorem lrgDEffect : Obligations.LrgDEffect := by
  obtain ⟨_, _, _, _, hcount, _⟩ := lzvnClassMap
  refine ⟨hcount, by decide, fun l m d => lzvnOpcodeDoes_of_triple (fieldsLrgD l m d) rfl, fun op b1 b2 rest hc => ?_⟩
  refine ⟨_, _, _, by rw [decodeLzvn_cons, hc]; rfl, toNat_extractLsb'_eq_bitField ..,
    toNat_extractLsb'_eq_bitField .., ?_⟩
  rw [toNat_append_eq b2 b1, Nat.add_comm]

/-- Settles O22: the fields of the opcode; a decoded `preD` is well formed, so it has a literal. -/
theorem preDEffect : Obligations.PreDEffect := by
  obtain ⟨_, _, _, _, _, _, _, hcount, _⟩ := lzvnClassMap
  refine ⟨hcount, by decide, fun l m => lzvnOpcodeDoes_of_triple (fieldsPreD l m) rfl, fun op rest hc => ?_⟩
  have hd : decodeLzvn (op :: rest) = .ok (.preD (op.extractLsb' 6 2) (op.extractLsb' 3 3)) := by
    rw [decodeLzvn_cons, hc]; rfl
  obtain ⟨hw, _⟩ := decodeLzvn_ok hd
  simp only [Instr.wellFormed, Bool.and_eq_true] at hw
  exact ⟨_, _, hd, toNat_extractLsb'_eq_bitField .., toNat_extractLsb'_eq_bitField .., one_le_toNat_of_bne hw.2⟩

/-- Settles O23: the opcode's low nibble, which well-formedness keeps from 0. -/
theorem smlLEffect : Obligations.SmlLEffect := by
  refine ⟨fun l => lzvnOpcodeDoes_of_triple (fieldsSmlL l) rfl, by decide, fun op rest hc => ?_⟩
  have hd : decodeLzvn (op :: rest) = .ok (.smlL (op.extractLsb' 0 4)) := by rw [decodeLzvn_cons, hc]; rfl
  obtain ⟨hw, _⟩ := decodeLzvn_ok hd
  exact ⟨_, hd, toNat_extractLsb'_eq_bitField .., one_le_toNat_of_bne hw⟩

/-- Settles O24: one opcode, and its operand byte with the bias. -/
theorem lrgLEffect : Obligations.LrgLEffect := by
  refine ⟨fun l => lzvnOpcodeDoes_of_triple (fieldsLrgL l) rfl, fun op => ?_, fun b1 rest => rfl⟩
  rw [lzvnClass_eq_iff, opcodePattern, beq_iff_eq]

/-- Settles O25: the opcode's low nibble, which well-formedness keeps from 0. -/
theorem smlMEffect : Obligations.SmlMEffect := by
  refine ⟨fun m => lzvnOpcodeDoes_of_triple (fieldsSmlM m) rfl, by decide, fun op rest hc => ?_⟩
  have hd : decodeLzvn (op :: rest) = .ok (.smlM (op.extractLsb' 0 4)) := by rw [decodeLzvn_cons, hc]; rfl
  obtain ⟨hw, _⟩ := decodeLzvn_ok hd
  exact ⟨_, hd, toNat_extractLsb'_eq_bitField .., one_le_toNat_of_bne hw⟩

/-- Settles O26: one opcode, and its operand byte with the bias. -/
theorem lrgMEffect : Obligations.LrgMEffect := by
  refine ⟨fun m => lzvnOpcodeDoes_of_triple (fieldsLrgM m) rfl, fun op => ?_, fun b1 rest => rfl⟩
  rw [lzvnClass_eq_iff, opcodePattern, beq_iff_eq]

end Sys2Proof.Machine

/-! SUPPORT. The LZVN instructions without a triple (R251 to R253), and a run of `nop` opcodes inside one engine step
(R241; log 1). -/

namespace Sys2Proof.Machine

/-! ### A run of `nop` opcodes -/

/-- The state with `k` opcode bytes passed, in phase `p`. -/
def pastNops (k : Nat) (p : Phase) (s : State) : State :=
  { s with lzvn := { s.lzvn with vpos := s.lzvn.vpos + k }, phase := p }

/-- A `nop` is passed, and the fetch goes on inside the engine step (R251; log 1). -/
theorem step_nop {s : State} {k : Nat} {p : Phase} {op : Byte} {rest : List Byte} (h : FetchesOpcode (pastNops k p s))
    (hop : op = 0x0E ∨ op = 0x16) (hdrop : s.lzvn.vp.drop (s.lzvn.vpos + k) = op :: rest) :
    step (pastNops k p s) = .next (pastNops (k + 1) .lzvnFetch s) := by
  have hd : decodeLzvn (op :: rest) = .ok (.nop op) := by rcases hop with rfl | rfl <;> rfl
  rw [step_opcode h (i := .nop op) (by rw [← hd, ← hdrop]; rfl)]
  rfl

theorem pastNops_busy (k : Nat) (s : State) : (pastNops k .lzvnFetch s).phase ≠ .idle := by
  rw [pastNops]
  nofun

section
variable {s t : State} {nops rest : List Byte} (hnops : ∀ b ∈ nops, b = 0x0E ∨ b = 0x16) (ht : t.phase = .idle)
include hnops ht

/-- Inside the fetch a run of `nop` opcodes is passed, and the step after it ends the engine step. -/
theorem finishStep_nops {k fuel : Nat} (hf : s.fault = none) (he : s.eos = false)
    (hdrop : s.lzvn.vp.drop (s.lzvn.vpos + k) = nops ++ rest) (hfuel : nops.length + 1 ≤ fuel)
    (hlast : step (pastNops (k + nops.length) .lzvnFetch s) = .next t) :
    finishStep fuel (pastNops k .lzvnFetch s) = .next t := by
  induction nops generalizing k fuel with
  | nil =>
    obtain ⟨n, rfl⟩ := Nat.exists_eq_add_of_le' hfuel
    exact finishStep_last (pastNops_busy k s) hlast ht
  | cons op nops ih =>
    obtain ⟨n, rfl⟩ := Nat.exists_eq_add_of_le' (Nat.le_of_add_left_le hfuel)
    obtain ⟨hop, hnops⟩ := List.forall_mem_cons.mp hnops
    have hnext : s.lzvn.vp.drop (s.lzvn.vpos + (k + 1)) = nops ++ rest := by
      rw [← Nat.add_assoc, ← List.tail_drop, hdrop]
      rfl
    rw [List.length_cons] at hfuel hlast
    rw [finishStep_busy n _ _ (pastNops_busy k s) (step_nop ⟨hf, he, .inl rfl⟩ hop hdrop)]
    exact ih hnops hnext (by omega) (by rwa [Nat.add_right_comm k 1, Nat.add_assoc k])

/-- One engine step passes a run of `nop` opcodes and takes the step after it (R241). -/
theorem engineStep_nops (hs : FetchesOpcode s) (hdrop : s.lzvn.vp.drop s.lzvn.vpos = nops ++ rest)
    (hlast : ∀ p, FetchesOpcode (pastNops nops.length p s) → step (pastNops nops.length p s) = .next t) :
    engineStep s = .next t := by
  obtain ⟨hf, he, _⟩ := id hs
  cases nops with
  | nil => exact engineStep_idle (hlast s.phase hs) ht
  | cons op nops =>
    obtain ⟨hop, hnops⟩ := List.forall_mem_cons.mp hnops
    have hstep : step s = .next (pastNops 1 .lzvnFetch s) := step_nop (k := 0) (p := s.phase) hs hop hdrop
    have hnext : s.lzvn.vp.drop (s.lzvn.vpos + 1) = nops ++ rest := by
      rw [← List.tail_drop, hdrop]
      rfl
    have hlen := congrArg List.length hnext
    rw [List.length_drop, List.length_append] at hlen
    have hbound : nops.length + 1 ≤ stepBound (pastNops 1 .lzvnFetch s) := by
      simp only [stepBound, pastNops]
      omega
    rw [List.length_cons, Nat.add_comm] at hlast
    rw [engineStep, hstep]
    exact finishStep_nops hnops ht hf he hnext hbound (hlast .lzvnFetch ⟨hf, he, .inl rfl⟩)

/-- From inside the fetch any fuel above the number of `nop` opcodes gives the same. -/
theorem finishStep_nops_of_fetching {fuel : Nat} (hs : FetchesOpcode s)
    (hdrop : s.lzvn.vp.drop s.lzvn.vpos = nops ++ rest)
    (hlast : ∀ p, FetchesOpcode (pastNops nops.length p s) → step (pastNops nops.length p s) = .next t)
    (hp : s.phase = .lzvnFetch) (hfuel : nops.length + 1 ≤ fuel) : finishStep fuel s = .next t := by
  obtain ⟨hf, he, _⟩ := hs
  have hstart : pastNops 0 .lzvnFetch s = s := by
    rw [pastNops, ← hp, Nat.add_zero]
  rw [← hstart]
  refine finishStep_nops hnops ht hf he (k := 0) hdrop hfuel ?_
  rw [Nat.zero_add]
  exact hlast .lzvnFetch ⟨hf, he, .inl rfl⟩

end

/-! ### The instruction after the run -/

theorem acceptTriple_phase (tr : Triple) {s : State} (h : s.phase = .idle) : (acceptTriple tr s).phase = .idle := by
  rcases acceptTriple_cases tr s with ⟨_, _, he⟩ | ⟨_, he⟩ <;> rw [he]
  · rfl
  · exact (updateD_phase ..).trans h

section
variable {i : Instr} (hl : i.level = .lzvn) (hn : ∀ op, i ≠ .nop op) (s : State)
include hl hn

/-- Every LZVN instruction but `nop` ends its engine step. -/
theorem exec_lzvn_boundary : ∃ t, exec i s = .next t ∧ t.phase = .idle := by
  rcases exec_lzvn_eq hl with ⟨tr, _, he⟩ | ⟨_, _, ⟨op, hi⟩ | he | he⟩
  · rw [he]
    rcases lzvnTriple_cases (encodedLength i) tr s with ⟨_, he⟩ | ⟨_, he⟩
    · exact ⟨_, he, rfl⟩
    · exact ⟨_, he, acceptTriple_phase tr rfl⟩
  · exact absurd hi (hn op)
  · refine ⟨_, congrFun he s, ?_⟩
    rcases blockDone_cases s with ⟨_, he⟩ | ⟨_, he⟩ <;> rw [he]
    rfl
  · exact ⟨_, congrFun he s, rfl⟩

/-- An instruction that ends its engine step does the same wherever in that step it is fetched. -/
theorem exec_pastNops (k : Nat) (p q : Phase) : exec i (pastNops k p s) = exec i (pastNops k q s) := by
  rcases exec_lzvn_eq hl with ⟨tr, _, he⟩ | ⟨_, _, ⟨op, hi⟩ | he | he⟩
  · rw [he]; rfl
  · exact absurd hi (hn op)
  · rw [he]; rfl
  · rw [he]; rfl

end

/-! ### `eos` and `udef` -/

/-- Opcode 6 alone is `eos` (R252). -/
theorem decodeLzvn_eos_iff (bs : List Byte) : decodeLzvn bs = .ok .eos ↔ bs.head? = some 0x06 := by
  refine ⟨fun h => ?_, fun h => ?_⟩
  · cases bs with
    | nil => cases h
    | cons op rest =>
      obtain ⟨_, hbytes⟩ := decodeLzvn_ok h
      exact congrArg some (List.cons.inj hbytes).1.symm
  · obtain ⟨rest, rfl⟩ := List.head?_eq_some_iff.mp h
    rfl

/-- The reserved opcodes are `udef` (R104 b, R253). -/
theorem decodeLzvn_udef_iff (op : Byte) (rest : List Byte) :
    decodeLzvn (op :: rest) = .ok (.udef op) ↔ isReservedOpcode op = true := by
  refine ⟨fun h => ?_, fun h => decodeLzvn_encode (i := .udef op) rest rfl h⟩
  obtain ⟨hw, _⟩ := decodeLzvn_ok h
  exact hw

/-- Settles O27: each of the three instructions in one step, and a run of `nop` opcodes by induction on it, ended by the
instruction after it or by F20. -/
theorem lzvnControlOpcodes : Obligations.LzvnControlOpcodes := by
  refine ⟨fun op s => rfl, fun s i hf he hd => step_opcode ⟨hf, he, .inl rfl⟩ hd, fun op => ?_,
    fun s => ⟨fun h => ?_, fun h => ?_⟩, decodeLzvn_eos_iff, fun op s => ⟨_, rfl, rfl, rfl, rfl, rfl⟩,
    decodeLzvn_udef_iff, fun s nops rest hs hnops hdrop => ⟨fun i hd hn => ?_, fun e hd => ?_⟩⟩
  · rw [lzvnClass_eq_iff, opcodePattern, Bool.or_eq_true, beq_iff_eq, beq_iff_eq]
  · rw [exec, execEos, blockDone, if_neg (not_not.mpr h)]
  · rw [exec, execEos, blockDone, if_pos h]
    exact faultTaken_raise .f18
  · have hdecode : decodeLzvn (s.lzvn.vp.drop (s.lzvn.vpos + nops.length)) = .ok i := by
      rw [← List.drop_drop, hdrop, List.drop_left, hd]
    have hl := decodeLzvn_level hd
    obtain ⟨t, hexec, ht⟩ := exec_lzvn_boundary hl hn (pastNops nops.length s.phase s)
    have hlast : ∀ p, FetchesOpcode (pastNops nops.length p s) → step (pastNops nops.length p s) = .next t :=
      fun p hp => by rw [step_opcode hp hdecode, exec_pastNops hl hn s _ p s.phase, hexec]
    exact ⟨(engineStep_nops hnops ht hs hdrop hlast).trans hexec.symm, fun hp fuel hfuel =>
      (finishStep_nops_of_fetching hnops ht hs hdrop hlast hp hfuel).trans hexec.symm⟩
  · have hdecode : decodeLzvn (s.lzvn.vp.drop (s.lzvn.vpos + nops.length)) = .error e := by
      rw [← List.drop_drop, hdrop, List.drop_left, hd]
    have hlast : ∀ p, FetchesOpcode (pastNops nops.length p s) →
        step (pastNops nops.length p s) = .next (raise (pastNops nops.length s.phase s) .f20) :=
      fun p hp => step_opcodeOverrun hp hdecode
    rw [engineStep_nops hnops rfl hs hdrop hlast]
    refine ⟨faultTaken_raise .f20, fun hp fuel hfuel => ?_⟩
    rw [finishStep_nops_of_fetching hnops rfl hs hdrop hlast hp hfuel]
    exact faultTaken_raise .f20

end Sys2Proof.Machine

/-! SUPPORT. The measure of R281: what each of the model's steps that emits nothing and faults nothing takes off it. -/

namespace Sys2Proof.Machine

/-! ### The measure's parts -/

theorem blockWork_parsing {s : State} (hp : s.phase = .vlc) : blockWork s =
    (s.lzvn.vp.length - s.lzvn.vpos) + (s.hdr.nMatches + (Config.nWeights - s.vlc.weights.length) + 5) := by
  rw [blockWork, hp]

theorem blockWork_decoding {s : State} (hp : s.phase ≠ .vlc) : blockWork s =
    (s.lzvn.vp.length - s.lzvn.vpos) + (s.lzfse.remaining + (if s.active = .noBlock then 0 else 1) + 1) := by
  cases hk : s.phase with
  | vlc => exact absurd hk hp
  | idle | lzvnFetch => rw [blockWork, hk]

/-- Outside the frequency codes the work left is the payload's and the block's. -/
theorem blockWork_lt_blockWork {s t : State} (hs : s.phase ≠ .vlc) (ht : t.phase ≠ .vlc)
    (h : (t.lzvn.vp.length - t.lzvn.vpos) + (t.lzfse.remaining + if t.active = .noBlock then 0 else 1) <
      (s.lzvn.vp.length - s.lzvn.vpos) + (s.lzfse.remaining + if s.active = .noBlock then 0 else 1)) :
    blockWork t < blockWork s := by
  rw [blockWork_decoding hs, blockWork_decoding ht]
  omega

/-- The registers' widths bound the live block's work (R42, R37, R44). -/
theorem blockWork_lt {s : State} (h : Inv s) : blockWork s < 2 ^ 33 := by
  obtain ⟨_, _, hvp, _⟩ := h.ranges.payloads
  have hmatches := h.ranges.hdr.nMatches
  have hremaining := h.ranges.remaining
  by_cases hp : s.phase = .vlc
  · rw [blockWork_parsing hp, Config.nWeights]
    omega
  · rw [blockWork_decoding hp]
    split <;> omega

/-- The step to `t` lowers R281's measure, unless it faults. -/
def Lowers (s t : State) : Prop :=
  t.fault = none → workBound t < workBound s

theorem lowers_raise (s u : State) (r : Reason) : Lowers s (raise u r) := nofun

/-- Block work done. -/
theorem lowers_of_blockWork {s t : State} (h : blockWork t < blockWork s) (hsrc : t.src = s.src := by rfl)
    (hspos : s.spos ≤ t.spos := by exact Nat.le_refl _) : Lowers s t := fun _ => by
  rw [workBound, workBound, hsrc]
  omega

/-- A magic read outweighs any block it may start. -/
theorem lowers_of_magicRead {s t : State} (ht : Inv t) (hsrc : t.src = s.src) (hspos : s.spos + 4 ≤ t.spos) :
    Lowers s t := fun _ => by
  have hwork := blockWork_lt ht
  have hend := ht.ranges.spos
  rw [workBound, workBound, hsrc]
  rw [hsrc] at hend
  omega

/-! ### The LMD loop -/

theorem blockWork_acceptTriple (tr : Triple) (s : State) :
    (acceptTriple tr s).fault = none → blockWork (acceptTriple tr s) = blockWork s := by
  rcases acceptTriple_cases tr s with ⟨_, _, he⟩ | ⟨_, he⟩ <;> rw [he]
  · nofun
  · rw [updateD_eq]
    exact fun _ => rfl

/-- A triple taken leaves the work that its fetch left. -/
theorem lowers_acceptTriple {s u : State} (tr : Triple) (h : blockWork u < blockWork s) (hsrc : u.src = s.src := by rfl)
    (hspos : u.spos = s.spos := by rfl) : Lowers s (acceptTriple tr u) := fun hf => by
  obtain ⟨hs, hp⟩ : (acceptTriple tr u).src = u.src ∧ (acceptTriple tr u).spos = u.spos := by
    rcases acceptTriple_cases tr u with ⟨_, _, he⟩ | ⟨_, he⟩ <;> rw [he] <;> exact ⟨updateD_src .., updateD_spos ..⟩
  exact lowers_of_blockWork ((blockWork_acceptTriple tr u hf).trans_lt h) (hs.trans hsrc) (hp.trans hspos).ge hf

/-- The end of a live block is the block's last step (R214). -/
theorem lowers_blockDone {s : State} (ha : s.active ≠ .noBlock) (hp : s.phase ≠ .vlc) : Lowers s (blockDone s) := by
  rcases blockDone_cases s with ⟨_, he⟩ | ⟨_, he⟩ <;> rw [he]
  · exact lowers_raise s s _
  · refine lowers_of_blockWork (blockWork_lt_blockWork hp (by simp) ?_)
    simp only [if_neg ha, if_true]
    omega

/-- A fetch of an LZFSE block takes one of the triples that remain, or ends the block (R213, R220). -/
theorem lowers_fetchLzfse {s : State} (ha : s.active.isLzfse = true) (hp : s.phase = .idle) :
    Lowers s (fetchLzfse s) := by
  have hbusy : s.phase ≠ .vlc := hp ▸ nofun
  unfold fetchLzfse
  split
  · exact lowers_blockDone (BlockKind.ne_noBlock_of_isLzfse ha) hbusy
  split
  · exact lowers_raise s s _
  · obtain ⟨_, _, hremaining⟩ := decodeTriple_keeps ‹_›
    refine lowers_acceptTriple _ (blockWork_lt_blockWork hbusy hbusy ?_)
    simp only [hremaining]
    omega

/-! ### Instructions -/

theorem one_le_encodedLength (i : Instr) : 1 ≤ encodedLength i := by
  cases i <;> simp [encodedLength]

/-- An LZVN instruction passes its opcode, or ends the block (R241, R252). -/
theorem lowers_exec_lzvn {s : State} {i : Instr} (ha : s.active = .lzvn) (hp : s.phase ≠ .vlc)
    (hd : decodeLzvn (s.lzvn.vp.drop s.lzvn.vpos) = .ok i) : AllNext (Lowers s) (exec i s) := by
  have hvpos := vpos_lt_of_decodeLzvn hd
  have hlen := one_le_encodedLength i
  rcases exec_lzvn_eq (decodeLzvn_level hd) with ⟨tr, _, he⟩ | ⟨_, _, ⟨op, rfl⟩ | he | he⟩
  · rw [he]
    rcases lzvnTriple_cases (encodedLength i) tr s with ⟨_, he⟩ | ⟨_, he⟩ <;> rw [he] <;> refine allNext_next ?_
    · exact lowers_raise s s _
    · refine lowers_acceptTriple tr (blockWork_lt_blockWork hp (by simp) ?_)
      simp only
      omega
  · refine allNext_next (lowers_of_blockWork (blockWork_lt_blockWork hp (by simp) ?_))
    simp only
    omega
  · rw [he]
    exact allNext_next (lowers_blockDone (ha ▸ nofun) hp)
  · rw [he]
    exact allNext_next (lowers_raise s s _)

/-- A frequency code is one of the 360 (R182). -/
theorem lowers_code {s : State} (hp : s.phase = .vlc) (hn : s.vlc.weights.length < Config.nWeights) :
    AllNext (Lowers s) (exec (decodeVlc (vlcWindow (vlcRefilled s).vlc)) (vlcRefilled s)) := by
  rw [exec_vlc (decodeVlc_level _)]
  generalize vlcWidth _ = width, vlcValue _ = value
  rcases takeCode_cases width value (vlcRefilled s) with ⟨_, he⟩ | ⟨_, he⟩ <;> rw [he] <;> refine allNext_next ?_
  · exact lowers_raise s (vlcRefilled s) _
  · refine lowers_of_blockWork ?_
    rw [blockWork_parsing hp, blockWork_parsing (by simpa using hp)]
    simp only [vlcRefilled_lzvn, vlcRefilled_hdr, vlcRefilled_vlc, Vlc.refill_weights, List.length_append,
      List.length_singleton]
    omega

/-- The end of a `bvx2` starts the block whose triples the measure has counted (R185, R217). -/
theorem lowers_finishV2 {s : State} (hp : s.phase = .vlc) : AllNext (Lowers s) (finishV2 s) := by
  refine allNext_raising (fun r _ => lowers_raise s s r) fun ws _ t ht => ?_
  rcases initLzfse_cases ht with ⟨r, n, rfl, _⟩ | ⟨_, _, _, _, _, _, _, _, _, _, _, _, _, _, rfl⟩
  · exact lowers_raise s _ r
  · refine lowers_of_blockWork ?_ rfl (by simp only; omega)
    rw [blockWork_parsing hp, blockWork_decoding (by simp), if_neg nofun]
    simp only [lzfseAtInit]
    omega

/-! ### The step -/

/-- Every step that neither emits a byte nor faults nor stands at end of stream takes from the measure (R281). -/
theorem lowers_step {s t : State} (h : Inv s) (hstep : step s = .next t) (he : s.eos = false) (hout : t.out = s.out) :
    Lowers s t := by
  have hinv := inv_step h hstep
  obtain ⟨hsrc, _⟩ := step_configuration hstep
  have hemits : ∀ b, ¬ RingWritten b s t := fun b hr => by simpa using hr.out.symm.trans hout
  obtain ⟨_, ⟨heos, _⟩ | ⟨_, hc⟩⟩ := step_cases hstep
  · exact absurd (heos.symm.trans he) nofun
  cases hc with
  | code hp hn he => exact lowers_code hp hn t he
  | finish hp _ he => exact lowers_finishV2 hp t he
  | overrun _ _ _ he => exact he ▸ lowers_raise s s _
  | opcode hp i hd he =>
    obtain ⟨ha, _⟩ : s.active = .lzvn ∧ s.L = 0 ∧ s.M = 0 := hp.elim h.block.fetching And.right
    have hbusy : s.phase ≠ .vlc := by rcases hp with hp | ⟨hp, _⟩ <;> rw [hp] <;> nofun
    exact lowers_exec_lzvn ha hbusy hd t he
  | shortMagic _ _ _ he => exact he ▸ lowers_raise s s _
  | badMagic _ _ _ _ _ he => exact he ▸ lowers_raise s _ _
  | magic _ _ _ i hd he => exact lowers_of_magicRead hinv hsrc (exec_block_source (decodeBlock_level hd) he).1
  | literal _ _ _ he =>
    obtain ⟨b, hr⟩ := emitLiteral_ringWritten he
    exact absurd hr (hemits b)
  | matched _ _ _ _ he =>
    obtain ⟨b, hr⟩ := emitMatch_ringWritten he
    exact absurd hr (hemits b)
  | lzfse hp ha _ _ he => exact he ▸ lowers_fetchLzfse ha hp
  | rawDone hp ha _ _ he => exact he ▸ lowers_blockDone (ha ▸ nofun) (hp ▸ nofun)

end Sys2Proof.Machine

/-! SUPPORT. One engine step (R277): where its faults and its byte stand, and what its result says. -/

namespace Sys2Proof.Machine

/-! ### Where a step faults -/

/-- A fault that the step to `t` raised has ended the engine step (R302). -/
def FaultEndsStep (s t : State) : Prop :=
  t.fault = s.fault ∨ t.phase = .idle

theorem faultEndsStep_exec_block {i : Instr} {s : State} (hi : i.level = .block) :
    AllNext (FaultEndsStep s) (exec i s) := by
  have hinit : ∀ kind u, AllNext (FaultEndsStep s) (initLzfse kind u) := fun _ _ _ ht => .inr (initLzfse_phase ht)
  cases i with
  | bvx1 =>
    unfold exec execBvx1
    exact allNext_readingHeader (fun _ => .inr rfl) fun _ => allNext_raising (fun _ _ => .inr rfl) fun _ _ => hinit _ _
  | bvx2 =>
    unfold exec execBvx2
    refine allNext_readingHeader (fun _ => .inr rfl) fun _ => allNext_raising (fun _ _ => .inr rfl) fun _ _ => ?_
    refine allNext_reading (fun _ => .inr rfl) fun _ => ?_
    split
    · exact hinit _ _
    · exact allNext_next (.inl rfl)
  | bvxn =>
    unfold exec execBvxn
    exact allNext_readingHeader (fun _ => .inr rfl) fun _ => allNext_raising (fun _ _ => .inr rfl) fun _ _ =>
      allNext_reading (fun _ => .inr rfl) fun _ => allNext_next (.inr rfl)
  | bvxRaw =>
    unfold exec execBvxRaw
    exact allNext_readingHeader (fun _ => .inr rfl) fun _ => allNext_raising (fun _ _ => .inr rfl) fun _ _ =>
      allNext_reading (fun _ => .inr rfl) fun _ => allNext_next (.inr rfl)
  | bvxEnd => exact allNext_next (.inl rfl)
  | _ => cases hi

theorem blockDone_phase (s : State) : (blockDone s).phase = .idle := by
  rcases blockDone_cases s with ⟨_, he⟩ | ⟨_, he⟩ <;> rw [he]
  exact raise_phase ..

theorem faultEndsStep_exec_lzvn {i : Instr} {s : State} (hi : i.level = .lzvn) :
    AllNext (FaultEndsStep s) (exec i s) := by
  rcases exec_lzvn hi s with ⟨n, tr, he⟩ | he | he | he <;> rw [he]
  · rcases lzvnTriple_cases n tr s with ⟨_, he⟩ | ⟨_, he⟩ <;> rw [he]
    · exact allNext_next (.inr rfl)
    · exact allNext_next (.inr (acceptTriple_phase tr rfl))
  · exact allNext_next (.inl rfl)
  · exact allNext_next (.inr (blockDone_phase s))
  · exact allNext_next (.inr rfl)

theorem faultEndsStep_exec_vlc {i : Instr} {s : State} (hi : i.level = .vlc) : AllNext (FaultEndsStep s) (exec i s) := by
  rw [exec_vlc hi]
  rcases takeCode_cases (vlcWidth i) (vlcValue i) s with ⟨_, he⟩ | ⟨_, he⟩ <;> rw [he]
  · exact allNext_next (.inr rfl)
  · exact allNext_next (.inl rfl)

theorem fetchLzfse_phase {s : State} (hp : s.phase = .idle) : (fetchLzfse s).phase = .idle := by
  unfold fetchLzfse
  split
  · exact blockDone_phase s
  split
  · rfl
  · exact acceptTriple_phase _ hp

/-- Every fault is taken at the end of its engine step (R302). -/
theorem faultEndsStep_step {s t : State} (h : step s = .next t) : FaultEndsStep s t := by
  obtain ⟨_, ⟨_, rfl⟩ | ⟨_, hc⟩⟩ := step_cases h
  · exact .inl rfl
  cases hc with
  | code _ _ he => exact faultEndsStep_exec_vlc (s := vlcRefilled s) (decodeVlc_level _) t he
  | finish _ _ he =>
    obtain ⟨u, hu, hidle⟩ := finishV2_ends s
    cases he.symm.trans hu
    exact .inr hidle
  | opcode _ i hd he => exact faultEndsStep_exec_lzvn (decodeLzvn_level hd) t he
  | magic _ _ _ i hd he => exact faultEndsStep_exec_block (s := headerRead 4 s) (decodeBlock_level hd) t he
  | overrun _ _ _ he | shortMagic _ _ _ he | badMagic _ _ _ _ _ he => exact he ▸ .inr rfl
  | literal _ _ _ he =>
    obtain ⟨_, hr⟩ := emitLiteral_ringWritten he
    exact .inl hr.fault
  | matched _ _ _ _ he =>
    obtain ⟨_, hr⟩ := emitMatch_ringWritten he
    exact .inl hr.fault
  | lzfse hp _ _ _ he => exact he ▸ .inr (fetchLzfse_phase hp)
  | rawDone _ _ _ _ he => exact he ▸ .inr (blockDone_phase s)

/-! ### Where a step stops -/

theorem emitLiteral_ne_recorded (s : State) (f : FaultRecord) : emitLiteral s ≠ .error (.recorded f) := by
  unfold emitLiteral nextLiteral
  cases s.active with
  | v1 | v2 => cases s.lit.read s.lzfse.litPos <;> nofun
  | lzvn => cases s.lzvn.vp[s.lzvn.vpos]? <;> nofun
  | raw => cases s.raw.rp[s.raw.rpos]? <;> nofun
  | noBlock => nofun

theorem emitMatch_ne_recorded (s : State) (f : FaultRecord) : emitMatch s ≠ .error (.recorded f) := by
  unfold emitMatch
  cases ringMatch s.D s <;> nofun

theorem emitted_ne_recorded {x : Except Fault State} {f : FaultRecord} (h : x ≠ .error (.recorded f)) :
    emitted x ≠ .done (.fault (.recorded f)) := by
  cases x with
  | error e =>
    rintro ⟨⟩
    exact h rfl
  | ok s => nofun

theorem Action.HasNext.ne_recorded {a : Action} {f : FaultRecord} (h : a.HasNext) :
    a ≠ .done (.fault (.recorded f)) := by
  rintro rfl
  obtain ⟨_, ht⟩ := h
  cases ht

theorem live_ne_recorded (s : State) (f : FaultRecord) :
    (if 0 < s.L then emitted (emitLiteral s) else if 0 < s.M then emitted (emitMatch s) else fetchNext s) ≠
      .done (.fault (.recorded f)) := by
  split
  · exact emitted_ne_recorded (emitLiteral_ne_recorded s f)
  split
  · exact emitted_ne_recorded (emitMatch_ne_recorded s f)
  · exact (fetchNext_hasNext s).ne_recorded

theorem fetch_ne_recorded {s : State} (hf : s.fault = none) (f : FaultRecord) :
    fetch s ≠ .done (.fault (.recorded f)) := by
  unfold fetch
  rw [hf]
  simp only
  split
  · nofun
  split
  · exact (fetchCode_hasNext s).ne_recorded
  · exact (runDecoded_hasNext _ _).ne_recorded
  · cases s.active with
    | noBlock => exact (fetchMagic_hasNext s).ne_recorded
    | v1 | v2 | lzvn | raw => exact live_ne_recorded s f

/-- Only the record of a faulted engine is raised again (R303). -/
theorem fault_of_step_recorded {s : State} {f : FaultRecord} (h : step s = .fault (.recorded f)) :
    s.fault = some f := by
  cases hf : s.fault with
  | some g =>
    simp only [step, fetch, hf] at h
    cases h
    rfl
  | none =>
    have hfetch := fetch_ne_recorded hf f
    unfold step at h
    generalize fetch s = a at h hfetch
    cases a with
    | run i u =>
      obtain ⟨t, ht⟩ := exec_isNext i u
      cases h.symm.trans ht
    | done o => exact absurd (congrArg Action.done h) hfetch

/-! ### The steps inside an engine step -/

/-- Inside an engine step nothing is emitted: the steps there fetch codes and opcodes (R182, R241). -/
theorem step_busy_out {s t : State} (hp : s.phase ≠ .idle) (h : step s = .next t) : t.out = s.out := by
  have hs : SameRing s s := ⟨rfl, rfl, rfl, rfl, rfl, rfl, rfl, rfl, .inl rfl⟩
  obtain ⟨_, ⟨_, rfl⟩ | ⟨_, hc⟩⟩ := step_cases h
  · rfl
  cases hc with
  | code _ _ he => exact (exec_sameRing _ _ (vlcRefilled s) ⟨rfl, rfl, rfl, rfl, rfl, rfl, rfl, rfl, .inl rfl⟩ t he).out
  | finish _ _ he => exact (finishV2_sameRing s t he).out
  | overrun _ _ _ he => exact he ▸ rfl
  | opcode _ i _ he => exact (exec_sameRing i s s hs t he).out
  | shortMagic hi | badMagic hi | magic hi | literal hi | matched hi | lzfse hi | rawDone hi => exact absurd hi hp

/-- What the steps inside an engine step keep holds where the run to the boundary ends, and of the state whose step
stopped it otherwise (R277). -/
theorem finishStep_keeps {P : State → Prop} (hkeep : ∀ u v, P u → u.phase ≠ .idle → step u = .next v → P v) (n : Nat)
    {s : State} (h : P s) :
    (∃ t, finishStep n s = .next t ∧ P t) ∨
    ∃ u, P u ∧ u.phase ≠ .idle ∧ finishStep n s = step u ∧ ∀ v, step u ≠ .next v := by
  induction n generalizing s with
  | zero => exact .inl ⟨s, rfl, h⟩
  | succ n ih =>
    by_cases hp : s.phase = .idle
    · exact .inl ⟨s, finishStep_idle _ _ hp, h⟩
    by_cases hstep : ∃ v, step s = .next v
    · obtain ⟨v, hv⟩ := hstep
      rw [finishStep_busy n s v hp hv]
      exact ih (hkeep s v h hp hv)
    · have hstop : ∀ v, step s ≠ .next v := not_exists.mp hstep
      refine .inr ⟨s, h, hp, ?_, hstop⟩
      cases hk : s.phase with
      | idle => exact absurd hk hp
      | vlc | lzvnFetch => simp only [finishStep, hk]

/-- An engine step's next state has what its first step gives and the steps after that keep. -/
theorem engineStep_keeps {P : State → Prop} {s t : State} (h : engineStep s = .next t)
    (hfirst : ∀ u, step s = .next u → P u) (hkeep : ∀ u v, P u → u.phase ≠ .idle → step u = .next v → P v) : P t := by
  unfold engineStep at h
  split at h
  · rename_i u hu
    rcases finishStep_keeps hkeep (stepBound u) (hfirst u hu) with ⟨v, hv, hP⟩ | ⟨v, _, _, hv, hstop⟩
    · cases h.symm.trans hv
      exact hP
    · exact absurd (hv.symm.trans h) (hstop t)
  · rename_i hstop
    exact (hstop t h).elim

/-- What stops an engine step stops one of the model's steps, from the state it began in or from one that the steps
inside it have reached. -/
theorem engineStep_stops {P : State → Prop} {s : State} (h : ∀ t, engineStep s ≠ .next t)
    (hfirst : ∀ u, step s = .next u → P u) (hkeep : ∀ u v, P u → u.phase ≠ .idle → step u = .next v → P v) :
    ∃ u, (u = s ∨ P u ∧ u.phase ≠ .idle) ∧ engineStep s = step u := by
  unfold engineStep at h ⊢
  split
  · rename_i u hu
    rw [hu] at h
    rcases finishStep_keeps hkeep (stepBound u) (hfirst u hu) with ⟨v, hv, _⟩ | ⟨v, hP, hp, hv, _⟩
    · exact absurd hv (h v)
    · exact ⟨v, .inr ⟨hP, hp⟩, hv⟩
  · exact ⟨s, .inl rfl, rfl⟩

/-! ### The engine step -/

/-- An engine step raises only the record of an engine that was faulted before it (R303). -/
theorem fault_of_engineStep_recorded {s : State} {f : FaultRecord} (h : engineStep s = .fault (.recorded f)) :
    s.fault = some f := by
  have hends : ∀ u v, step u = .next v → v.fault = none ∨ v.phase = .idle := fun u v hv => by
    obtain ⟨hf, _⟩ := step_cases hv
    exact (faultEndsStep_step hv).imp_left (·.trans hf)
  obtain ⟨u, rfl | ⟨hu, hp⟩, he⟩ := engineStep_stops (P := fun u => u.fault = none ∨ u.phase = .idle)
    (fun t ht => nomatch h.symm.trans ht) (hends s) fun u v _ _ => hends u v
  · exact fault_of_step_recorded (he.symm.trans h)
  · have hf := fault_of_step_recorded (he.symm.trans h)
    rcases hu with hu | hu
    · cases hf.symm.trans hu
    · exact absurd hu hp

/-- An engine step at end of stream changes nothing (log 16). -/
theorem engineStep_at_eos {s t : State} (h : engineStep s = .next t) (he : s.eos = true) : t = s :=
  engineStep_keeps (P := (· = s)) h (fun _ hu => step_at_eos hu he) fun u v hu _ hv => by
    subst hu
    exact step_at_eos hv he

/-- An engine step delivers at most one byte, and none where it faults (R63, R277, R305). -/
theorem engineStep_out {s t : State} (h : engineStep s = .next t) :
    t.out = s.out ∨ ∃ b, t.out = s.out ++ [b] ∧ t.fault = none := by
  have hfirst : ∀ u, step s = .next u →
      u.out = s.out ∨ ∃ b, u.out = s.out ++ [b] ∧ u.fault = none ∧ u.phase = .idle := fun u hu => by
    by_cases hp : s.phase = .idle
    · obtain ⟨hf, _⟩ := step_cases hu
      rcases step_ring hu with hr | ⟨b, hr⟩
      · exact .inl hr.out
      · exact .inr ⟨b, hr.out, hr.fault.trans hf, hr.phase.trans hp⟩
    · exact .inl (step_busy_out hp hu)
  have hlast := engineStep_keeps h hfirst fun u v hu hp hv => by
    rcases hu with hu | ⟨_, _, _, hi⟩
    · exact .inl ((step_busy_out hp hv).trans hu)
    · exact absurd hi hp
  exact hlast.imp_right fun ⟨b, ho, hf, _⟩ => ⟨b, ho, hf⟩

/-- What an engine step's result says of its states (R277). -/
def ResultSays (s t : State) : StepResult → Prop
  | .byte b => t.out = s.out ++ [b] ∧ t.fault = none
  | .eos => s.eos = true ∧ t = s ∧ s.fault = none
  | .internal => s.eos = false ∧ t.out = s.out ∧ t.fault = none
  | .raised f => t.fault = some f ∧ t.out = s.out

theorem engineStep_result {s t : State} (h : engineStep s = .next t) : ResultSays s t (resultOf s t) := by
  unfold resultOf
  cases hf : t.fault with
  | some f =>
    rcases engineStep_out h with ho | ⟨_, _, hn⟩
    · exact ⟨hf, ho⟩
    · cases hf.symm.trans hn
  | none =>
    rcases engineStep_out h with ho | ⟨b, ho, _⟩
    · simp only [ho, lt_irrefl, if_false]
      split
      · have ht := engineStep_at_eos h ‹_›
        exact ⟨‹_›, ht, ht ▸ hf⟩
      · exact ⟨Bool.eq_false_iff.mpr ‹_›, ho, hf⟩
    · have hbyte : t.out.getLastD 0 = b := by rw [ho, List.getLastD_concat]
      rw [if_pos (by rw [ho, List.length_append, List.length_singleton]; omega), hbyte]
      exact ⟨ho, hf⟩

end Sys2Proof.Machine

/-! SUPPORT. The host calls that read (R278, R279): what they answer, what they leave, and that they answer. -/

namespace Sys2Proof.Machine

/-! ### `read` -/

/-- What `read` leaves when it answers so (R278, R303). -/
def ReadAnswers (s t : State) : Answer → Prop
  | .byte b => t.out = s.out ++ [b] ∧ t.fault = none
  | .endOfStream => t.eos = true ∧ t.out = s.out ∧ t.fault = none
  | .raised f => t.fault = some f ∧ t.out = s.out
  | .count _ => False
  | .noAnswer => t.out = s.out

/-- An internal step before the read leaves `OUT`. -/
theorem ReadAnswers.trans {s u t : State} {a : Answer} (hu : u.out = s.out) (h : ReadAnswers u t a) :
    ReadAnswers s t a := by
  cases a with
  | byte | endOfStream | raised | noAnswer => rwa [ReadAnswers, hu] at h
  | count => exact h

theorem readLoop_answers (n : Nat) (s : State) : ReadAnswers s (readLoop n s).2 (readLoop n s).1 := by
  induction n generalizing s with
  | zero => rfl
  | succ n ih =>
    unfold readLoop
    split
    · exact ⟨fault_of_engineStep_recorded ‹_›, rfl⟩
    · rfl
    · rfl
    · rfl
    · rfl
    · rename_i t ht
      have hsays := engineStep_result ht
      cases hr : resultOf s t <;> rw [hr] at hsays
      case byte b => exact hsays
      case eos =>
        obtain ⟨he, rfl, hf⟩ := hsays
        exact ⟨he, rfl, hf⟩
      case raised f => exact hsays
      case internal =>
        obtain ⟨_, ho, _⟩ := hsays
        exact (ih t).trans ho

theorem read_answers {s t : State} {a : Answer} (h : read s = (a, t)) : ReadAnswers s t a := by
  have hanswers := readLoop_answers (workBound s + 1) s
  rwa [← read, h] at hanswers

/-- Settles O59: the loop's last engine step gives the answer, and the internal ones before it leave `OUT`. -/
theorem readDeliversNextByte : Obligations.ReadDeliversNextByte := by
  intro s t a _ hread
  have h := read_answers hread
  refine ⟨?_, ?_, ?_, ?_⟩
  · rintro b rfl
    exact h
  · rintro rfl
    exact h
  · rintro f rfl
    exact h
  · rintro k rfl
    exact h

/-! ### The bulk read -/

/-- `buf'` is `buf` with the bytes `bs` stored from `pos` on (R279). -/
def StoredAt (pos : Nat) (bs buf buf' : List Byte) : Prop :=
  buf'.length = buf.length ∧
  ∀ i : Nat, buf'[i]? = if pos ≤ i ∧ i < pos + bs.length then bs[i - pos]? else buf[i]?

theorem storedAt_nil (pos : Nat) (buf : List Byte) : StoredAt pos [] buf buf :=
  ⟨rfl, fun i => by rw [if_neg (by rw [List.length_nil]; omega)]⟩

/-- A byte stored first, and the others after it. -/
theorem StoredAt.cons {pos : Nat} {b : Byte} {bs buf buf' : List Byte} (hpos : pos < buf.length)
    (h : StoredAt (pos + 1) bs (buf.set pos b) buf') : StoredAt pos (b :: bs) buf buf' := by
  obtain ⟨hlen, hcells⟩ := h
  refine ⟨hlen.trans List.length_set, fun i => ?_⟩
  rw [hcells, List.length_cons]
  rcases Nat.lt_trichotomy i pos with hi | rfl | hi
  · rw [if_neg (by omega), if_neg (by omega), List.getElem?_set_ne (by omega)]
  · rw [if_neg (by omega), if_pos (by omega), List.getElem?_set_self hpos, Nat.sub_self, List.getElem?_cons_zero]
  · rw [List.getElem?_set_ne (by omega), show i - pos = (i - (pos + 1)) + 1 by omega, List.getElem?_cons_succ]
    simp only [show pos + 1 ≤ i ∧ i < pos + 1 + bs.length ↔ pos ≤ i ∧ i < pos + (bs.length + 1) by omega]

/-- What the loop of R279 leaves when it answers so, `k` bytes and then the bytes `bs` of at most `left` stored: a count
is of all of them, and short of `left` only at end of stream. -/
def BulkAnswers (left k : Nat) (bs : List Byte) (t : State) : Answer → Prop
  | .count j => j = k + bs.length ∧ (bs.length = left ∨ 0 < j ∧ t.eos = true)
  | .endOfStream => k = 0 ∧ bs = [] ∧ t.eos = true
  | .raised f => t.fault = some f
  | .byte _ => False
  | .noAnswer => True

theorem BulkAnswers.cons {left k : Nat} {b : Byte} {bs : List Byte} {t : State} {a : Answer}
    (h : BulkAnswers left (k + 1) bs t a) : BulkAnswers (left + 1) k (b :: bs) t a := by
  cases a with
  | count j =>
    obtain ⟨hj, hends⟩ := h
    refine ⟨by rw [hj, List.length_cons]; omega, hends.imp_left fun hl => ?_⟩
    rw [List.length_cons, hl]
  | endOfStream =>
    obtain ⟨hk, _⟩ := h
    cases hk
  | raised | byte | noAnswer => exact h

/-- From `s` the loop's outcome has stored, from `pos` on, the bytes that `OUT` grew by (R279, R304). -/
def BulkDelivers (left pos k : Nat) (buf : List Byte) (s : State) (r : Answer × List Byte × State) : Prop :=
  ∃ bs, r.2.2.out = s.out ++ bs ∧ bs.length ≤ left ∧ (pos + left ≤ buf.length → StoredAt pos bs buf r.2.1) ∧
    BulkAnswers left k bs r.2.2 r.1

theorem bulkDelivers_nothing {left k : Nat} {s t : State} {a : Answer} (pos : Nat) (buf : List Byte)
    (hout : t.out = s.out) (ha : BulkAnswers left k [] t a) : BulkDelivers left pos k buf s (a, buf, t) :=
  ⟨[], hout.trans (List.append_nil _).symm, Nat.zero_le _, fun _ => storedAt_nil pos buf, ha⟩

/-- A byte delivered first, and the others after it. -/
theorem BulkDelivers.cons {left pos k : Nat} {b : Byte} {buf : List Byte} {s t : State}
    {r : Answer × List Byte × State} (hout : t.out = s.out ++ [b])
    (h : BulkDelivers left (pos + 1) (k + 1) (buf.set pos b) t r) : BulkDelivers (left + 1) pos k buf s r := by
  obtain ⟨bs, ho, hlen, hstored, ha⟩ := h
  refine ⟨b :: bs, ?_, Nat.succ_le_succ hlen, fun hroom => ?_, ha.cons⟩
  · rw [ho, hout, List.append_assoc, List.singleton_append]
  · exact (hstored (by rw [List.length_set]; omega)).cons (by omega)

theorem bulkLoop_delivers (left pos k : Nat) (buf : List Byte) (s : State) :
    BulkDelivers left pos k buf s (bulkLoop left pos k buf s) := by
  induction left generalizing pos k buf s with
  | zero => exact bulkDelivers_nothing pos buf rfl ⟨rfl, .inl rfl⟩
  | succ left ih =>
    obtain ⟨⟨a, t⟩, hread⟩ : ∃ p, read s = p := ⟨_, rfl⟩
    have hanswers := read_answers hread
    unfold bulkLoop
    rw [hread]
    cases a with
    | byte b => exact (ih (pos + 1) (k + 1) (buf.set pos b) t).cons hanswers.1
    | endOfStream =>
      obtain ⟨he, hout, _⟩ := hanswers
      refine bulkDelivers_nothing pos buf hout ?_
      split
      · exact ⟨‹_›, rfl, he⟩
      · exact ⟨rfl, .inr ⟨Nat.pos_of_ne_zero ‹_›, he⟩⟩
    | raised f =>
      obtain ⟨hf, hout⟩ := hanswers
      exact bulkDelivers_nothing pos buf hout hf
    | count j => exact hanswers.elim
    | noAnswer => exact bulkDelivers_nothing pos buf hanswers trivial

theorem badReadArgs_false {buf : List Byte} {off len : Int} (h : badReadArgs buf off len = false) :
    0 ≤ off ∧ 0 ≤ len ∧ off + len ≤ buf.length := by
  simpa only [badReadArgs, Bool.or_eq_false_iff, decide_eq_false_iff_not, not_lt, and_assoc] using h

section
variable {s : State} (hf : s.fault = none)
include hf

theorem bulkReadWith_badArgs {buf : List Byte} {off len : Int} (c : Nat) (h : badReadArgs buf off len = true) :
    bulkReadWith c buf off len s = (.raised ⟨.usage, .u02⟩, buf, raise s .u02) := by
  simp only [bulkReadWith, hf, h, if_true]

theorem bulkReadWith_zero {buf : List Byte} {off : Int} (c : Nat) (h : badReadArgs buf off 0 = false) :
    bulkReadWith c buf off 0 s = (.count 0, buf, s) := by
  simp only [bulkReadWith, hf, h, Bool.false_eq_true, if_false, if_true]

theorem bulkReadWith_inRange {buf : List Byte} {off len : Int} (c : Nat) (h : badReadArgs buf off len = false)
    (hlen : len ≠ 0) : bulkReadWith c buf off len s = bulkLoop c off.toNat 0 buf s := by
  simp only [bulkReadWith, hf, h, hlen, Bool.false_eq_true, if_false]

end

/-- A bulk read that does not reach its draw counts none (log 11). -/
theorem bulkRead_undrawn {buf : List Byte} {off len : Int} {s : State} (h : takesDraw buf off len s = false) :
    bulkRead buf off len s = bulkReadWith (bulkChunk len.toNat s) buf off len s := by
  rw [bulkRead, h]
  rfl

/-- A bulk read that reaches its draw counts it (log 11). -/
theorem bulkRead_drawn {buf : List Byte} {off len : Int} {s : State} (h : takesDraw buf off len s = true) :
    bulkRead buf off len s = bulkReadWith (bulkChunk len.toNat s) buf off len { s with draws := s.draws + 1 } := by
  rw [bulkRead, h]
  rfl

/-- The draw is from 1 to the length (R8). -/
theorem bulkChunk_bounds {len : Nat} (s : State) (h : 0 < len) : 1 ≤ bulkChunk len s ∧ bulkChunk len s ≤ len := by
  have hdraw := Nat.mod_lt (Config.bulkDraw s.draws) h
  rw [bulkChunk]
  omega

/-- Settles O60: the arguments decide whether the loop is reached, and the loop stores what `OUT` grows by. -/
theorem bulkReadDelivers : Obligations.BulkReadDelivers := by
  refine ⟨fun buf off len s hf => ⟨fun hbad => ?_, fun hok hlen => ?_⟩,
    fun c buf buf' off len s t a hf hread => ⟨fun hbad => ?_, fun hok hlen => ?_, fun hok hc hcl => ?_⟩⟩
  · refine ⟨_, bulkRead_undrawn ?_⟩
    rcases hbad with hbad | rfl
    · simp [takesDraw, hbad]
    · simp [takesDraw]
  · obtain ⟨_, hnonneg, _⟩ := badReadArgs_false hok
    obtain ⟨h1, hmax⟩ := bulkChunk_bounds s (len := len.toNat) (by omega)
    refine ⟨_, h1, by omega, bulkRead_drawn ?_⟩
    simp [takesDraw, faulted, hf, hok, hlen]
  · rw [bulkReadWith_badArgs hf c hbad] at hread
    cases hread
    exact ⟨rfl, rfl, rfl, rfl, rfl⟩
  · subst hlen
    rw [bulkReadWith_zero hf c hok] at hread
    cases hread
    exact ⟨rfl, rfl, rfl⟩
  · obtain ⟨hoff, _, hroom⟩ := badReadArgs_false hok
    obtain ⟨bs, hout, hbs, hstored, ha⟩ := bulkLoop_delivers c off.toNat 0 buf s
    rw [bulkReadWith_inRange hf c hok (by omega)] at hread
    rw [hread] at hout hstored ha
    obtain ⟨hsize, hcells⟩ := hstored (by omega)
    refine ⟨bs, hout, hbs, hsize, hcells, ?_, ?_, ?_⟩
    · rintro k rfl
      obtain ⟨hk, hends⟩ := ha
      rw [Nat.zero_add] at hk
      refine ⟨hk, by omega, fun hshort => ?_⟩
      exact (hends.resolve_left (by omega)).2
    · rintro rfl
      obtain ⟨_, hnone, he⟩ := ha
      exact ⟨hnone, he⟩
    · rintro f rfl
      exact ha

end Sys2Proof.Machine

/-! SUPPORT. Termination (R281): no engine step leaves a state of the invariant without an answer, and an internal one
lowers the measure. -/

namespace Sys2Proof.Machine

/-! ### The engine step -/

theorem inv_engineStep {s t : State} (hinv : Inv s) (h : engineStep s = .next t) : Inv t :=
  engineStep_keeps h (fun _ => inv_step hinv) fun _ _ hu _ => inv_step hu

/-- From a state of the invariant an engine step has a next state, or raises the recorded fault again. -/
theorem engineStep_isSafe {s : State} (hinv : Inv s) :
    (∃ t, engineStep s = .next t) ∨ ∃ f, engineStep s = .fault (.recorded f) := by
  by_cases hnext : ∃ t, engineStep s = .next t
  · exact .inl hnext
  obtain ⟨u, hu, he⟩ := engineStep_stops (not_exists.mp hnext) (fun _ => inv_step hinv) fun _ _ hu _ => inv_step hu
  have hsafe := (noStepReadsMissingValue u (hu.elim (· ▸ hinv) And.left)).1
  rw [← he] at hsafe
  cases ho : engineStep s with
  | next t => exact .inl ⟨t, rfl⟩
  | fault f =>
    cases f with
    | recorded f => exact .inr ⟨f, rfl⟩
    | unwrittenRing | unwrittenLiteral | payloadEnd => rw [ho] at hsafe; cases hsafe
  | refused r => rw [ho] at hsafe; cases hsafe

/-- An internal engine step lowers R281's measure: its first step does, and the steps after it do not raise it. -/
theorem workBound_engineStep_lt {s t : State} (hinv : Inv s) (h : engineStep s = .next t)
    (hr : resultOf s t = .internal) : workBound t < workBound s := by
  have hsays := engineStep_result h
  rw [hr] at hsays
  obtain ⟨he, hout, hf⟩ := hsays
  have hkept := engineStep_keeps (P := fun u => Inv u ∧ (u.out = s.out → Lowers s u)) h
    (fun u hu => ⟨inv_step hinv hu, fun ho => lowers_step hinv hu he ho⟩) fun u v ⟨hu, hlow⟩ hp hv => by
      refine ⟨inv_step hu hv, fun ho hvf => ?_⟩
      have hvu := step_busy_out hp hv
      obtain ⟨huf, ⟨_, rfl⟩ | ⟨hue, _⟩⟩ := step_cases hv
      · exact hlow ho hvf
      · exact (lowers_step hu hv hue hvu hvf).trans (hlow (hvu.symm.trans ho) huf)
  exact hkept.2 hout hf

/-! ### The host calls -/

/-- With more engine steps than the measure the loop of R278 answers, and leaves a state of the invariant. -/
theorem readLoop_terminates {n : Nat} {s : State} (hinv : Inv s) (hn : workBound s < n) :
    (readLoop n s).1 ≠ .noAnswer ∧ Inv (readLoop n s).2 := by
  induction n generalizing s with
  | zero => exact absurd hn (Nat.not_lt_zero _)
  | succ n ih =>
    rcases engineStep_isSafe hinv with ⟨t, ht⟩ | ⟨f, hf⟩
    · have hnext := inv_engineStep hinv ht
      cases hr : resultOf s t with
      | internal =>
        have hlt := workBound_engineStep_lt hinv ht hr
        rw [readLoop_internal ht hr]
        exact ih hnext (by omega)
      | byte | eos | raised =>
        simp only [readLoop, ht, hr]
        exact ⟨nofun, hnext⟩
    · simp only [readLoop, hf]
      exact ⟨nofun, hinv⟩

theorem read_terminates {s : State} (hinv : Inv s) : (read s).1 ≠ .noAnswer ∧ Inv (read s).2 :=
  readLoop_terminates hinv (Nat.lt_succ_self _)

theorem bulkLoop_ne_noAnswer (left pos k : Nat) (buf : List Byte) {s : State} (hinv : Inv s) :
    (bulkLoop left pos k buf s).1 ≠ .noAnswer := by
  induction left generalizing pos k buf s with
  | zero => nofun
  | succ left ih =>
    obtain ⟨hanswer, hnext⟩ := read_terminates hinv
    unfold bulkLoop
    obtain ⟨⟨a, t⟩, hread⟩ : ∃ p, read s = p := ⟨_, rfl⟩
    rw [hread] at hanswer hnext ⊢
    cases a with
    | byte b => exact ih _ _ _ hnext
    | endOfStream => simp only; split <;> nofun
    | count | raised => nofun
    | noAnswer => exact absurd rfl hanswer

theorem bulkReadWith_ne_noAnswer (c : Nat) (buf : List Byte) (off len : Int) {s : State} (hinv : Inv s) :
    (bulkReadWith c buf off len s).1 ≠ .noAnswer := by
  unfold bulkReadWith
  split
  · nofun
  split
  · nofun
  split
  · nofun
  · exact bulkLoop_ne_noAnswer _ _ _ _ hinv

/-- The invariant is not about the draws counted (log 11). -/
theorem inv_draws {s : State} (h : Inv s) (n : Nat) : Inv { s with draws := n } :=
  { h with
    block := { h.block with }
    vlc := { h.vlc with }
    ranges := { h.ranges with } }

/-- A bulk read in range with a byte wanted answers a count from 1 to its draw, EndOfStream or a fault (R279). -/
theorem bulkReadWith_answers_inRange {s : State} {c : Nat} {buf : List Byte} {off len : Int} (hinv : Inv s)
    (hok : badReadArgs buf off len = false) (hlen : len ≠ 0) (hc : 1 ≤ c) :
    (∃ k, 1 ≤ k ∧ k ≤ c ∧ (bulkReadWith c buf off len s).1 = .count k) ∨
    (bulkReadWith c buf off len s).1 = .endOfStream ∨
    ∃ f, (bulkReadWith c buf off len s).1 = .raised f := by
  cases hf : s.fault with
  | some f => exact .inr (.inr ⟨f, by simp only [bulkReadWith, hf]⟩)
  | none =>
    have hne := bulkLoop_ne_noAnswer c off.toNat 0 buf hinv
    obtain ⟨bs, _, hbs, _, ha⟩ := bulkLoop_delivers c off.toNat 0 buf s
    rw [bulkReadWith_inRange hf c hok hlen]
    cases hans : (bulkLoop c off.toNat 0 buf s).1 with
    | count k =>
      rw [hans] at ha
      obtain ⟨hk, hends⟩ := ha
      exact .inl ⟨k, by omega, by omega, rfl⟩
    | endOfStream => exact .inr (.inl rfl)
    | raised f => exact .inr (.inr ⟨f, rfl⟩)
    | byte b => rw [hans] at ha; exact ha.elim
    | noAnswer => exact absurd hans hne

/-- Settles O58: an internal engine step lowers the measure that bounds `read`'s loop, and a bulk read is its reads. -/
theorem everyReadAnswers : Obligations.EveryReadAnswers :=
  ⟨fun _ _ => workBound_engineStep_lt, fun _ hinv => (read_terminates hinv).1, fun _ c buf off len hinv =>
    ⟨bulkReadWith_ne_noAnswer c buf off len hinv, bulkReadWith_ne_noAnswer _ buf off len (inv_draws hinv _),
      bulkReadWith_answers_inRange hinv⟩⟩

end Sys2Proof.Machine

/-! SUPPORT. Construction (R284): the parameters it accepts, and the invariant of the reset state (R330). -/

namespace Sys2Proof.Machine

/-- The accepted ring sizes (R6, R284). -/
theorem legalRingSize_iff (n : Nat) : (isPowerOfTwo n = true ∧ 2 ≤ n) ↔ ∃ k, 1 ≤ k ∧ n = 2 ^ k := by
  constructor
  · rintro ⟨hpow, h2⟩
    exact ⟨Nat.log2 n, (Nat.le_log2 (by omega)).mpr h2, eq_of_beq hpow⟩
  · rintro ⟨k, hk, rfl⟩
    constructor
    · rw [isPowerOfTwo, Nat.log2_two_pow, beq_self_eq_true]
    · exact Nat.pow_le_pow_right Nat.two_pos hk

/-- R284's check refuses what is no legal ring size, and a capacity under 630. -/
theorem constructCheck_iff (size capacity : Nat) :
    (!isPowerOfTwo size || size < 2 || capacity < Config.minTableCapacity) = true ↔
      ¬ (isPowerOfTwo size = true ∧ 2 ≤ size) ∨ capacity < 630 := by
  simp only [Bool.or_eq_true, Bool.not_eq_true', decide_eq_true_eq, not_and_or, Bool.not_eq_true, not_le]
  rfl

/-! ### The reset state -/

theorem tablesOk_zero : TablesOk Lzfse.zero where
  tlLength := List.length_replicate
  tmLength := List.length_replicate
  tdLength := List.length_replicate
  tlitLength := List.length_replicate
  tlEntries := fun _ he => nomatch List.eq_of_mem_replicate he
  tmEntries := fun _ he => nomatch List.eq_of_mem_replicate he
  tdEntries := fun _ he => nomatch List.eq_of_mem_replicate he
  tlitEntries := fun _ he => nomatch List.eq_of_mem_replicate he

theorem headerOk_zero : HeaderOk Header.zero := by
  constructor <;> simp [Header.zero]

/-- A construction the engine accepts gives a state of the invariant: nothing is live, written or read yet (R330). -/
theorem inv_initial {size capacity : Nat} (source : List Byte) (hsize : isPowerOfTwo size = true ∧ 2 ≤ size)
    (hcap : 630 ≤ capacity) : Inv (State.initial size capacity source) where
  parameters := ⟨hsize.1, hsize.2, hcap⟩
  memory := ⟨rfl, nofun, Nat.zero_lt_of_lt hsize.2, rfl, nofun⟩
  ring := ringOk_initial size capacity source
  block := by constructor <;> simp [BlockKind.isLzfse]
  tables := tablesOk_zero
  readers := by simp [ReadersOk, BitReader.Ok, Lzfse.zero]
  vlc := by constructor <;> simp
  ranges := by constructor <;> simp [Lzfse.zero, headerOk_zero]

/-- Settles O49: the check accepts exactly the sizes `2 ^ k` with `1 ≤ k`, and the reset state keeps the invariant. -/
theorem constructionOk : Obligations.ConstructionOk := by
  intro size capacity source
  rw [← legalRingSize_iff]
  refine ⟨fun hbad => if_pos ((constructCheck_iff size capacity).mpr hbad), fun hsize hcap => ⟨if_neg ?_, ?_⟩⟩
  · rw [constructCheck_iff]
    exact not_or.mpr ⟨not_not.mpr hsize, Nat.not_lt.mpr hcap⟩
  · exact inv_initial source hsize hcap

end Sys2Proof.Machine

/-! SUPPORT. Between blocks: the faults of a magic (R276) and the end of stream (R275). -/

namespace Sys2Proof.Machine

/-- Four bytes fail to be a magic only by their value (R276). -/
theorem decodeBlock_badMagic {bs : List Byte} {e : DecodeError} (hlen : bs.length = 4)
    (h : decodeBlock bs = .error e) : e = .badMagic := by
  obtain ⟨b0, b1, b2, b3, rfl⟩ := List.length_eq_four.mp hlen
  simp only [decodeBlock, magicInstr] at h
  split_ifs at h
  cases h
  rfl

/-- What the block decoder accepts has its instruction's magic (R81). -/
theorem leNat_encode_of_decodeBlock {bs : List Byte} {i : Instr} (hlen : bs.length = 4)
    (h : decodeBlock bs = .ok i) : leNat bs = leNat (encode i) := by
  obtain ⟨b0, b1, b2, b3, rfl⟩ := List.length_eq_four.mp hlen
  exact (magicInstr_ok h).2.2

section
variable {s : State} (hr : Ready s) (ha : s.active = .noBlock)
include hr ha

theorem step_shortMagic (h : s.src.length < s.spos + 4) : step s = .next (raise s .t01) := by
  rw [step, fetch_eq_fetchMagic hr ha, fetchMagic, srcRead, if_neg (Nat.not_le.mpr h)]

theorem step_badMagic (hsrc : s.spos + 4 ≤ s.src.length) {e : DecodeError}
    (hd : decodeBlock (sourceBytes 4 s) = .error e) : step s = .next (raise (headerRead 4 s) .f01) := by
  cases decodeBlock_badMagic (srcBytes_length hsrc) hd
  rw [step, fetch_eq_fetchMagic hr ha, fetchMagic_read hsrc, hd]
  rfl

theorem step_bvxEnd (h : sourceBytes 4 s = [0x62, 0x76, 0x78, 0x24]) : step s = .next (afterBvxEnd s) := by
  have hlen := congrArg List.length h
  have hsrc : s.spos + 4 ≤ s.src.length := by
    simp only [sourceBytes, List.length_take, List.length_drop, List.length_cons, List.length_nil] at hlen
    omega
  have hd : decodeBlock (sourceBytes 4 s) = .ok .bvxEnd := h ▸ rfl
  rw [step, fetch_eq_fetchMagic hr ha, fetchMagic_read hsrc, hd]
  rfl

end

/-- Settles O8: four bytes that are there are a block instruction's magic or none of the five. -/
theorem magicFaults : Obligations.MagicFaults := by
  refine fun s hr ha => ⟨fun hshort => ?_, fun hsrc hnone => ?_⟩
  · rw [step_shortMagic hr ha hshort]
    exact faultTaken_raise .t01
  · cases hd : decodeBlock (sourceBytes 4 s) with
    | ok i =>
      have hmagic := leNat_encode_of_decodeBlock (srcBytes_length hsrc) hd
      exact absurd hmagic ((hnone i).resolve_right (not_not.mpr (decodeBlock_level hd)))
    | error e =>
      rw [step_badMagic hr ha hsrc hd]
      exact faultTaken_raise .f01

/-- Settles O13: the step is `bvx$` past its magic, and `read` answers EndOfStream at its first engine step. -/
theorem bvxEndSetsEos : Obligations.BvxEndSetsEos := by
  refine fun s => ⟨rfl, fun hr ha hbytes => ⟨_, step_bvxEnd hr ha hbytes, rfl, rfl, rfl, ?_⟩⟩
  obtain ⟨hf, _, hp⟩ := hr
  exact read_eos hf rfl hp

end Sys2Proof.Machine

/-! SUPPORT. A faulted engine (R303). -/

namespace Sys2Proof.Machine

section
variable {s : State} {f : FaultRecord} (hf : s.fault = some f)
include hf

theorem step_faulted : step s = .fault (.recorded f) := by
  simp only [step, fetch, hf]

theorem engineStep_faulted : engineStep s = .fault (.recorded f) := by
  rw [engineStep, step_faulted hf]

theorem read_faulted : read s = (.raised f, s) := by
  simp only [read, readLoop, engineStep_faulted hf]

theorem available_faulted : available s = .error f := by
  rw [available, hf]

theorem bulkReadWith_faulted (c : Nat) (buf : List Byte) (off len : Int) :
    bulkReadWith c buf off len s = (.raised f, buf, s) := by
  rw [bulkReadWith, hf]

theorem takesDraw_faulted (buf : List Byte) (off len : Int) : takesDraw buf off len s = false := by
  rw [takesDraw, faulted, hf]
  rfl

end

/-- Settles O6: each call meets the record before anything else, and a bulk read that does not reach its draw counts
none. -/
theorem faultedEngineTakesNoStep : Obligations.FaultedEngineTakesNoStep := fun _ _ hf =>
  ⟨step_faulted hf, read_faulted hf, available_faulted hf, fun buf off len =>
    (bulkRead_undrawn (takesDraw_faulted hf buf off len)).trans (bulkReadWith_faulted hf _ buf off len)⟩

end Sys2Proof.Machine

/-! SUPPORT. Which faults a step can record: none of those that no valid path reaches (R307). -/

namespace Sys2Proof.Machine

/-- R301's reasons without those that no valid path reaches (R307). -/
def Reason.reachable : Reason → Bool
  | .t02 | .f06 | .f08 | .u01 | .u02 => false
  | _ => true

theorem Reason.reachable_iff (r : Reason) :
    r.reachable = true ↔ r ≠ .t02 ∧ r ≠ .f06 ∧ r ≠ .f08 ∧ r ≠ .u01 ∧ r ≠ .u02 := by
  cases r <;> decide

/-- The computation fails, if at all, with a reason that a step can record. -/
def FailsReachably {α : Type} (x : Except Reason α) : Prop :=
  ∀ r, x = .error r → r.reachable = true

theorem failsReachably_ok {α : Type} (a : α) : FailsReachably (.ok a : Except Reason α) := nofun

theorem failsReachably_error {α : Type} {r : Reason} (h : r.reachable = true) :
    FailsReachably (.error r : Except Reason α) := by
  rintro _ ⟨⟩
  exact h

/-! ### The header parsers -/

theorem parseV1_failsReachably (hs : List Byte) : FailsReachably (parseV1 hs) := by
  unfold parseV1 checkV1
  split
  · exact failsReachably_error rfl
  split
  · exact failsReachably_error rfl
  split
  · exact failsReachably_error rfl
  · exact failsReachably_ok _

theorem parseV2Prefix_failsReachably (capacity : Nat) (hs : List Byte) :
    FailsReachably (parseV2Prefix capacity hs) := by
  unfold parseV2Prefix
  split
  · exact failsReachably_error rfl
  split
  · exact failsReachably_error rfl
  split
  · exact failsReachably_error rfl
  · exact failsReachably_ok _

theorem parseLzvn_failsReachably (hs : List Byte) : FailsReachably (parseLzvn hs) := by
  unfold parseLzvn
  split
  · exact failsReachably_error rfl
  · exact failsReachably_ok _

theorem parseRaw_failsReachably (hs : List Byte) : FailsReachably (parseRaw hs) := by
  unfold parseRaw
  split
  · exact failsReachably_error rfl
  · exact failsReachably_ok _

/-- Blob bytes left unread leave 11 bits or more held, so that F05 is taken before F06 (R185, R307). -/
theorem finish_failsReachably {s : State} (h : VlcOk s) (hp : s.phase = .vlc)
    (hn : Config.nWeights ≤ s.vlc.weights.length) : FailsReachably (s.vlc.finish (vlcBlob s).length) := by
  have hsome : s.vlc.weights ≠ [] := List.ne_nil_of_length_pos (Nat.lt_of_lt_of_le (by decide) hn)
  unfold Vlc.finish
  split
  · exact failsReachably_error rfl
  split
  · have hcursor := h.cursor hp
    have hahead := h.ahead hp hsome (by omega)
    omega
  · exact failsReachably_ok _

/-! ### The entropy engine -/

theorem BitReader.init_failsReachably (buf : List Byte) (n : Int) : FailsReachably (BitReader.init buf n) := by
  unfold BitReader.init
  split
  · exact failsReachably_error rfl
  split
  · unfold BitReader.init0
    split
    · exact failsReachably_error rfl
    · exact failsReachably_ok _
  · unfold BitReader.initNeg
    split
    · exact failsReachably_error rfl
    simp only
    split
    · exact failsReachably_error rfl
    · exact failsReachably_ok _

theorem BitReader.fill_failsReachably (buf : List Byte) (br : BitReader) : FailsReachably (br.fill buf) := by
  intro r h
  rw [fill_error h]
  rfl

/-- At most 256 weights are built into each table, so that F08 is never taken (R131, R182). -/
theorem buildTables_failsReachably (weights : List Nat) : FailsReachably (buildTables weights) := by
  intro r h
  rw [buildTables_error h]
  rfl

theorem checkLiteralCount_failsReachably (n : Nat) : FailsReachably (checkLiteralCount n) := by
  unfold checkLiteralCount
  split
  · exact failsReachably_error rfl
  · exact failsReachably_ok _

/-- A triple has its bits after one fill, so that T02 is never taken (R130). -/
theorem decodeTriple_failsReachably {z : Lzfse} (ht : TablesOk z) : FailsReachably (decodeTriple z) := by
  intro r h
  rcases decodeTriple_error h with rfl | rfl | rfl | rfl
  · rfl
  · rfl
  · exact absurd h (decodeTriple_ne_t02 ht)
  · rfl

section
variable {n st : Nat} {t : List (Option Entry)} {br : BitReader} (ht : ∀ e, some e ∈ t → EntryOk n e)
include ht

/-- A transition takes no more bits than the table's state has (R133, R134). -/
theorem transition_cnt {st' : Nat} {e : Entry} {br' : BitReader} (h : transition n t st br = .ok (e, st', br')) :
    br.cnt ≤ br'.cnt + Nat.log2 n := by
  unfold transition at h
  split at h
  · cases h
  rename_i hlookup
  split at h
  · cases h
  rename_i hst
  cases h
  obtain ⟨hbits, -⟩ := ht _ (lookup_mem hlookup)
  have hcnt := nextState_cnt hst
  omega

/-- A transition with the bits of a state held finds them (R130, R133). -/
theorem transition_failsReachably (hcnt : Nat.log2 n ≤ br.cnt) : FailsReachably (transition n t st br) := by
  unfold transition
  split
  · refine failsReachably_error ?_
    rcases lookup_error ‹_› with rfl | rfl <;> rfl
  rename_i hlookup
  obtain ⟨hbits, -⟩ := ht _ (lookup_mem hlookup)
  split
  · have hlt := lt_of_nextState_error ‹_›
    omega
  · exact failsReachably_ok _

end

section
variable {tlit : List (Option Entry)} (ht : ∀ e, some e ∈ tlit → EntryOk Config.nStatesLit e)
include ht

/-- One fill has the bits of a whole quad: 10 for each lane (R130, R140). -/
theorem literalQuad_failsReachably (lp : List Byte) (z : Lanes) (br : BitReader) :
    FailsReachably (literalQuad tlit lp z br) := by
  have hlane : Nat.log2 Config.nStatesLit = 10 := by decide
  unfold literalQuad
  split
  · exact failsReachably_error (BitReader.fill_failsReachably _ _ _ ‹_›)
  rename_i hfill
  have hb := BitReader.fill_cnt hfill
  split
  · refine failsReachably_error (transition_failsReachably ht ?_ _ ‹_›)
    omega
  rename_i h0
  have hb0 := transition_cnt ht h0
  split
  · refine failsReachably_error (transition_failsReachably ht ?_ _ ‹_›)
    omega
  rename_i h1
  have hb1 := transition_cnt ht h1
  split
  · refine failsReachably_error (transition_failsReachably ht ?_ _ ‹_›)
    omega
  rename_i h2
  have hb2 := transition_cnt ht h2
  split
  · refine failsReachably_error (transition_failsReachably ht ?_ _ ‹_›)
    omega
  · exact failsReachably_ok _

theorem literalQuads_failsReachably (lp : List Byte) (q : Nat) (z : Lanes) (br : BitReader) :
    FailsReachably (literalQuads tlit lp q z br) := by
  induction q generalizing z br with
  | zero => exact failsReachably_ok _
  | succ q ih =>
    unfold literalQuads
    split
    · exact failsReachably_error (literalQuad_failsReachably ht _ _ _ _ ‹_›)
    split
    · exact failsReachably_error (ih _ _ _ ‹_›)
    · exact failsReachably_ok _

theorem literalDecode_failsReachably (lp : List Byte) (bits : Int) (count : Nat) (z : Lanes) :
    FailsReachably (literalDecode tlit lp bits count z) := by
  unfold literalDecode
  split
  · exact failsReachably_error (BitReader.init_failsReachably _ _ _ ‹_›)
  · exact literalQuads_failsReachably ht lp _ z _

end

/-! ### Recorded faults -/

/-- The fault on record, if there is one, is one that a step can record. -/
def FaultReachable (s : State) : Prop :=
  ∀ f, s.fault = some f → f.reason.reachable = true

theorem faultReachable_of_none {s : State} (h : s.fault = none) : FaultReachable s :=
  fun _ hf => nomatch h.symm.trans hf

theorem faultReachable_raise {s : State} {r : Reason} (h : r.reachable = true) : FaultReachable (raise s r) := by
  rintro _ ⟨⟩
  exact h

/-- A check whose reasons can be recorded, and what follows it. -/
theorem faultReachable_raising {α : Type} {s : State} {x : Except Reason α}
    {k : α → Host.Outcome State Fault Refusal} (hx : FailsReachably x)
    (hk : ∀ a, x = .ok a → AllNext FaultReachable (k a)) : AllNext FaultReachable (raising s x k) :=
  allNext_raising (fun r h => faultReachable_raise (hx r h)) hk

/-- A source read can only be cut short, by T01 (R61), and what follows it. -/
theorem faultReachable_reading {n : Nat} {s : State} {k : List Byte → State → Host.Outcome State Fault Refusal}
    (hk : AllNext FaultReachable (k ((s.src.drop s.spos).take n) { s with spos := s.spos + n })) :
    AllNext FaultReachable (reading n s k) :=
  allNext_reading (fun _ => faultReachable_raise rfl) fun _ => hk

theorem faultReachable_acceptTriple (tr : Triple) {s : State} (h : FaultReachable s) :
    FaultReachable (acceptTriple tr s) := by
  rcases acceptTriple_cases tr s with ⟨r, hr, he⟩ | ⟨_, he⟩ <;> rw [he]
  · rcases tripleFault_reason hr with rfl | rfl | rfl <;> exact faultReachable_raise rfl
  · exact fun f hf => h f ((updateD_fault _ s).symm.trans hf)

theorem faultReachable_blockDone {s : State} (h : FaultReachable s) : FaultReachable (blockDone s) := by
  rcases blockDone_cases s with ⟨_, he⟩ | ⟨_, he⟩ <;> rw [he]
  · exact faultReachable_raise rfl
  · exact h

theorem faultReachable_fetchLzfse {s : State} (h : FaultReachable s) (ht : TablesOk s.lzfse) :
    FaultReachable (fetchLzfse s) := by
  unfold fetchLzfse
  split
  · exact faultReachable_blockDone h
  split
  · exact faultReachable_raise (decodeTriple_failsReachably ht _ ‹_›)
  · exact faultReachable_acceptTriple _ h

/-- `initLZFSE` decodes its literals over the table it has built (R217). -/
theorem faultReachable_initLzfse (kind : BlockKind) {s : State} (h : FaultReachable s) :
    AllNext FaultReachable (initLzfse kind s) := by
  unfold initLzfse
  refine faultReachable_raising (checkLiteralCount_failsReachably _) fun _ _ => ?_
  refine faultReachable_raising (buildTables_failsReachably _) fun t ht => ?_
  refine faultReachable_reading (faultReachable_reading ?_)
  have hbuilt : TablesOk { Lzfse.zero with tl := t.tl, tm := t.tm, td := t.td, tlit := t.tlit } :=
    buildTables_ok ht rfl rfl rfl rfl
  refine faultReachable_raising (literalDecode_failsReachably hbuilt.tlitEntries _ _ _ _) fun _ _ => ?_
  exact faultReachable_raising (BitReader.init_failsReachably _ _) fun _ _ => allNext_next h

theorem faultReachable_finishV2 {s : State} (h : FaultReachable s) (hv : VlcOk s) (hp : s.phase = .vlc)
    (hn : Config.nWeights ≤ s.vlc.weights.length) : AllNext FaultReachable (finishV2 s) :=
  faultReachable_raising (finish_failsReachably hv hp hn) fun _ _ => faultReachable_initLzfse _ h

/-! ### Instructions of a level -/

theorem faultReachable_exec_block {i : Instr} {s : State} (hi : i.level = .block) (h : FaultReachable s) :
    AllNext FaultReachable (exec i s) := by
  cases i with
  | bvx1 =>
    unfold exec execBvx1
    refine faultReachable_reading (faultReachable_raising (parseV1_failsReachably _) fun _ _ => ?_)
    exact faultReachable_initLzfse _ h
  | bvx2 =>
    unfold exec execBvx2
    refine faultReachable_reading (faultReachable_raising (parseV2Prefix_failsReachably _ _) fun _ _ => ?_)
    refine faultReachable_reading ?_
    split
    · exact faultReachable_initLzfse _ h
    · exact allNext_next h
  | bvxn =>
    unfold exec execBvxn
    refine faultReachable_reading (faultReachable_raising (parseLzvn_failsReachably _) fun _ _ => ?_)
    exact faultReachable_reading (allNext_next h)
  | bvxRaw =>
    unfold exec execBvxRaw
    refine faultReachable_reading (faultReachable_raising (parseRaw_failsReachably _) fun _ _ => ?_)
    exact faultReachable_reading (allNext_next h)
  | bvxEnd => exact allNext_next h
  | _ => cases hi

theorem faultReachable_exec_lzvn {i : Instr} {s : State} (hi : i.level = .lzvn) (h : FaultReachable s) :
    AllNext FaultReachable (exec i s) := by
  rcases exec_lzvn hi s with ⟨n, tr, he⟩ | he | he | he <;> rw [he]
  · rcases lzvnTriple_cases n tr s with ⟨_, he⟩ | ⟨_, he⟩ <;> rw [he]
    · exact allNext_next (faultReachable_raise rfl)
    · exact allNext_next (faultReachable_acceptTriple tr h)
  · exact allNext_next h
  · exact allNext_next (faultReachable_blockDone h)
  · exact allNext_next (faultReachable_raise rfl)

theorem faultReachable_exec_vlc {i : Instr} {s : State} (hi : i.level = .vlc) (h : FaultReachable s) :
    AllNext FaultReachable (exec i s) := by
  rw [exec_vlc hi]
  rcases takeCode_cases (vlcWidth i) (vlcValue i) s with ⟨_, he⟩ | ⟨_, he⟩ <;> rw [he]
  · exact allNext_next (faultReachable_raise rfl)
  · exact allNext_next h

/-! ### The step -/

theorem faultReachable_step {s t : State} (hinv : Inv s) (hstep : step s = .next t) : FaultReachable t := by
  obtain ⟨hf, hcases⟩ := step_cases hstep
  have h := faultReachable_of_none hf
  obtain ⟨_, rfl⟩ | ⟨_, hc⟩ := hcases
  · exact h
  cases hc with
  | code _ _ he => exact faultReachable_exec_vlc (s := vlcRefilled s) (decodeVlc_level _) h t he
  | finish hp hn he => exact faultReachable_finishV2 h hinv.vlc hp hn t he
  | overrun _ _ _ he | shortMagic _ _ _ he => exact he ▸ faultReachable_raise rfl
  | opcode _ i hd he => exact faultReachable_exec_lzvn (decodeLzvn_level hd) h t he
  | badMagic _ _ _ e hd he =>
    subst he
    rcases decodeReason_block hd with hr | hr <;> rw [hr] <;> exact faultReachable_raise rfl
  | magic _ _ _ i hd he => exact faultReachable_exec_block (s := headerRead 4 s) (decodeBlock_level hd) h t he
  | literal _ _ _ he =>
    obtain ⟨_, hr⟩ := emitLiteral_ringWritten he
    exact faultReachable_of_none (hr.fault.trans hf)
  | matched _ _ _ _ he =>
    obtain ⟨_, hr⟩ := emitMatch_ringWritten he
    exact faultReachable_of_none (hr.fault.trans hf)
  | lzfse _ _ _ _ he => exact he ▸ faultReachable_fetchLzfse h hinv.tables
  | rawDone _ _ _ _ he => exact he ▸ faultReachable_blockDone h

/-- Settles O55: each operation of a step fails only with reasons outside R307's list; the invariant is needed for T02,
which its tables keep away, and for F06, which its bits held in `vlcDecode` do. -/
theorem unreachableFaults : Obligations.UnreachableFaults := fun _ _ hinv hstep c r hf =>
  (Reason.reachable_iff r).mp (faultReachable_step hinv hstep ⟨c, r⟩ hf)

end Sys2Proof.Machine

/-! SUPPORT. The reset state (R330): the LZFSE registers the table empties, and the default parameters. -/

namespace Sys2Proof.Machine

@[simp] theorem Lzfse.zero_tl : Lzfse.zero.tl = List.replicate 64 none := rfl
@[simp] theorem Lzfse.zero_tm : Lzfse.zero.tm = List.replicate 64 none := rfl
@[simp] theorem Lzfse.zero_td : Lzfse.zero.td = List.replicate 256 none := rfl
@[simp] theorem Lzfse.zero_tlit : Lzfse.zero.tlit = List.replicate 1024 none := rfl
@[simp] theorem Lzfse.zero_lp : Lzfse.zero.lp = [] := rfl
@[simp] theorem Lzfse.zero_lmdp : Lzfse.zero.lmdp = [] := rfl

theorem reset_eq_initial : State.reset = State.initial (2 ^ 18) 720 [] := rfl

/-- The default parameters are legal (R6, R7), so the default engine is one that construction accepts. -/
theorem inv_reset : Inv State.reset := by
  have hsize : isPowerOfTwo (2 ^ 18) = true ∧ 2 ≤ 2 ^ 18 :=
    (legalRingSize_iff _).mpr ⟨18, by decide, rfl⟩
  have hcap : 630 ≤ 720 := by decide
  exact reset_eq_initial ▸ inv_initial [] hsize hcap

/-- Settles O50: the `initial_` and `Lzfse.zero_` lemmas give R330's table register by register for any arguments;
`State.reset` is the construction with the default ones. -/
theorem resetState : Obligations.ResetState := by
  refine ⟨fun size capacity source => ?_, reset_eq_initial, inv_reset⟩
  simp

end Sys2Proof.Machine
